-- ==== Sys2Proof/Word.lean ====
section
/-! DEFINITION. The two bit-vector widths the spec moves about as words: a byte (spec/00_scope.md R16) and a
32-bit command or CSR word (R12). No operation stands here: every one a test could show wrong is in
Decode.lean or under Machine/. -/

namespace Sys2Proof

/-- An unsigned 8-bit value, 0x00 to 0xFF (R16). -/
abbrev Byte := BitVec 8

/-- A command word or a CSR word (R12, R116). Bit 0 is the least significant bit (R17). -/
abbrev Word32 := BitVec 32

end Sys2Proof
end

