-- ==== Sys2Proof/Syntax.lean ====
section
/-! DEFINITION. The command set (spec/30_encoding.md): the two command ports, one constructor of `Instr` for each
row of spec/opcode_table.json, and the assembler's source form with its two pseudo-instructions (R124, R126). -/

namespace Sys2Proof

/-- The two command ports (R119, spec/42_host_interface.md R273). -/
inductive Port where
  | enc
  | dec
deriving DecidableEq, Repr

/-- A decoded command: one constructor per row of the opcode table (R118), operands as R117 gives them. -/
inductive Instr where
  /-- ENC_OPEN L, form L: the payload length, 0 to 65535 (R151). -/
  | encOpen (len : BitVec 16)
  /-- ENC_DATA b, form B (R155). -/
  | encData (b : Byte)
  /-- ENC_ABORT, form N (R161). -/
  | encAbort
  /-- DEC_OPEN, form N (R201). -/
  | decOpen
  /-- DEC_DATA b, form B (R202). -/
  | decData (b : Byte)
  /-- DEC_END, form N (R213). -/
  | decEnd
deriving DecidableEq, Repr

/-- The port a command is legal on (R119). -/
def Instr.port : Instr → Port
  | .encOpen _ => .enc
  | .encData _ => .enc
  | .encAbort  => .enc
  | .decOpen   => .dec
  | .decData _ => .dec
  | .decEnd    => .dec

/-- The words that may begin an assembler line: the six mnemonics (R124) and the two pseudo-instructions (R126). -/
inductive Mnemonic where
  | encOpen
  | encData
  | encAbort
  | decOpen
  | decData
  | decEnd
  /-- `ENCODE b0, ..., b(n-1)` (R126). -/
  | encodePseudo
  /-- `DECODE f0, ..., f(m-1)` (R126). -/
  | decodePseudo
deriving DecidableEq, Repr

/-- One line of assembler source after its words have been read: a mnemonic and its operands as plain numbers,
of any size (the check of their range is `AsmCmd.wf`). -/
structure AsmCmd where
  mnemonic : Mnemonic
  operands : List Nat
deriving DecidableEq, Repr

end Sys2Proof
end

