-- ==== Sys2Proof/WellFormed.lean ====
section
/-! DEFINITION. What makes a command well formed. The operands of `Instr` have exactly the widths of R117, so the
one check left for a command is the port it stands on (R119). The assembler's source form has plain numbers, and
its check is R124's and R126's: the number of operands and the range of each. -/

namespace Sys2Proof

/-- A command is well formed on a port exactly when the port is its own (R119). -/
def Instr.wf (p : Port) (i : Instr) : Bool := i.port == p

/-- Form L operands are 0..65535 (R124). -/
def AsmCmd.lengthInRange (n : Nat) : Bool := n ≤ 65535

/-- Form B operands are 0..255 (R124). -/
def AsmCmd.byteInRange (n : Nat) : Bool := n ≤ 255

/-- The check of a source line: the operand count of its form and the range of each operand (R124); `ENCODE` is
refused for more than 65535 bytes (R126). -/
def AsmCmd.wf (c : AsmCmd) : Bool :=
  match c.mnemonic with
  | .encOpen      => c.operands.length == 1 && c.operands.all lengthInRange
  | .encData      => c.operands.length == 1 && c.operands.all byteInRange
  | .encAbort     => c.operands.isEmpty
  | .decOpen      => c.operands.isEmpty
  | .decData      => c.operands.length == 1 && c.operands.all byteInRange
  | .decEnd       => c.operands.isEmpty
  | .encodePseudo => lengthInRange c.operands.length && c.operands.all byteInRange
  | .decodePseudo => c.operands.all byteInRange

end Sys2Proof
end

