-- ==== Sys2Proof/Decode.lean ====
section
/-! DEFINITION. Command words (spec/30_encoding.md section 2): the fields of a word (R116), the opcode map as a table
(R118), the decoder of each port, total on every 32-bit word and rejecting by name (R120, R121), and after it the
encoder. Nothing of the machine's state is read here: R123 says no mode changes decoding. -/

namespace Sys2Proof

/-- OPC, bits 31:24 (R116). -/
def opcOf (w : Word32) : BitVec 8 := w.extractLsb' 24 8

/-- RSV, bits 23:16, must be 0x00 (R116). -/
def rsvOf (w : Word32) : BitVec 8 := w.extractLsb' 16 8

/-- IMM, bits 15:0 (R116). -/
def immOf (w : Word32) : BitVec 16 := w.extractLsb' 0 16

/-- IMM[15:8], which must be 0x00 in form B (R117). -/
def immHighOf (w : Word32) : BitVec 8 := w.extractLsb' 8 8

/-- IMM[7:0], the byte of form B (R117). -/
def immByteOf (w : Word32) : Byte := w.extractLsb' 0 8

/-- Why a word is illegal on a port (the kinds R121 lists). Every one has the same effect, that of R125. -/
inductive IllegalWord where
  /-- RSV ≠ 0x00. -/
  | rsvNotZero
  /-- Form B with IMM[15:8] ≠ 0x00. -/
  | immHighNotZero
  /-- Form N with IMM ≠ 0x0000. -/
  | immNotZero
  /-- An opcode of the other port (R119). -/
  | wrongPort
  /-- An opcode the table does not list (R118, R122). -/
  | unassignedOpc
deriving DecidableEq, Repr

/-- What a port's decoder answers on a word. -/
inductive Decoded where
  | cmd (i : Instr)
  | illegal (why : IllegalWord)
deriving DecidableEq, Repr

/-- DecodeCmd on `enc_cmd`, after RSV has been found zero (R120). -/
def decodeEnc (w : Word32) : Decoded :=
  if opcOf w = 0x01#8 then .cmd (.encOpen (immOf w))
  else if opcOf w = 0x02#8 then
    if immHighOf w = 0x00#8 then .cmd (.encData (immByteOf w)) else .illegal .immHighNotZero
  else if opcOf w = 0x03#8 then
    if immOf w = 0x0000#16 then .cmd .encAbort else .illegal .immNotZero
  else if opcOf w = 0x11#8 ∨ opcOf w = 0x12#8 ∨ opcOf w = 0x13#8 then .illegal .wrongPort
  else .illegal .unassignedOpc

/-- DecodeCmd on `dec_cmd`, after RSV has been found zero (R120). -/
def decodeDec (w : Word32) : Decoded :=
  if opcOf w = 0x11#8 then
    if immOf w = 0x0000#16 then .cmd .decOpen else .illegal .immNotZero
  else if opcOf w = 0x12#8 then
    if immHighOf w = 0x00#8 then .cmd (.decData (immByteOf w)) else .illegal .immHighNotZero
  else if opcOf w = 0x13#8 then
    if immOf w = 0x0000#16 then .cmd .decEnd else .illegal .immNotZero
  else if opcOf w = 0x01#8 ∨ opcOf w = 0x02#8 ∨ opcOf w = 0x03#8 then .illegal .wrongPort
  else .illegal .unassignedOpc

/-- DecodeCmd (R120): total on every port and word. -/
def decodeCmd (p : Port) (w : Word32) : Decoded :=
  if rsvOf w ≠ 0x00#8 then .illegal .rsvNotZero
  else match p with
    | .enc => decodeEnc w
    | .dec => decodeDec w

/-- Whether a word is a legal command of a port. -/
def legalOn (p : Port) (w : Word32) : Bool :=
  match decodeCmd p w with
  | .cmd _     => true
  | .illegal _ => false

/-- The words of a sequence that are legal on a port, in order. -/
def legalWords (p : Port) (ws : List Word32) : List Word32 := ws.filter (legalOn p)

/-- A row of the opcode map: a word w selects it when (w AND mask) = match and w arrives on its port (R118). -/
structure OpRow where
  port  : Port
  value : Word32
  mask  : Word32
deriving DecidableEq, Repr

/-- Whether a word arriving on a port selects a row (R118). -/
def OpRow.selects (r : OpRow) (p : Port) (w : Word32) : Bool := r.port == p && (w &&& r.mask) == r.value

/-- The row of R118 that a command belongs to. -/
def Instr.row : Instr → OpRow
  | .encOpen _ => ⟨.enc, 0x01000000#32, 0xFFFF0000#32⟩
  | .encData _ => ⟨.enc, 0x02000000#32, 0xFFFFFF00#32⟩
  | .encAbort  => ⟨.enc, 0x03000000#32, 0xFFFFFFFF#32⟩
  | .decOpen   => ⟨.dec, 0x11000000#32, 0xFFFFFFFF#32⟩
  | .decData _ => ⟨.dec, 0x12000000#32, 0xFFFFFF00#32⟩
  | .decEnd    => ⟨.dec, 0x13000000#32, 0xFFFFFFFF#32⟩

/-- The opcode map, in the table's order (R118). -/
def opcodeTable : List OpRow :=
  [Instr.row (.encOpen 0), Instr.row (.encData 0), Instr.row .encAbort,
   Instr.row .decOpen, Instr.row (.decData 0), Instr.row .decEnd]

/-- The command a word is on the port that takes it, if either port does. The opcodes of the two ports are
disjoint (R118), so at most one does. -/
def decodeEither (w : Word32) : Option Instr :=
  match decodeCmd .enc w with
  | .cmd i     => some i
  | .illegal _ =>
    match decodeCmd .dec w with
    | .cmd i     => some i
    | .illegal _ => none

/-- The port on which a word is presented when only the word is given: `dec_cmd` for a word that is legal there,
`enc_cmd` for every other word. -/
def portFor (w : Word32) : Port := if legalOn .dec w then .dec else .enc

/-- The command the decoder reads from a table word: every command is one whole 32-bit word (R123), so a number
that does not fit one is no command. -/
def decodeTableWord (nbits w : Nat) : Option Instr :=
  if nbits ≤ 32 ∧ w < 2 ^ 32 then decodeEither (BitVec.ofNat 32 w) else none

/-- The word of a command, {OPC, RSV, IMM} with RSV = 0 and, in form B, IMM[15:8] = 0 (R116 to R118). -/
def encode : Instr → Word32
  | .encOpen len => 0x01#8 ++ 0x00#8 ++ len
  | .encData b   => 0x02#8 ++ 0x00#8 ++ 0x00#8 ++ b
  | .encAbort    => 0x03#8 ++ 0x00#8 ++ 0x0000#16
  | .decOpen     => 0x11#8 ++ 0x00#8 ++ 0x0000#16
  | .decData b   => 0x12#8 ++ 0x00#8 ++ 0x00#8 ++ b
  | .decEnd      => 0x13#8 ++ 0x00#8 ++ 0x0000#16

end Sys2Proof
end

