-- ==== Sys2Proof/Config.lean ====
section
/-! DEFINITION. The build parameters of one core (spec/00_scope.md R7, R11, R12). They are fixed when a core is
built, and no step changes them. They are an argument of the whole machine: `machine` in
Machine/Parametric.lean. The fixed `step` takes a state and nothing else, so `State` carries that argument (log entry 1): a
statement about every state is a statement about every variant and every queue depth. The values that belong to a variant are in Machine/Operands.lean. -/

namespace Sys2Proof

/-- The protocol variant of a core (R4, R5, R7). -/
inductive Variant where
  | A
  | B
deriving DecidableEq, Repr

/-- ENC_OQ_DEPTH, the capacity in bytes of the encoder output queue: 4 to 255 (R11). -/
structure OqDepth where
  val  : Nat
  low  : 4 ≤ val
  high : val ≤ 255
deriving DecidableEq, Repr

/-- The two implementation parameters of the core; R12 says there is no other. -/
structure Build where
  variant : Variant
  oqDepth : OqDepth
deriving DecidableEq, Repr

/-- The reference depth of spec/95_test_vectors.md (R11). -/
def OqDepth.reference : OqDepth := ⟨8, by decide, by decide⟩

end Sys2Proof
end

