-- ==== Sys2Proof/Machine/State.lean ====
section
/-! DEFINITION. The whole state of the machine as plain data: the build parameters of the core, the encoder E
(spec/10_state.md R31 to R36), the decoder D (R37 to R45), and the host's side of the ports (spec/42_host_interface.md:
the words presented on the two command ports, the reset input, the order of the host's moves, and the two records of what
the host has received). R46 to R49: there is no program counter, general register, condition code or other register
file. The reasons a step can stop come first. -/

namespace Sys2Proof.Machine

/-- Reasons for which the machine stops with a fault: the spec gives none, so there is no constructor and no step can
fault. An error is a status the engine records (R300), a full queue makes a word wait (R150), and a broken host duty
has a defined outcome (R276). Safe: no behaviour of the core is cut off. -/
inductive Fault where
deriving DecidableEq, Repr

/-- Reasons for which a step gives an instruction no meaning. -/
inductive Refusal where
  /-- Raised only by an arm of `exec` whose instruction has no meaning yet; no arm is left so. Safe: the machine stops
  where the core would go on. -/
  | notModelled (mnemonic : String)
deriving DecidableEq, Repr

/-- The contents of PBUF (R45) as (index, byte) pairs, indices strictly rising, no entry equal to what an unlisted
index reads as (Machine/Ops.lean `Memory.unlisted`). -/
abbrev Memory := List Host.Cell

/-- E.STATE (R31). -/
inductive EncState where
  | idle
  | body
deriving DecidableEq, Repr

/-- D.STATE (R37). The codes 5, 6 and 7 are never held and have no constructor (spec/93_implementation_defined.md U6). -/
inductive DecState where
  | expectStart
  | scanBody
  | escapePending
  | done
  | error
deriving DecidableEq, Repr

/-- D.ERR (R38): NONE or one of the six decode error kinds. The code 7 is never held and has no constructor (U6). -/
inductive DecErr where
  | noError
  | missingStartByte
  | illegalStartByte
  | illegalEscapedByte
  | unterminatedPacket
  | packetTooLarge
  | checksumMismatch
deriving DecidableEq, Repr

/-- The encoder E. -/
structure Enc where
  /-- E.STATE (R31). -/
  state : EncState
  /-- E.REM, 9 bits: payload bytes still due (R32). -/
  rem   : BitVec 9
  /-- E.SUM, 8 bits: the running checksum (R33). -/
  sum   : Byte
  /-- E.ERR: InvalidInput (R34). -/
  err   : Bool
  /-- E.CILL: sticky, an illegal command word was accepted (R35). -/
  cill  : Bool
  /-- E.CSEQ: sticky, a command was out of sequence (R35). -/
  cseq  : Bool
  /-- EOQ, the output queue, head first (R36). -/
  eoq   : List Byte
deriving DecidableEq, Repr

/-- The decoder D. -/
structure Dec where
  /-- D.STATE (R37). -/
  state : DecState
  /-- D.ERR (R38). -/
  err   : DecErr
  /-- D.HOLD, 8 bits: the most recently decoded element (R39). -/
  hold  : Byte
  /-- D.HV: D.HOLD holds a decoded element (R39). -/
  hv    : Bool
  /-- D.LEN, 9 bits: payload bytes stored (R40). -/
  len   : BitVec 9
  /-- D.OVF: a payload byte came when D.LEN was 256 (R40). -/
  ovf   : Bool
  /-- D.SUM, 8 bits: the checksum of the bytes pushed (R41). -/
  sum   : Byte
  /-- D.RCHK, 8 bits: the received checksum (R42). -/
  rchk  : Byte
  /-- D.CNT, 16 bits: frame bytes consumed, saturating (R43). -/
  cnt   : BitVec 16
  /-- D.EPOS, 16 bits: the position of the error (R43). -/
  epos  : BitVec 16
  /-- D.CILL: sticky, an illegal command word was accepted (R44). -/
  cill  : Bool
  /-- PBUF, 256 bytes, indices 0 to 255 (R45). -/
  pbuf  : Memory
deriving DecidableEq, Repr

/-- One thing the host does in one step (R272 to R275, R92): it lets a port's handshake happen, takes an output byte, reads a
CSR, or drives the reset input. -/
inductive HostMove where
  /-- A clock edge at which the word at the head of `encWords` is valid on `enc_cmd` (R273). -/
  | encCmd
  /-- A clock edge at which the word at the head of `decWords` is valid on `dec_cmd` (R273). -/
  | decCmd
  /-- A clock edge at which `enc_out_ready` = 1 (R272). -/
  | encPop
  /-- A read through the CSR port, `csr_addr` = offset[11:2] (R271). -/
  | csrRead (addr : BitVec 10)
  /-- The host drives `rst` to a level (R340); a level of 1 is held for a clock edge. -/
  | rst (level : Bool)
deriving DecidableEq, Repr

/-- The host's side of the ports (spec/42_host_interface.md). -/
structure HostSide where
  /-- Words the host presents on `enc_cmd`, in order; the head is held until it is accepted (R273). -/
  encWords : List Word32
  /-- Words the host presents on `dec_cmd`, in order (R273). -/
  decWords : List Word32
  /-- The host's coming moves, one for each step. -/
  moves    : List HostMove
  /-- The level of the `rst` input (R340, R341). -/
  rst      : Bool
  /-- OUT, the host-side record of bytes delivered on `enc_out` (R272). -/
  out      : List Byte
  /-- The host-side record of CSR reads: the address and the word on `csr_rdata` (R271). -/
  reads    : List (BitVec 10 × Word32)
deriving DecidableEq, Repr

/-- The machine. -/
structure State where
  /-- The argument of the machine (R7, R11), carried here because `step` takes nothing else (log entry 1). It is no state of
  the core: no step changes it, and the state of `machine b` (Machine/Parametric.lean) is without it. -/
  build : Build
  /-- The encoder (R31 to R36). -/
  e     : Enc
  /-- The decoder (R37 to R45). -/
  d     : Dec
  /-- The host's side of the ports. -/
  host  : HostSide
deriving DecidableEq, Repr

/-- The encoder's reset values (R340). -/
def Enc.reset : Enc :=
  { state := .idle, rem := 0, sum := 0x00, err := false, cill := false, cseq := false, eoq := [] }

/-- The decoder's reset values (R340) over given PBUF contents, which reset does not touch. -/
def Dec.resetOver (pbuf : Memory) : Dec :=
  { state := .expectStart, err := .noError, hold := 0x00, hv := false, len := 0, ovf := false, sum := 0x00,
    rchk := 0x00, cnt := 0, epos := 0, cill := false, pbuf := pbuf }

/-- A host that has presented nothing, plans nothing and has received nothing, with `rst` released (R344). -/
def HostSide.quiet : HostSide :=
  { encWords := [], decWords := [], moves := [], rst := false, out := [], reads := [] }

/-- A core of any build right after power-up and reset, over any PBUF contents (R340, R344). -/
def State.resetOf (b : Build) (pbuf : Memory) : State :=
  { build := b, e := Enc.reset, d := Dec.resetOver pbuf, host := HostSide.quiet }

/-- The machine right after reset. Every register has the value R340 states. DESIGN CHOICE (log entries 1 and 2): variant A and
the reference depth for the parameters R7 and R11 leave to the builder, and a PBUF with nothing listed, where R45 leaves
its contents unspecified and the gate of R84 hides them. -/
def State.reset : State := State.resetOf { variant := .A, oqDepth := .reference } []

end Sys2Proof.Machine
end

