-- ==== Sys2Proof/Machine/Operands.lean ====
section
/-! DEFINITION. The values commands work with: the protocol constants of the two variants (spec/00_scope.md R4 to R9),
the operand of ENC_OPEN (spec/30_encoding.md R117), the escape rule in both directions (R111, R115) and the checksum
(R112). -/

namespace Sys2Proof.Machine

/-- START (R4, R5). -/
def startByte : Variant → Byte
  | .A => 0x56#8
  | .B => 0x5B#8

/-- TERM (R4, R5). -/
def termByte : Variant → Byte
  | .A => 0x65#8
  | .B => 0x5D#8

/-- ESCAPE (R4, R5). -/
def escapeByte : Variant → Byte
  | .A => 0x25#8
  | .B => 0x5E#8

/-- MASK (R4, R5). -/
def maskByte : Variant → Byte
  | .A => 0x20#8
  | .B => 0x20#8

/-- VARIANT_BIT (R270): 0 for A, 1 for B. -/
def variantBit : Variant → BitVec 1
  | .A => 0#1
  | .B => 1#1

/-- MAX_PACKET_SIZE (R6). -/
def maxPacket : Nat := 256

/-- MAX_FRAME_LEN (R10). -/
def maxFrameLen : Nat := 2 * maxPacket + 3

/-- Membership in R = {START, TERM, ESCAPE} (R8). MASK is not a member. -/
def reserved (v : Variant) (b : Byte) : Bool := b == startByte v || b == termByte v || b == escapeByte v

/-- b XOR MASK: the masking of the encoder (R157) and, being its own inverse, the unmasking of the decoder (R209). -/
def masked (v : Variant) (b : Byte) : Byte := b ^^^ maskByte v

/-- The body element of one payload byte (R111, R157). -/
def bodyElement (v : Variant) (b : Byte) : List Byte :=
  if reserved v b then [escapeByte v, masked v b] else [b]

/-- The checksum of a byte list: the sum modulo 256, from 0x00 (R112, R160). -/
def checksum (bs : List Byte) : Byte := bs.foldl (· + ·) 0x00#8

/-- L = zext_16(IMM[15:0]) as a number (R117). -/
def payloadLength (len : BitVec 16) : Nat := len.toNat

/-- sat16(v) = min(v, 0xFFFF) in a 16-bit register (R17). -/
def sat16 (n : Nat) : BitVec 16 := BitVec.ofNat 16 (min n 0xFFFF)

end Sys2Proof.Machine
end

