-- ==== Sys2Proof/Machine/Ops.lean ====
section
/-! DEFINITION. The shared operations: the payload buffer as a memory in canonical form and its gate (spec/20_memory.md R84),
`emit`, `PbufWrite` and `raise` of spec/00_scope.md R18, the hold-register push and the checksum validator of
spec/41_decoder.md (R211, R210), the start of a transaction (R201), and reset (spec/70_reset_and_hazards.md R340). -/

namespace Sys2Proof.Machine

/-! ### Memory -/

/-- What an unlisted PBUF index reads as. DESIGN CHOICE (log entry 2): R45 leaves it unspecified, and R84 keeps it from
ever being seen. -/
def Memory.unlisted : Byte := 0x00#8

/-- One byte of a memory. -/
def Memory.read : Memory → Nat → Byte
  | [], _ => Memory.unlisted
  | (k, v) :: m, a => if k = a then v else Memory.read m a

/-- Write one byte, keeping the canonical form: storing what an unlisted address reads as removes the entry. -/
def Memory.write : Memory → Nat → Byte → Memory
  | [], a, v => if v = Memory.unlisted then [] else [(a, v)]
  | (k, w) :: m, a, v =>
    if a < k then (if v = Memory.unlisted then (k, w) :: m else (a, v) :: (k, w) :: m)
    else if a = k then (if v = Memory.unlisted then m else (a, v) :: m)
    else (k, w) :: Memory.write m a v

/-- Every address of a memory is above a bound, the addresses rise strictly, and no entry holds the unlisted value. -/
def Memory.wfAbove : Option Nat → Memory → Bool
  | _, [] => true
  | lo, (k, v) :: m =>
    (match lo with
      | none   => true
      | some a => decide (a < k)) && v != Memory.unlisted && k < maxPacket && Memory.wfAbove (some k) m

/-- The canonical form of PBUF contents, with every index in 0..255 (R45). -/
def Memory.wf (m : Memory) : Bool := Memory.wfAbove none m

/-! ### The encoder's shared operations -/

/-- `emit`, for the bytes one command emits, in order, at the tail of EOQ (R18, R36, R91). -/
def Enc.emit (e : Enc) (bs : List Byte) : Enc := { e with eoq := e.eoq ++ bs }

/-- E.CSEQ <- 1: a sequence error changes nothing else (R152, R156, R303). -/
def Enc.sequenceError (e : Enc) : Enc := { e with cseq := true }

/-- E.ERR <- 1: InvalidInput records nothing else (R153, R302, R307). -/
def Enc.invalidInput (e : Enc) : Enc := { e with err := true }

/-- E.CILL <- 1: an illegal word changes nothing else (R125). -/
def Enc.illegalCommand (e : Enc) : Enc := { e with cill := true }

/-! ### The decoder's shared operations -/

/-- D.CILL <- 1: an illegal word changes nothing else (R125). -/
def Dec.illegalCommand (d : Dec) : Dec := { d with cill := true }

/-- Whether D.STATE is terminal (spec/00_scope.md, glossary). -/
def Dec.terminal (d : Dec) : Bool :=
  match d.state with
  | .expectStart   => false
  | .scanBody      => false
  | .escapePending => false
  | .done          => true
  | .error         => true

/-- `PbufWrite(i, v)` (R18). -/
def Dec.pbufWrite (d : Dec) (i : Nat) (v : Byte) : Dec := { d with pbuf := d.pbuf.write i v }

/-- D.CNT <- sat16(D.CNT + 1) (R202, R43). -/
def Dec.countByte (d : Dec) : Dec := { d with cnt := sat16 (d.cnt.toNat + 1) }

/-- `raise K(pos)`: the entry into ERROR (R18, R218). It records the kind and the position and leaves every other register.
It transfers no control (R300). -/
def Dec.raise (d : Dec) (kind : DecErr) (pos : BitVec 16) : Dec :=
  { d with state := .error, err := kind, epos := pos }

/-- The start of a transaction, the only way out of ERROR or DONE besides reset (R201, R308): every register but D.CILL
and PBUF takes its start value. -/
def Dec.restart (d : Dec) : Dec := { Dec.resetOver d.pbuf with cill := d.cill }

/-- The PBUF index at which a push of the hold register stores, when it stores (R211). -/
def Dec.pushIndex (d : Dec) : Option Nat :=
  if d.hv = true ∧ d.len.toNat < maxPacket then some d.len.toNat else none

/-- The push of a full hold register: stored at D.LEN while there is room, else D.OVF is set, and summed either
way (R211). -/
def Dec.push (d : Dec) : Dec :=
  match d.pushIndex with
  | some i => { d.pbufWrite i d.hold with len := d.len + 1, sum := d.sum + d.hold }
  | none   => { d with ovf := true, sum := d.sum + d.hold }

/-- Accept(x) (R211). -/
def Dec.accept (d : Dec) (x : Byte) : Dec :=
  { (if d.hv then d.push else d) with hold := x, hv := true }

/-- CheckChecksum(pos) (R210): the length check first, then an unsigned 8-bit equality (R221). -/
def Dec.checkChecksum (d : Dec) (pos : BitVec 16) : Dec :=
  let r := { d with rchk := d.hold }
  if d.ovf then r.raise .packetTooLarge pos
  else if d.sum = d.hold then { r with state := .done }
  else r.raise .checksumMismatch pos

/-- View(i), the PBUF gate (R84). -/
def Dec.view (d : Dec) (i : Nat) : Byte :=
  if d.state = .done ∧ i < d.len.toNat then d.pbuf.read i else 0x00#8

/-- The bytes stored so far: in DONE, the decoded payload (R219). -/
def Dec.payload (d : Dec) : List Byte := (List.range d.len.toNat).map d.pbuf.read

/-! ### The whole machine -/

/-- Put a new encoder in place; nothing else changes (R30). -/
def State.setE (s : State) (e : Enc) : State := { s with e := e }

/-- Put a new decoder in place; nothing else changes (R30). -/
def State.setD (s : State) (d : Dec) : State := { s with d := d }

/-- Change the host's side; the core does not change. -/
def State.setHost (s : State) (h : HostSide) : State := { s with host := h }

/-- The effect of an illegal word accepted on a port (R125). -/
def State.illegalCommand (p : Port) (s : State) : State :=
  match p with
  | .enc => s.setE s.e.illegalCommand
  | .dec => s.setD s.d.illegalCommand

/-- A clock edge with `rst` = 1: every register takes its reset value, EOQ empties, PBUF keeps what it held (R340). -/
def State.resetRegisters (s : State) : State := { s with e := Enc.reset, d := Dec.resetOver s.d.pbuf }

/-- What a clock edge does besides a handshake: with `rst` = 1 it resets the registers, otherwise nothing (R340, R342). -/
def State.clockEdge (s : State) : State := if s.host.rst then s.resetRegisters else s

end Sys2Proof.Machine
end

