-- ==== Sys2Proof/Machine/Flags.lean ====
section
/-! DEFINITION. Everything the core shows as a flag, a code or a level: the codes of D.STATE and D.ERR (spec/10_state.md R37,
R38), the class of an error (spec/60_exceptions.md R304), the handshake levels of the ports (spec/42_host_interface.md R272,
R273) and the three level outputs (R274). No command reads a flag as an operand (R48). -/

namespace Sys2Proof.Machine

/-- The code of D.STATE (R37). -/
def DecState.code : DecState → BitVec 3
  | .expectStart   => 0#3
  | .scanBody      => 1#3
  | .escapePending => 2#3
  | .done          => 3#3
  | .error         => 4#3

/-- The code of D.ERR (R38). -/
def DecErr.code : DecErr → BitVec 3
  | .noError            => 0#3
  | .missingStartByte   => 1#3
  | .illegalStartByte   => 2#3
  | .illegalEscapedByte => 3#3
  | .unterminatedPacket => 4#3
  | .packetTooLarge     => 5#3
  | .checksumMismatch   => 6#3

/-- What the source tells a caller to do about an error (R304). The core takes no action for any class. -/
inductive ErrorClass where
  /-- Bad framing. -/
  | discardAndResync
  /-- Bad checksum. -/
  | discardAndNack
  /-- Oversize input. -/
  | rejectOutright
deriving DecidableEq, Repr

/-- The class of a decode error: codes 1 to 5 are bad framing, code 6 is a bad checksum (R304). -/
def DecErr.errorClass : DecErr → Option ErrorClass
  | .noError            => none
  | .missingStartByte   => some .discardAndResync
  | .illegalStartByte   => some .discardAndResync
  | .illegalEscapedByte => some .discardAndResync
  | .unterminatedPacket => some .discardAndResync
  | .packetTooLarge     => some .discardAndResync
  | .checksumMismatch   => some .discardAndNack

/-- The class of the encoder's error: InvalidInput is oversize input (R304). -/
def Enc.errorClass (e : Enc) : Option ErrorClass := if e.err then some .rejectOutright else none

/-- `enc_busy` (R274), also ENC_STATUS.BUSY (R52). -/
def encBusy (s : State) : Bool := s.e.state == .body

/-- `dec_done` (R274). -/
def decDone (s : State) : Bool := s.d.state == .done

/-- `dec_err` (R274). -/
def decErr (s : State) : Bool := s.d.state == .error

/-- `enc_cmd_ready`: not in reset, and room in EOQ for the four bytes one command can emit (R150, R273, R341). -/
def encCmdReady (s : State) : Bool := !s.host.rst && decide (s.e.eoq.length + 4 ≤ s.build.oqDepth.val)

/-- `dec_cmd_ready`: 1 outside reset (R200, R273, R341). -/
def decCmdReady (s : State) : Bool := !s.host.rst

/-- `enc_out_valid`: EOQ is not empty, and the core is not in reset (R272, R341). -/
def encOutValid (s : State) : Bool := !s.host.rst && !s.e.eoq.isEmpty

/-- `enc_out_data`: the head of EOQ (R272); nothing when EOQ is empty, where no rule gives the data lines a value. -/
def encOutData (s : State) : Option Byte := s.e.eoq.head?

end Sys2Proof.Machine
end

