-- ==== Sys2Proof/Machine/Csr.lean ====
section
/-! DEFINITION. The read-only CSR space (spec/20_memory.md R82 to R88, spec/10_state.md R50 to R57): CsrRead of
spec/42_host_interface.md R270, a pure function of the state. The port carries offset[11:2] (R85), so a word is named here by
that index: the word at byte offset 4·k has index k. -/

namespace Sys2Proof.Machine

/-- CFG0, offset 0x000 (R50). -/
def cfg0 (s : State) : Word32 :=
  maskByte s.build.variant ++ escapeByte s.build.variant ++ termByte s.build.variant ++ startByte s.build.variant

/-- CFG1, offset 0x004 (R51). -/
def cfg1 (s : State) : Word32 :=
  BitVec.ofNat 8 s.build.oqDepth.val ++ 0#7 ++ variantBit s.build.variant ++ BitVec.ofNat 16 maxPacket

/-- ENC_STATUS, offset 0x008 (R52). -/
def encStatus (s : State) : Word32 :=
  0#7 ++ s.e.rem ++ s.e.sum ++ 0#4 ++ BitVec.ofBool s.e.cseq ++ BitVec.ofBool s.e.cill ++ BitVec.ofBool s.e.err
    ++ BitVec.ofBool (encBusy s)

/-- ENC_OQ, offset 0x00C (R53). -/
def encOq (s : State) : Word32 := BitVec.ofNat 32 s.e.eoq.length

/-- DEC_STATUS, offset 0x010 (R54). -/
def decStatus (s : State) : Word32 :=
  0#7 ++ s.d.len ++ 0#6 ++ BitVec.ofBool s.d.ovf ++ BitVec.ofBool s.d.hv ++ BitVec.ofBool s.d.cill ++ s.d.err.code
    ++ 0#1 ++ s.d.state.code

/-- DEC_CHK, offset 0x014 (R55). -/
def decChk (s : State) : Word32 := 0x00#8 ++ s.d.hold ++ s.d.sum ++ s.d.rchk

/-- DEC_POS, offset 0x018 (R56). -/
def decPos (s : State) : Word32 := s.d.epos ++ s.d.cnt

/-- Word k of the PBUF window, offset 0x100 + 4k, byte lanes little-endian (R83). -/
def pbufWord (s : State) (k : Nat) : Word32 :=
  s.d.view (4 * k + 3) ++ s.d.view (4 * k + 2) ++ s.d.view (4 * k + 1) ++ s.d.view (4 * k)

/-- CsrRead (R270) at the word with index `addr` = offset[11:2]; reserved words read 0 (R88). -/
def csrRead (addr : BitVec 10) (s : State) : Word32 :=
  if addr = 0x000#10 then cfg0 s
  else if addr = 0x001#10 then cfg1 s
  else if addr = 0x002#10 then encStatus s
  else if addr = 0x003#10 then encOq s
  else if addr = 0x004#10 then decStatus s
  else if addr = 0x005#10 then decChk s
  else if addr = 0x006#10 then decPos s
  else if 0x040 ≤ addr.toNat ∧ addr.toNat < 0x080 then pbufWord s (addr.toNat - 0x040)
  else 0x00000000#32

/-- The index of the CSR word at a byte offset: the low two offset bits are not carried (R85). -/
def csrIndex (off : BitVec 12) : BitVec 10 := off.extractLsb' 2 10

end Sys2Proof.Machine
end

