-- ==== Sys2Proof/Machine/Decoder.lean ====
section
/-! DEFINITION. The decoder's commands (spec/41_decoder.md): what each does to D, and the meaning of each as a step of the
machine, which changes D and nothing else (R30). Every decoder command completes in one step (R200). -/

namespace Sys2Proof.Machine

/-- DEC_DATA(b) on D: the frame-delimiter FSM (R202 to R212). -/
def decDataStep (v : Variant) (b : Byte) (d : Dec) : Dec :=
  match d.state with
  | .expectStart =>
    if b = startByte v then { d.countByte with hold := startByte v, state := .scanBody }
    else d.countByte.raise .missingStartByte d.cnt
  | .scanBody =>
    if b = termByte v then d.countByte.checkChecksum d.cnt
    else if b = startByte v then d.countByte.raise .illegalStartByte d.cnt
    else if b = escapeByte v then { d.countByte with state := .escapePending }
    else d.countByte.accept b
  | .escapePending =>
    if b = startByte v ∨ b = escapeByte v then d.countByte.raise .illegalEscapedByte d.cnt
    else { d.countByte.accept (masked v b) with state := .scanBody }
  | .done => d
  | .error => d

/-- DEC_END on D (R213 to R216). -/
def decEndStep (d : Dec) : Dec :=
  match d.state with
  | .expectStart   => d.raise .missingStartByte d.cnt
  | .scanBody      => d.raise .unterminatedPacket d.cnt
  | .escapePending => d.raise .unterminatedPacket d.cnt
  | .done          => d
  | .error         => d

/-- DEC_OPEN (R201). -/
def execDecOpen (s : State) : Host.Outcome State Fault Refusal :=
  .next (s.setD s.d.restart)

/-- DEC_DATA (R202). -/
def execDecData (b : Byte) (s : State) : Host.Outcome State Fault Refusal :=
  .next (s.setD (decDataStep s.build.variant b s.d))

/-- DEC_END (R213). -/
def execDecEnd (s : State) : Host.Outcome State Fault Refusal :=
  .next (s.setD (decEndStep s.d))

end Sys2Proof.Machine
end

