-- ==== Sys2Proof/Machine/Encoder.lean ====
section
/-! DEFINITION. The encoder's commands (spec/40_encoder.md): what each does to E, and the meaning of each as a step of the
machine, which changes E and nothing else (R30). A meaning is the effect of an accepted word; when a word is accepted is
Machine/Ports.lean's matter (R150). -/

namespace Sys2Proof.Machine

/-- ENC_OPEN(L) on E (R151 to R154). -/
def encOpenStep (v : Variant) (len : BitVec 16) (e : Enc) : Enc :=
  match e.state with
  | .body => e.sequenceError
  | .idle =>
    if maxPacket < payloadLength len then e.invalidInput
    else
      let opened := { e with err := false, sum := 0x00#8 }.emit [startByte v]
      if payloadLength len = 0 then opened.emit [0x00#8, termByte v]
      else { opened with rem := BitVec.ofNat 9 (payloadLength len), state := .body }

/-- ENC_DATA(b) on E (R155 to R159). -/
def encDataStep (v : Variant) (b : Byte) (e : Enc) : Enc :=
  match e.state with
  | .idle => e.sequenceError
  | .body =>
    let s := e.sum + b
    let fed := { e.emit (bodyElement v b) with sum := s, rem := e.rem - 1 }
    if e.rem - 1 = 0 then { fed.emit [s, termByte v] with state := .idle } else fed

/-- ENC_ABORT on E (R161). -/
def encAbortStep (e : Enc) : Enc :=
  match e.state with
  | .body => { e with state := .idle, rem := 0 }
  | .idle => e

/-- ENC_OPEN (R151). -/
def execEncOpen (len : BitVec 16) (s : State) : Host.Outcome State Fault Refusal :=
  .next (s.setE (encOpenStep s.build.variant len s.e))

/-- ENC_DATA (R155). -/
def execEncData (b : Byte) (s : State) : Host.Outcome State Fault Refusal :=
  .next (s.setE (encDataStep s.build.variant b s.e))

/-- ENC_ABORT (R161). -/
def execEncAbort (s : State) : Host.Outcome State Fault Refusal :=
  .next (s.setE (encAbortStep s.e))

end Sys2Proof.Machine
end

