-- ==== Sys2Proof/Machine/Dispatch.lean ====
section
/-! DEFINITION. The meaning of every command: one arm per constructor of `Instr`. -/

namespace Sys2Proof.Machine

def exec (i : Instr) (s : State) : Host.Outcome State Fault Refusal :=
  match i with
  -- the encoder's commands, spec/40_encoder.md
  | .encOpen len => Sys2Proof.Machine.execEncOpen len s
  | .encData b => Sys2Proof.Machine.execEncData b s
  | .encAbort => Sys2Proof.Machine.execEncAbort s
  -- the decoder's commands, spec/41_decoder.md
  | .decOpen => Sys2Proof.Machine.execDecOpen s
  | .decData b => Sys2Proof.Machine.execDecData b s
  | .decEnd => Sys2Proof.Machine.execDecEnd s

end Sys2Proof.Machine
end

