-- ==== Sys2Proof/Machine/Ports.lean ====
section
/-! DEFINITION. The ports (spec/42_host_interface.md): what an accepted word does, when a port accepts one (spec/40_encoder.md R150,
spec/41_decoder.md R200), the transfer of an output byte (R272), a CSR read (R271), the reset input (R340, R341), and the
one step each host move makes. A word that its port does not accept waits at the head of its queue: the step leaves it
there (R346). -/

namespace Sys2Proof.Machine

/-- The effect of a word its port has accepted: its command (R120), or the sticky flag of an illegal word (R125). One
atomic step of one engine (R91). -/
def acceptWord (p : Port) (w : Word32) (s : State) : Host.Outcome State Fault Refusal :=
  match decodeCmd p w with
  | .cmd i     => exec i s
  | .illegal _ => .next (s.illegalCommand p)

/-- The effects of a sequence of words accepted on one port, in order (R91). -/
def acceptWords (p : Port) : List Word32 → State → Host.Outcome State Fault Refusal
  | [], s => .next s
  | w :: ws, s =>
    match acceptWord p w s with
    | .next t    => acceptWords p ws t
    | .fault r   => .fault r
    | .refused r => .refused r

/-- Whether a port accepts a word at this edge (R273). -/
def cmdReady (p : Port) (s : State) : Bool :=
  match p with
  | .enc => encCmdReady s
  | .dec => decCmdReady s

/-- The words the host presents on a port. -/
def portWords (p : Port) (s : State) : List Word32 :=
  match p with
  | .enc => s.host.encWords
  | .dec => s.host.decWords

/-- Replace the words the host presents on a port. -/
def setPortWords (p : Port) (ws : List Word32) (s : State) : State :=
  match p with
  | .enc => s.setHost { s.host with encWords := ws }
  | .dec => s.setHost { s.host with decWords := ws }

/-- The word a handshake transfers on a port, with the state in which the host no longer presents it; nothing when
there is no word or the port is not ready (R150, R200, R273). -/
def handshake (p : Port) (s : State) : Option (Word32 × State) :=
  match portWords p s with
  | []      => none
  | w :: ws => if cmdReady p s then some (w, setPortWords p ws s) else none

/-- A clock edge at which the host's word is valid on a port. -/
def portStep (p : Port) (s : State) : Host.Outcome State Fault Refusal :=
  match handshake p s with
  | some (w, t) => acceptWord p w t
  | none        => .next s.clockEdge

/-- `EncPop` (R272): the head of EOQ goes to the host; nothing when `enc_out_valid` = 0. -/
def encPop (s : State) : State :=
  match s.e.eoq with
  | []      => s
  | b :: bs =>
    if encOutValid s then
      (s.setE { s.e with eoq := bs }).setHost { s.host with out := s.host.out ++ [b] }
    else s

/-- A CSR read: the host records `csr_rdata`, which shows the registers as they stand (R271), and the core does not
change (R87). -/
def readCsr (addr : BitVec 10) (s : State) : State :=
  s.setHost { s.host with reads := s.host.reads ++ [(addr, csrRead addr s)] }

/-- The host drives `rst` to a level. -/
def driveRst (level : Bool) (s : State) : State := s.setHost { s.host with rst := level }

/-- The step that one host move makes. Every move other than an accepted word is followed by what the clock edge does
under `rst` (R340); a CSR read comes first (R354). -/
def hostStep (m : HostMove) (s : State) : Host.Outcome State Fault Refusal :=
  match m with
  | .encCmd       => portStep .enc s
  | .decCmd       => portStep .dec s
  | .encPop       => .next (encPop s).clockEdge
  | .csrRead addr => .next (readCsr addr s).clockEdge
  | .rst level    => .next (driveRst level s).clockEdge

/-- The state in which the host's next move is no longer to come. -/
def setMoves (ms : List HostMove) (s : State) : State := s.setHost { s.host with moves := ms }

/-- One step of the machine: the host's next move, or, when the host plans none, a clock edge with nothing valid on any
port (R342: nothing runs on its own). -/
def runNextMove (s : State) : Host.Outcome State Fault Refusal :=
  match s.host.moves with
  | []      => .next s.clockEdge
  | m :: ms => hostStep m (setMoves ms s)

/-- The host takes every byte waiting in EOQ (what as many `EncPop`s do, R272). -/
def drainAll (s : State) : State :=
  (s.setE { s.e with eoq := [] }).setHost { s.host with out := s.host.out ++ s.e.eoq }

/-- The move with which a port's word is presented. -/
def moveFor : Port → HostMove
  | .enc => .encCmd
  | .dec => .decCmd

/-- Make a word the next one its port transfers: `rst` released, the bytes waiting in EOQ taken if they would make the
word wait, the word at the head of its port, and its handshake the host's next move. -/
def presentWord (w : Word32) (s : State) : State :=
  let p := portFor w
  let r := driveRst false s
  let t := if cmdReady p r then r else drainAll r
  setMoves (moveFor p :: t.host.moves) (setPortWords p (w :: portWords p t) t)

end Sys2Proof.Machine
end

