-- ==== Sys2Proof/Machine/Step.lean ====
section
/-! DEFINITION. One step of the machine, and how a command word is put where the next step takes it. The core fetches
nothing (spec/10_state.md R47): a step is the host's next move on the ports (Machine/Ports.lean). -/

namespace Sys2Proof.Machine

/-- One step: the host's next move. -/
def step (s : State) : Host.Outcome State Fault Refusal := runNextMove s

/-- `s` with a command word placed so that the very next step accepts and runs it (log entry 3). -/
def State.withFetchWord (s : State) (_nbits w : Nat) : State := presentWord (BitVec.ofNat 32 w) s

end Sys2Proof.Machine
end

