-- ==== Sys2Proof/Machine/Assembler.lean ====
section
/-! DEFINITION. The assembler's notation (spec/30_encoding.md R124, R126): one line of text to the commands it stands for, with
the pseudo-instructions ENCODE and DECODE, refusing what the spec says the assembler refuses. Text is a list of
characters. -/

namespace Sys2Proof.Machine

/-- The commands of a checked source line (R124, R126). `none`: the assembler refuses the line. -/
def assembleCmd (c : AsmCmd) : Option (List Instr) :=
  if c.wf then
    match c.mnemonic, c.operands with
    | .encOpen, [n]      => some [.encOpen (BitVec.ofNat 16 n)]
    | .encData, [n]      => some [.encData (BitVec.ofNat 8 n)]
    | .encAbort, []      => some [.encAbort]
    | .decOpen, []       => some [.decOpen]
    | .decData, [n]      => some [.decData (BitVec.ofNat 8 n)]
    | .decEnd, []        => some [.decEnd]
    | .encodePseudo, ns  =>
      if ns.length ≤ 256 then
        some (.encOpen (BitVec.ofNat 16 ns.length) :: ns.map fun n => .encData (BitVec.ofNat 8 n))
      else some [.encOpen (BitVec.ofNat 16 ns.length)]
    | .decodePseudo, ns  => some (.decOpen :: ns.map (fun n => .decData (BitVec.ofNat 8 n)) ++ [.decEnd])
    | _, _               => none
  else none

/-- Blank characters within a line. -/
def isBlank (c : Char) : Bool := c == ' ' || c == '\t'

/-- Text without the blanks before it. -/
def trimLeft (cs : List Char) : List Char := cs.dropWhile isBlank

/-- Text without the blanks around it. -/
def trimText (cs : List Char) : List Char := (trimLeft (trimLeft cs).reverse).reverse

/-- Cut a text at every comma. -/
def splitCommas : List Char → List (List Char)
  | [] => [[]]
  | c :: cs =>
    match splitCommas cs with
    | []      => [[c]]
    | f :: fs => if c = ',' then [] :: f :: fs else (c :: f) :: fs

/-- The value of a digit, if it is one below the base. -/
def digitValue (base : Nat) (c : Char) : Option Nat :=
  let n := c.toNat
  let d :=
    if 48 ≤ n ∧ n ≤ 57 then n - 48
    else if 97 ≤ n ∧ n ≤ 102 then n - 87
    else if 65 ≤ n ∧ n ≤ 70 then n - 55
    else base
  if d < base then some d else none

/-- The value of a run of digits after those already read. -/
def digitsFrom (base acc : Nat) : List Char → Option Nat
  | [] => some acc
  | c :: cs =>
    match digitValue base c with
    | some d => digitsFrom base (acc * base + d) cs
    | none   => none

/-- A decimal or `0x` hexadecimal number (R124). -/
def readNumber : List Char → Option Nat
  | [] => none
  | ['0'] => some 0
  | '0' :: 'x' :: [] => none
  | '0' :: 'x' :: c :: cs => digitsFrom 16 0 (c :: cs)
  | c :: cs => digitsFrom 10 0 (c :: cs)

/-- Numbers separated by commas; no text gives no number (R126). -/
def readOperands (cs : List Char) : Option (List Nat) :=
  match trimText cs with
  | []     => some []
  | c :: t => (splitCommas (c :: t)).mapM fun f => readNumber (trimText f)

/-- The mnemonics as the spec writes them (R118, R126). -/
def readMnemonic (cs : List Char) : Option Mnemonic :=
  if cs = ['E', 'N', 'C', '_', 'O', 'P', 'E', 'N'] then some .encOpen
  else if cs = ['E', 'N', 'C', '_', 'D', 'A', 'T', 'A'] then some .encData
  else if cs = ['E', 'N', 'C', '_', 'A', 'B', 'O', 'R', 'T'] then some .encAbort
  else if cs = ['D', 'E', 'C', '_', 'O', 'P', 'E', 'N'] then some .decOpen
  else if cs = ['D', 'E', 'C', '_', 'D', 'A', 'T', 'A'] then some .decData
  else if cs = ['D', 'E', 'C', '_', 'E', 'N', 'D'] then some .decEnd
  else if cs = ['E', 'N', 'C', 'O', 'D', 'E'] then some .encodePseudo
  else if cs = ['D', 'E', 'C', 'O', 'D', 'E'] then some .decodePseudo
  else none

/-- One line of source (R124): a comment from `;` on is dropped, and a line with nothing else is no command. `none`: the
line is refused. -/
def assembleLine (line : List Char) : Option (List Instr) :=
  match trimText (line.takeWhile (· ≠ ';')) with
  | [] => some []
  | c :: t =>
    let word := (c :: t).takeWhile fun x => !isBlank x
    match readMnemonic word, readOperands ((c :: t).drop word.length) with
    | some m, some ns => assembleCmd { mnemonic := m, operands := ns }
    | _, _            => none

/-- The words of a line's commands. -/
def assembleWords (line : List Char) : Option (List Word32) :=
  (assembleLine line).map fun is => is.map encode

end Sys2Proof.Machine
end

