-- ==== Sys2Proof/Machine/Parametric.lean ====
section
/-! DEFINITION. The machine with its build as an argument (spec/00_scope.md R7, R11: VARIANT and ENC_OQ_DEPTH are arguments of the
whole machine, not state). `machine b` is the core built with `b`: its state, `Live`, holds the two engines and the
host's side and no parameter. The fixed names `exec`, `step` and `core` take a state and nothing else, so `State` pairs a
`Live` with the argument (log entry 1). -/

namespace Sys2Proof.Machine

/-- The state of a core of a given build: everything that can change (R30 to R45), and no build parameter (R7). -/
structure Live where
  /-- The encoder (R31 to R36). -/
  e    : Enc
  /-- The decoder (R37 to R45). -/
  d    : Dec
  /-- The host's side of the ports. -/
  host : HostSide
deriving DecidableEq, Repr

/-- What can change of a state. -/
def State.live (s : State) : Live := { e := s.e, d := s.d, host := s.host }

/-- The state of the core built with `b` that `r` describes. -/
def Live.on (b : Build) (r : Live) : State := { build := b, e := r.e, d := r.d, host := r.host }

/-- An outcome with the build parameters left out. -/
def liveOutcome (o : Host.Outcome State Fault Refusal) : Host.Outcome Live Fault Refusal :=
  match o with
  | .next t    => .next t.live
  | .fault f   => .fault f
  | .refused f => .refused f

/-- A command on the core built with `b` (R7). -/
def execOf (b : Build) (i : Instr) (r : Live) : Host.Outcome Live Fault Refusal := liveOutcome (exec i (r.on b))

/-- One step of the core built with `b` (R7). -/
def stepOf (b : Build) (r : Live) : Host.Outcome Live Fault Refusal := liveOutcome (step (r.on b))

/-- The machine, with its build as an argument (R7, R11). -/
def machine (b : Build) : Host.Core :=
  { State := Live, Fault := Fault, Refusal := Refusal, step := stepOf b, reset := (State.resetOf b []).live }

end Sys2Proof.Machine
end

