-- ==== Sys2Proof/Machine/Reference.lean ====
section
/-! DEFINITION. The two reference functions on whole byte lists (spec/00_scope.md R19): Encode(p) (spec/40_encoder.md R160)
and Decode(f) (spec/41_decoder.md R229), and the reading of a frame as body elements (R111, R115) in which the
conditions of R232 are put. -/

namespace Sys2Proof.Machine

/-- The escaped body of a payload (R111, R160). -/
def escapedBody (v : Variant) (p : List Byte) : List Byte := p.flatMap (bodyElement v)

/-- The frame of a payload, whatever its length (R110, R160). -/
def frameOf (v : Variant) (p : List Byte) : List Byte :=
  [startByte v] ++ escapedBody v p ++ [checksum p, termByte v]

/-- Encode(p): the frame, or nothing for InvalidInput (R160). -/
def encodeRef (v : Variant) (p : List Byte) : Option (List Byte) :=
  if maxPacket < p.length then none else some (frameOf v p)

/-- What Decode answers: Ok(payload), or Err(kind, pos) with (rchk, sum) for ChecksumMismatch (R229). -/
inductive DecodeResult where
  | ok (payload : List Byte)
  | err (kind : DecErr) (pos : Nat) (chk : Option (Byte × Byte))
deriving DecidableEq, Repr

/-- The locals of Decode's loop (R229). -/
structure ScanLocals where
  hold : Byte
  hv   : Bool
  pay  : List Byte
  sum  : Byte
  ovf  : Bool
deriving DecidableEq, Repr

/-- The locals after START has been read (R229). -/
def ScanLocals.start (v : Variant) : ScanLocals :=
  { hold := startByte v, hv := false, pay := [], sum := 0x00#8, ovf := false }

/-- The end of the loop's body: an element value x arrives (R229). -/
def ScanLocals.take (l : ScanLocals) (x : Byte) : ScanLocals :=
  if l.hv then
    if l.pay.length = maxPacket then { l with hold := x, ovf := true, sum := l.sum + l.hold }
    else { l with hold := x, pay := l.pay ++ [l.hold], sum := l.sum + l.hold }
  else { l with hold := x, hv := true }

/-- TERM at index i (R229): the answer of the scan. -/
def ScanLocals.finish (l : ScanLocals) (i : Nat) : DecodeResult :=
  if l.ovf then .err .packetTooLarge i none
  else if l.sum = l.hold then .ok l.pay
  else .err .checksumMismatch i (some (l.hold, l.sum))

/-- Decode's loop over the bytes from index i on (R229): the answer, and the index of the byte that decided it, if one did. -/
def scanFrom (v : Variant) : List Byte → Nat → ScanLocals → DecodeResult × Option Nat
  | [], i, _ => (.err .unterminatedPacket i none, none)
  | [b], i, l =>
    if b = termByte v then (l.finish i, some i)
    else if b = startByte v then (.err .illegalStartByte i none, some i)
    else (.err .unterminatedPacket (i + 1) none, none)
  | b :: y :: rest, i, l =>
    if b = termByte v then (l.finish i, some i)
    else if b = startByte v then (.err .illegalStartByte i none, some i)
    else if b = escapeByte v then
      if y = startByte v ∨ y = escapeByte v then (.err .illegalEscapedByte (i + 1) none, some (i + 1))
      else scanFrom v rest (i + 2) (l.take (masked v y))
    else scanFrom v (y :: rest) (i + 1) (l.take b)

/-- Decode(f) with the index of the deciding byte (R229). -/
def decodeScan (v : Variant) (f : List Byte) : DecodeResult × Option Nat :=
  match f with
  | [] => (.err .missingStartByte 0 none, none)
  | b :: rest =>
    if b = startByte v then scanFrom v rest 1 (ScanLocals.start v)
    else (.err .missingStartByte 0 none, some 0)

/-- Decode(f) (R229). -/
def decodeRef (v : Variant) (f : List Byte) : DecodeResult := (decodeScan v f).1

/-- The index of the byte that ended the scan of f: its TERM or its offending byte; nothing when the buffer ran out (R230). -/
def decodeEnd (v : Variant) (f : List Byte) : Option Nat := (decodeScan v f).2

/-- One unit of a body as the decoder reads it (R115). -/
inductive Element where
  | literal (b : Byte)
  | pair (y : Byte)
deriving DecidableEq, Repr

/-- Read a body, the bytes after START, as elements up to the byte that ends it, and give what is left from that byte
on (R115). -/
def readElements (v : Variant) : List Byte → List Element × List Byte
  | [] => ([], [])
  | [b] => if b = termByte v ∨ b = startByte v ∨ b = escapeByte v then ([], [b]) else ([.literal b], [])
  | b :: y :: rest =>
    if b = termByte v ∨ b = startByte v then ([], b :: y :: rest)
    else if b = escapeByte v then
      if y = startByte v ∨ y = escapeByte v then ([], b :: y :: rest)
      else
        let r := readElements v rest
        (.pair y :: r.1, r.2)
    else
      let r := readElements v (y :: rest)
      (.literal b :: r.1, r.2)

end Sys2Proof.Machine
end

