-- ==== Sys2Proof/Safety.lean ====
section
/-! DEFINITION. What claims about the machine are stated with: the invariants of spec/10_state.md R58 and R39, when a
transaction has ended (spec/42_host_interface.md R277), the words a run accepts, and two states that differ only in PBUF
bytes no rule lets anyone see (spec/20_memory.md R84). -/

namespace Sys2Proof.Machine

/-! ### Invariants -/

/-- The encoder's invariants (R58 items 1 and 2). -/
structure Enc.Inv (depth : Nat) (e : Enc) : Prop where
  body_rem    : e.state = .body → 1 ≤ e.rem.toNat ∧ e.rem.toNat ≤ maxPacket
  idle_rem    : e.state = .idle → e.rem = 0
  eoq_bounded : e.eoq.length ≤ depth

/-- The decoder's invariants: R58 items 3 to 7, the value R39 gives D.HOLD before the first element, R43's D.EPOS written
only on entry to ERROR, and PBUF in canonical form. -/
structure Dec.Inv (v : Variant) (d : Dec) : Prop where
  err_iff     : d.err ≠ .noError ↔ d.state = .error
  len_bounded : d.len.toNat ≤ maxPacket
  ovf_full    : d.ovf = true → d.len.toNat = maxPacket
  no_element  : d.hv = false → d.len = 0 ∧ d.ovf = false ∧ d.sum = 0x00#8
  start_clean : d.state = .expectStart → d.hv = false ∧ d.len = 0 ∧ d.cnt = 0 ∧ d.hold = 0x00#8
  done_valid  : d.state = .done → d.hv = true ∧ d.ovf = false ∧ d.rchk = d.sum
  hold_start  : d.hv = false → d.state = .scanBody ∨ d.state = .escapePending → d.hold = startByte v
  epos_error  : d.state ≠ .error → d.epos = 0
  pbuf_wf     : d.pbuf.wf = true

/-- The invariant of the machine. -/
structure State.Inv (s : State) : Prop where
  enc : s.e.Inv s.build.oqDepth.val
  dec : s.d.Inv s.build.variant

/-- The checksum invariant of the decoder (R41): while no byte has been left out, D.SUM is the checksum of the stored
bytes. -/
def Dec.SumInv (d : Dec) : Prop := d.len.toNat ≤ maxPacket ∧ (d.ovf = false → d.sum = checksum d.payload)

/-! ### The end of a transaction (R277) -/

/-- An encode transaction has ended: E is back in IDLE. -/
def State.encodeEnded (s : State) : Prop := s.e.state = .idle

/-- It has drained once, in addition, EOQ is empty. -/
def State.encodeDrained (s : State) : Prop := s.encodeEnded ∧ s.e.eoq = []

/-- A decode transaction has ended: D is in DONE or ERROR. -/
def State.decodeEnded (s : State) : Prop := s.d.state = .done ∨ s.d.state = .error

/-! ### What a run accepts -/

/-- The word the next step accepts on a port, if it accepts one. -/
def acceptedNext (p : Port) (s : State) : Option Word32 :=
  match s.host.moves with
  | []     => none
  | m :: _ => if m = moveFor p then (handshake p s).map Prod.fst else none

/-- The words accepted on a port in the first k steps from a state, in order. -/
def acceptedIn (p : Port) : Nat → State → List Word32
  | 0, _ => []
  | k + 1, s =>
    match step s with
    | .next t    => (acceptedNext p s).toList ++ acceptedIn p k t
    | .fault _   => []
    | .refused _ => []

/-- In the first k steps from a state `rst` is 0 throughout. -/
def noReset (k : Nat) (s : State) : Prop := s.host.rst = false ∧ HostMove.rst true ∉ s.host.moves.take k

/-- The effect of a word on E alone: a function of the variant, E and the word. -/
def encWord (v : Variant) (e : Enc) (w : Word32) : Enc :=
  match decodeCmd .enc w with
  | .cmd (.encOpen len) => encOpenStep v len e
  | .cmd (.encData b)   => encDataStep v b e
  | .cmd .encAbort      => encAbortStep e
  | .cmd .decOpen       => e
  | .cmd (.decData _)   => e
  | .cmd .decEnd        => e
  | .illegal _          => e.illegalCommand

/-- The effect of a word on D alone: a function of the variant, D and the word. -/
def decWord (v : Variant) (d : Dec) (w : Word32) : Dec :=
  match decodeCmd .dec w with
  | .cmd (.encOpen _) => d
  | .cmd (.encData _) => d
  | .cmd .encAbort    => d
  | .cmd .decOpen     => d.restart
  | .cmd (.decData b) => decDataStep v b d
  | .cmd .decEnd      => decEndStep d
  | .illegal _        => d.illegalCommand

/-- The encoder with the bytes already delivered put back before those still queued: what it has emitted, in order (R94). -/
def State.encWithDelivered (s : State) : Enc := { s.e with eoq := s.host.out ++ s.e.eoq }

/-- Whether a frame byte completes an element in the decoder's state, a literal or an escape pair (R115): the forms of
DEC_DATA that push the hold register, and so the only ones that can store into PBUF (R205, R209, R211). -/
def completesElement (v : Variant) (b : Byte) (d : Dec) : Bool :=
  match d.state with
  | .expectStart   => false
  | .scanBody      => !reserved v b
  | .escapePending => b != startByte v && b != escapeByte v
  | .done          => false
  | .error         => false

/-! ### PBUF bytes that are never seen (R84, U3) -/

/-- Two states that agree on everything except PBUF bytes at indices from D.LEN on. -/
def State.sameButUnseen (s t : State) : Prop :=
  t = s.setD { s.d with pbuf := t.d.pbuf } ∧ ∀ i, i < s.d.len.toNat → s.d.pbuf.read i = t.d.pbuf.read i

end Sys2Proof.Machine
end

