-- ==== Sys2Proof/Certificates/Slice0/Obligations.lean ====
section
/-! DEFINITION. The statements about the machine, for the provers. Each formalises rules of spec/ named in its docstring and in
OBLIGATIONS.json. `s.setE e` and `s.setD d` are `s` with only its encoder or only its decoder replaced, so an
equation `exec i s = .next (s.setE e)` also says that everything else is as before. -/

open Sys2Proof Sys2Proof.Machine

/-! ### Constants and command words -/

/-- R4, R5, R8, R9: the constants of each variant, the reserved set without MASK, and the masked forms, none reserved. -/
def Obligations.ProtocolConstantsAndMaskedForms : Prop :=
  (startByte .A = 0x56 ∧ termByte .A = 0x65 ∧ escapeByte .A = 0x25 ∧ maskByte .A = 0x20) ∧
  (startByte .B = 0x5B ∧ termByte .B = 0x5D ∧ escapeByte .B = 0x5E ∧ maskByte .B = 0x20) ∧
  (masked .A (startByte .A) = 0x76 ∧ masked .A (termByte .A) = 0x45 ∧ masked .A (escapeByte .A) = 0x05) ∧
  (masked .B (startByte .B) = 0x7B ∧ masked .B (termByte .B) = 0x7D ∧ masked .B (escapeByte .B) = 0x7E) ∧
  ∀ v : Variant,
    startByte v ≠ termByte v ∧ startByte v ≠ escapeByte v ∧ termByte v ≠ escapeByte v ∧
    startByte v ≠ 0x00 ∧ (termByte v).toNat % 2 = 1 ∧ reserved v (maskByte v) = false ∧
    (∀ b, reserved v b = true ↔ b = startByte v ∨ b = termByte v ∨ b = escapeByte v) ∧
    (∀ r, reserved v r = true → reserved v (masked v r) = false)

/-- R127: the words the spec gives as examples, legal and illegal. -/
def Obligations.ExampleWordsDecodeAsGiven : Prop :=
  decodeCmd .enc 0x01000004 = .cmd (.encOpen 4) ∧ decodeCmd .enc 0x01000105 = .cmd (.encOpen 261) ∧
  decodeCmd .enc 0x02000025 = .cmd (.encData 0x25) ∧ decodeCmd .enc 0x03000000 = .cmd .encAbort ∧
  decodeCmd .dec 0x11000000 = .cmd .decOpen ∧ decodeCmd .dec 0x1200005B = .cmd (.decData 0x5B) ∧
  decodeCmd .dec 0x13000000 = .cmd .decEnd ∧
  (∀ p, legalOn p 0x00000000 = false) ∧ (∀ p, legalOn p 0x02000125 = false) ∧
  (∀ p, legalOn p 0x01010004 = false) ∧ legalOn .enc 0x12000041 = false

/-- R116 to R118, R120: a port decodes a word to a command exactly when the command is well formed on that port and the
word is its encoding, whatever its operand: no operand bit is lost and no word has two meanings. -/
def Obligations.PortDecodesExactlyItsEncodedCommands : Prop :=
  ∀ (p : Port) (w : Word32) (i : Instr), decodeCmd p w = .cmd i ↔ i.wf p = true ∧ encode i = w

/-- R118: the opcode map, and a word selects a row exactly when its port decodes it to a command of that row. -/
def Obligations.WordSelectsRowExactlyWhenDecodedToIt : Prop :=
  opcodeTable =
    [⟨.enc, 0x01000000, 0xFFFF0000⟩, ⟨.enc, 0x02000000, 0xFFFFFF00⟩, ⟨.enc, 0x03000000, 0xFFFFFFFF⟩,
     ⟨.dec, 0x11000000, 0xFFFFFFFF⟩, ⟨.dec, 0x12000000, 0xFFFFFF00⟩, ⟨.dec, 0x13000000, 0xFFFFFFFF⟩] ∧
  ∀ r ∈ opcodeTable, ∀ (p : Port) (w : Word32),
    (p = r.port ∧ w &&& r.mask = r.value) ↔ ∃ i, decodeCmd p w = .cmd i ∧ i.row = r

/-- R119, R121: the illegal words of a port are exactly those the rule lists, and no word is legal on both ports. -/
def Obligations.IllegalWordsAreExactlyThoseListed : Prop :=
  (∀ (p : Port) (w : Word32), legalOn p w = false ↔
    rsvOf w ≠ 0 ∨
    opcOf w ∉ [0x01#8, 0x02#8, 0x03#8, 0x11#8, 0x12#8, 0x13#8] ∨
    (opcOf w ∈ [0x02#8, 0x12#8] ∧ immHighOf w ≠ 0) ∨
    (opcOf w ∈ [0x03#8, 0x11#8, 0x13#8] ∧ immOf w ≠ 0) ∨
    (p = .enc ∧ opcOf w ∈ [0x11#8, 0x12#8, 0x13#8]) ∨
    (p = .dec ∧ opcOf w ∈ [0x01#8, 0x02#8, 0x03#8])) ∧
  (∀ w, legalOn .enc w = true → legalOn .dec w = false) ∧
  (∀ (p : Port) (w : Word32) (s : State), legalOn p w = false → acceptWord p w s = .next (s.illegalCommand p))

/-! ### The encoder's commands -/

/-- R151 to R154: ENC_OPEN, its word, and its effect in each of its four cases. -/
def Obligations.EncOpenOpensFrameOrRecordsWhyNot : Prop :=
  ∀ (len : BitVec 16) (s : State),
    encode (.encOpen len) = 0x01000000 ||| len.setWidth 32 ∧
    (s.e.state = .body → exec (.encOpen len) s = .next (s.setE { s.e with cseq := true })) ∧
    (s.e.state = .idle → 256 < len.toNat → exec (.encOpen len) s = .next (s.setE { s.e with err := true })) ∧
    (s.e.state = .idle → len.toNat = 0 →
      exec (.encOpen len) s = .next (s.setE { s.e with
        err := false, sum := 0x00,
        eoq := s.e.eoq ++ [startByte s.build.variant, 0x00, termByte s.build.variant] })) ∧
    (s.e.state = .idle → 1 ≤ len.toNat → len.toNat ≤ 256 →
      exec (.encOpen len) s = .next (s.setE { s.e with
        err := false, sum := 0x00, rem := len.setWidth 9, state := .body,
        eoq := s.e.eoq ++ [startByte s.build.variant] }))

/-- ENC_DATA, its word, and its effect in IDLE, and in BODY for a reserved and an unreserved byte, in the middle of a frame
and at its end (R155 to R159). Derived: the clause for E.REM ≠ 1 covers BODY with E.REM = 0, which no run reaches
(R58 item 1); that E.REM counts down to 511 there is the model's inference, log entry 12 (DEDUCED), and no rule's. -/
def Obligations.EncDataEmitsElementAndClosesFrame : Prop :=
  ∀ (b : Byte) (s : State),
    encode (.encData b) = 0x02000000 ||| b.setWidth 32 ∧
    (s.e.state = .idle → exec (.encData b) s = .next (s.setE { s.e with cseq := true })) ∧
    (∀ element : List Byte, s.e.state = .body →
      element = (if b = startByte s.build.variant ∨ b = termByte s.build.variant ∨ b = escapeByte s.build.variant
        then [escapeByte s.build.variant, b ^^^ maskByte s.build.variant] else [b]) →
      (s.e.rem ≠ 1 →
        exec (.encData b) s = .next (s.setE { s.e with
          sum := s.e.sum + b, rem := s.e.rem - 1, eoq := s.e.eoq ++ element })) ∧
      (s.e.rem = 1 →
        exec (.encData b) s = .next (s.setE { s.e with
          state := .idle, sum := s.e.sum + b, rem := 0,
          eoq := s.e.eoq ++ element ++ [s.e.sum + b, termByte s.build.variant] })))

/-- R161: ENC_ABORT, its word; it closes an open frame without a byte, and does nothing in IDLE. -/
def Obligations.EncAbortClosesFrameWithoutBytes : Prop :=
  ∀ s : State,
    encode .encAbort = 0x03000000 ∧
    (s.e.state = .body → exec .encAbort s = .next (s.setE { s.e with state := .idle, rem := 0 })) ∧
    (s.e.state = .idle → exec .encAbort s = .next s)

/-- R172: how many bytes an accepted word emits, case by case; they follow what EOQ held. -/
def Obligations.EmittedByteCountsByCase : Prop :=
  ∀ (w : Word32) (s : State), ∃ (t : State) (bs : List Byte),
    acceptWord .enc w s = .next t ∧ t.e.eoq = s.e.eoq ++ bs ∧ bs.length ≤ 4 ∧
    (legalOn .enc w = false → bs.length = 0) ∧
    (∀ len, w = encode (.encOpen len) →
      (s.e.state = .body ∨ 256 < len.toNat → bs.length = 0) ∧
      (s.e.state = .idle → len.toNat = 0 → bs.length = 3) ∧
      (s.e.state = .idle → 1 ≤ len.toNat → len.toNat ≤ 256 → bs.length = 1)) ∧
    (∀ b, w = encode (.encData b) →
      (s.e.state = .idle → bs.length = 0) ∧
      (s.e.state = .body → s.e.rem ≠ 1 → bs.length = if reserved s.build.variant b then 2 else 1) ∧
      (s.e.state = .body → s.e.rem = 1 → bs.length = if reserved s.build.variant b then 4 else 3)) ∧
    (w = encode .encAbort → bs.length = 0)

/-- Frame of ENC_OPEN, ENC_DATA and ENC_ABORT (R30, R35, R94, R151, R155, R161): D with every PBUF byte, the build and the
host's side are unchanged, bytes already in EOQ stay in front, E.CILL is unchanged, E.CSEQ only ever becomes 1 and only on a
sequence error, ENC_DATA keeps E.ERR, and ENC_ABORT keeps E.SUM, E.ERR, E.CSEQ and EOQ. -/
def Obligations.EncoderCommandFrame : Prop :=
  ∀ (i : Instr) (s t : State), i.port = .enc → exec i s = .next t →
    t.d = s.d ∧ (∀ a, t.d.pbuf.read a = s.d.pbuf.read a) ∧ t.build = s.build ∧ t.host = s.host ∧
    s.e.eoq <+: t.e.eoq ∧ t.e.cill = s.e.cill ∧
    (t.e.cseq = true ↔
      s.e.cseq = true ∨ (s.e.state = .body ∧ ∃ len, i = .encOpen len) ∨ (s.e.state = .idle ∧ ∃ b, i = .encData b)) ∧
    (∀ b, i = .encData b → t.e.err = s.e.err) ∧
    (i = .encAbort → t.e.sum = s.e.sum ∧ t.e.err = s.e.err ∧ t.e.cseq = s.e.cseq ∧ t.e.eoq = s.e.eoq)

/-- R34, R302: E.ERR, which is ENC_STATUS bit 1, is 1 after any command exactly when the latest ENC_OPEN that was not a
sequence error was too long; the rejected length is kept nowhere. -/
def Obligations.InvalidInputFlagFollowsLatestOpen : Prop :=
  ∀ (i : Instr) (s t : State), exec i s = .next t →
    (∀ len, i = .encOpen len → s.e.state = .idle →
      (t.e.err = true ↔ 256 < len.toNat) ∧ (256 < len.toNat → t = s.setE { s.e with err := true })) ∧
    (csrRead 2 t).getLsbD 1 = t.e.err ∧
    ((∀ len, i = .encOpen len → s.e.state = .body) → t.e.err = s.e.err)

/-! ### The decoder's commands -/

/-- R201: DEC_OPEN starts afresh from every state, hides any payload at once, and doing it twice is doing it once. -/
def Obligations.DecOpenStartsCleanTransaction : Prop :=
  encode .decOpen = 0x11000000 ∧ ∀ s : State, ∃ t : State,
    exec .decOpen s = .next t ∧ exec .decOpen t = .next t ∧
    t = s.setD
      { state := .expectStart, err := .noError, hold := 0x00, hv := false, len := 0, ovf := false, sum := 0x00,
        rchk := 0x00, cnt := 0, epos := 0, cill := s.d.cill, pbuf := s.d.pbuf } ∧
    csrRead 4 t = (if s.d.cill then 0x00000080 else 0x00000000) ∧ csrRead 5 t = 0 ∧ csrRead 6 t = 0 ∧
    ∀ i, t.d.view i = 0x00

/-- R203, R204: in EXPECT_START, where D.HV and D.CNT are 0, only START goes on. -/
def Obligations.DecDataInExpectStart : Prop :=
  ∀ (b : Byte) (s : State), s.d.state = .expectStart →
    (s.Inv → s.d.hv = false ∧ s.d.cnt = 0) ∧
    (b = startByte s.build.variant →
      exec (.decData b) s = .next (s.setD { s.d with
        cnt := sat16 (s.d.cnt.toNat + 1), hold := startByte s.build.variant, state := .scanBody })) ∧
    (b ≠ startByte s.build.variant →
      exec (.decData b) s = .next (s.setD { s.d with
        cnt := sat16 (s.d.cnt.toNat + 1), state := .error, err := .missingStartByte, epos := s.d.cnt }))

/-- R205, R206, R207: in SCAN_BODY, every byte but TERM. -/
def Obligations.DecDataInScanBody : Prop :=
  ∀ (b : Byte) (s : State), s.d.state = .scanBody →
    (b = startByte s.build.variant →
      exec (.decData b) s = .next (s.setD { s.d with
        cnt := sat16 (s.d.cnt.toNat + 1), state := .error, err := .illegalStartByte, epos := s.d.cnt })) ∧
    (b = escapeByte s.build.variant →
      exec (.decData b) s = .next (s.setD { s.d with
        cnt := sat16 (s.d.cnt.toNat + 1), state := .escapePending })) ∧
    (b ≠ startByte s.build.variant → b ≠ escapeByte s.build.variant → b ≠ termByte s.build.variant →
      exec (.decData b) s = .next (s.setD (s.d.countByte.accept b)))

/-- R208, R209: in ESCAPE_PENDING, START and ESCAPE are errors and every other byte, TERM included, is one element. -/
def Obligations.DecDataInEscapePending : Prop :=
  ∀ (b : Byte) (s : State), s.d.state = .escapePending →
    (b = startByte s.build.variant ∨ b = escapeByte s.build.variant →
      exec (.decData b) s = .next (s.setD { s.d with
        cnt := sat16 (s.d.cnt.toNat + 1), state := .error, err := .illegalEscapedByte, epos := s.d.cnt })) ∧
    (b ≠ startByte s.build.variant → b ≠ escapeByte s.build.variant →
      exec (.decData b) s = .next (s.setD
        { s.d.countByte.accept (b ^^^ maskByte s.build.variant) with state := .scanBody }))

/-- R223, R224: in ESCAPE_PENDING, TERM is data with value TERM XOR MASK (0x45 in A, 0x7D in B) and does not end the frame, and
0x00 is accepted as 0x20; so two frames can decode to one payload. -/
def Obligations.EscapedTermAndUnmaskedBytesAreData : Prop :=
  (∀ (s : State) (y : Byte), s.d.state = .escapePending →
    y ≠ startByte s.build.variant → y ≠ escapeByte s.build.variant →
    ∃ t, exec (.decData y) s = .next t ∧ t.d.state = .scanBody ∧ t.d.hv = true ∧ t.d.err = s.d.err ∧
      t.d.hold = y ^^^ maskByte s.build.variant ∧
      (y = termByte s.build.variant → t.d.hold = match s.build.variant with | .A => 0x45 | .B => 0x7D) ∧
      (y = 0x00 → t.d.hold = 0x20)) ∧
  (∀ v : Variant, ∃ f g p : List Byte, f ≠ g ∧ decodeRef v f = .ok p ∧ decodeRef v g = .ok p)

/-- R211: Accept stores and sums the element it displaces, sums without storing when 256 are stored, and does neither when no
element is held. -/
def Obligations.AcceptPushesTheDisplacedElement : Prop :=
  ∀ (d : Dec) (x : Byte), d.pbuf.wf = true →
    (d.hv = false → d.accept x = { d with hold := x, hv := true }) ∧
    (d.hv = true → 256 ≤ d.len.toNat →
      d.accept x = { d with hold := x, ovf := true, sum := d.sum + d.hold }) ∧
    (d.hv = true → d.len.toNat < 256 →
      ∃ m : Memory, d.accept x = { d with hold := x, len := d.len + 1, sum := d.sum + d.hold, pbuf := m } ∧
        (d.accept x).len.toNat = d.len.toNat + 1 ∧ m.wf = true ∧ m.read d.len.toNat = d.hold ∧
        ∀ a, a ≠ d.len.toNat → m.read a = d.pbuf.read a)

/-- R210, R221: TERM in SCAN_BODY captures the held element as the received checksum; too long a body is reported before
the comparison, which is equality of two bytes. -/
def Obligations.TermChecksLengthThenChecksum : Prop :=
  ∀ s : State, s.d.state = .scanBody →
    (s.d.ovf = true →
      exec (.decData (termByte s.build.variant)) s = .next (s.setD { s.d with
        cnt := sat16 (s.d.cnt.toNat + 1), rchk := s.d.hold, state := .error, err := .packetTooLarge,
        epos := s.d.cnt })) ∧
    (s.d.ovf = false → s.d.sum.toNat = s.d.hold.toNat →
      exec (.decData (termByte s.build.variant)) s = .next (s.setD { s.d with
        cnt := sat16 (s.d.cnt.toNat + 1), rchk := s.d.hold, state := .done })) ∧
    (s.d.ovf = false → s.d.sum.toNat ≠ s.d.hold.toNat →
      exec (.decData (termByte s.build.variant)) s = .next (s.setD { s.d with
        cnt := sat16 (s.d.cnt.toNat + 1), rchk := s.d.hold, state := .error, err := .checksumMismatch,
        epos := s.d.cnt }))

/-- R213 to R216: DEC_END, its word, and its effect in every state. -/
def Obligations.DecEndReportsWhatIsMissing : Prop :=
  ∀ s : State,
    encode .decEnd = 0x13000000 ∧ (s.Inv → s.d.state = .expectStart → s.d.cnt = 0) ∧
    (s.d.state = .expectStart →
      exec .decEnd s = .next (s.setD { s.d with state := .error, err := .missingStartByte, epos := s.d.cnt })) ∧
    (s.d.state = .scanBody ∨ s.d.state = .escapePending →
      exec .decEnd s = .next (s.setD { s.d with state := .error, err := .unterminatedPacket, epos := s.d.cnt })) ∧
    (s.d.state = .done ∨ s.d.state = .error → exec .decEnd s = .next s)

/-- R212: in DONE and ERROR a frame byte changes nothing, D.CNT included. -/
def Obligations.BytesAfterTheEndAreIgnored : Prop :=
  ∀ (b : Byte) (s : State), s.d.state = .done ∨ s.d.state = .error → exec (.decData b) s = .next s

/-- Frame of DEC_OPEN, DEC_DATA and DEC_END (R30, R44, R211, R218): E, the build, the host's side and D.CILL are unchanged.
DEC_OPEN and DEC_END store no byte. DEC_DATA stores at most one, the held element, at the index `pushIndex` gives, and only when
the byte completes an element; every other PBUF byte reads as before. D.HOLD and D.SUM change only then or at START, D.RCHK
only at a TERM that ends the body, D.ERR and D.EPOS only on entry to ERROR. -/
def Obligations.DecoderCommandFrame : Prop :=
  ∀ (i : Instr) (s t : State), i.port = .dec → exec i s = .next t →
    t.e = s.e ∧ t.build = s.build ∧ t.host = s.host ∧ t.d.cill = s.d.cill ∧
    (i = .decOpen ∨ i = .decEnd → ∀ a, t.d.pbuf.read a = s.d.pbuf.read a) ∧
    (i = .decEnd → t.d.hold = s.d.hold ∧ t.d.hv = s.d.hv ∧ t.d.len = s.d.len ∧ t.d.ovf = s.d.ovf ∧
      t.d.sum = s.d.sum ∧ t.d.rchk = s.d.rchk ∧ t.d.cnt = s.d.cnt) ∧
    (∀ b, i = .decData b →
      (completesElement s.build.variant b s.d = false →
        (∀ a, t.d.pbuf.read a = s.d.pbuf.read a) ∧ t.d.hv = s.d.hv ∧ t.d.len = s.d.len ∧ t.d.ovf = s.d.ovf ∧
        t.d.sum = s.d.sum ∧ (s.d.state ≠ .expectStart → t.d.hold = s.d.hold)) ∧
      (completesElement s.build.variant b s.d = true →
        (∀ a, s.d.pushIndex ≠ some a → t.d.pbuf.read a = s.d.pbuf.read a) ∧
        (s.d.pbuf.wf = true → ∀ a, s.d.pushIndex = some a → t.d.pbuf.read a = s.d.hold)) ∧
      (¬ (s.d.state = .scanBody ∧ b = termByte s.build.variant) → t.d.rchk = s.d.rchk) ∧
      (t.d.state ≠ .error ∨ s.d.state = .error → t.d.err = s.d.err ∧ t.d.epos = s.d.epos))

/-- R301: which command raises each decode error, in which state, and what it records. -/
def Obligations.EachDecodeErrorHasExactlyItsCause : Prop :=
  ∀ (i : Instr) (s t : State), s.Inv → s.d.err = .noError → exec i s = .next t →
    (t.d.err = .missingStartByte ↔
      s.d.state = .expectStart ∧ (i = .decEnd ∨ ∃ b, b ≠ startByte s.build.variant ∧ i = .decData b)) ∧
    (t.d.err = .illegalStartByte ↔ s.d.state = .scanBody ∧ i = .decData (startByte s.build.variant)) ∧
    (t.d.err = .illegalEscapedByte ↔
      s.d.state = .escapePending ∧
        (i = .decData (startByte s.build.variant) ∨ i = .decData (escapeByte s.build.variant))) ∧
    (t.d.err = .unterminatedPacket ↔ (s.d.state = .scanBody ∨ s.d.state = .escapePending) ∧ i = .decEnd) ∧
    (t.d.err = .packetTooLarge ↔
      s.d.state = .scanBody ∧ i = .decData (termByte s.build.variant) ∧ s.d.ovf = true) ∧
    (t.d.err = .checksumMismatch ↔
      s.d.state = .scanBody ∧ i = .decData (termByte s.build.variant) ∧ s.d.ovf = false ∧ s.d.sum ≠ s.d.hold) ∧
    (t.d.err ≠ .noError → t.d.epos = s.d.cnt) ∧
    (t.d.err = .missingStartByte → t.d.epos = 0) ∧
    (t.d.err = .packetTooLarge → t.d.len.toNat = 256 ∧ t.d.ovf = true) ∧
    (t.d.err = .checksumMismatch → t.d.rchk = s.d.hold ∧ t.d.sum = s.d.sum) ∧
    [DecErr.missingStartByte, .illegalStartByte, .illegalEscapedByte, .unterminatedPacket, .packetTooLarge,
      .checksumMismatch].map DecErr.code = [1, 2, 3, 4, 5, 6]

/-- R218, R307: the entry into ERROR records the kind and the position, keeps D.LEN, D.OVF, D.SUM, D.HOLD and PBUF, counts
the offending byte, and hides the payload. -/
def Obligations.EntryIntoErrorIsPrecise : Prop :=
  ∀ (i : Instr) (s t : State), exec i s = .next t → s.d.state ≠ .error → t.d.state = .error →
    t.d.err ≠ .noError ∧ t.d.epos = s.d.cnt ∧
    t.d = { s.d with state := .error, err := t.d.err, epos := t.d.epos, cnt := t.d.cnt, rchk := t.d.rchk } ∧
    t.d.cnt = (if i = .decEnd then s.d.cnt else sat16 (s.d.cnt.toNat + 1)) ∧
    t.d.rchk = (if i = .decData (termByte s.build.variant) ∧ s.d.state = .scanBody then s.d.hold else s.d.rchk) ∧
    t.e = s.e ∧ t.build = s.build ∧ t.host = s.host ∧ ∀ a, t.d.view a = 0x00

/-- R222: the frame [START, TERM] ends in ChecksumMismatch at position 1 with START received and 0x00 computed, from any
decoder state. -/
def Obligations.EmptyBodyIsAChecksumMismatch : Prop :=
  ∀ s : State, ∃ t : State,
    acceptWords .dec [encode .decOpen, encode (.decData (startByte s.build.variant)),
      encode (.decData (termByte s.build.variant))] s = .next t ∧
    t.d.state = .error ∧ t.d.err = .checksumMismatch ∧ t.d.epos = 1 ∧
    t.d.rchk = startByte s.build.variant ∧ t.d.sum = 0x00

/-! ### Steps on the ports -/

/-- R91, R273: a step at which a port transfers the encoding of a command runs exactly that command, with the word and the
move used up. -/
def Obligations.StepRunsTheDecodedCommand : Prop :=
  ∀ (p : Port) (i : Instr) (s : State) (ws : List Word32) (ms : List HostMove),
    i.wf p = true → s.host.moves = moveFor p :: ms → portWords p s = encode i :: ws → cmdReady p s = true →
    step s = exec i (setPortWords p ws (setMoves ms s))

/-- Log entry 3: a word placed by `withFetchWord` is run by the very next step. Nothing else changes when its port is ready;
otherwise only `rst` is released and bytes waiting in EOQ are delivered first. -/
def Obligations.PlacedWordRunsNext : Prop :=
  ∀ (i : Instr) (s : State),
    (cmdReady i.port s = true → step (s.withFetchWord 32 (encode i).toNat) = exec i s) ∧
    ∃ r : State, step (s.withFetchWord 32 (encode i).toNat) = exec i r ∧
      r.build = s.build ∧ r.d = s.d ∧ r.encWithDelivered = s.encWithDelivered ∧
      r.host = { s.host with rst := false, out := r.host.out }

/-- R125: an illegal word accepted on a port sets that port's sticky flag and does nothing else. -/
def Obligations.IllegalWordOnlySetsItsStickyFlag : Prop :=
  ∀ (s : State) (w : Word32) (ws : List Word32) (ms : List HostMove),
    (s.host.moves = .encCmd :: ms → s.host.encWords = w :: ws → encCmdReady s = true → legalOn .enc w = false →
      step s = .next { s with
        e := { s.e with cill := true }, host := { s.host with moves := ms, encWords := ws } }) ∧
    (s.host.moves = .decCmd :: ms → s.host.decWords = w :: ws → decCmdReady s = true → legalOn .dec w = false →
      step s = .next { s with
        d := { s.d with cill := true }, host := { s.host with moves := ms, decWords := ws } })

/-- R150, R346: a word is accepted on `enc_cmd` exactly when one is presented, `rst` is 0 and EOQ holds at most
ENC_OQ_DEPTH - 4 bytes; otherwise it waits and nothing changes, whatever the word is. Only an `enc_out` transfer or reset
lifts a wait, and EOQ never overflows. -/
def Obligations.EncoderWordWaitsForRoom : Prop :=
  (∀ (s : State) (w : Word32) (ws : List Word32) (ms : List HostMove),
    s.host.moves = .encCmd :: ms → s.host.encWords = w :: ws → s.host.rst = false →
    (s.e.eoq.length ≤ s.build.oqDepth.val - 4 → acceptedNext .enc s = some w ∧
      step s = acceptWord .enc w { s with host := { s.host with moves := ms, encWords := ws } }) ∧
    (¬ s.e.eoq.length ≤ s.build.oqDepth.val - 4 → acceptedNext .enc s = none ∧
      step s = .next { s with host := { s.host with moves := ms } })) ∧
  (∀ s t : State, step s = .next t → ¬ s.e.eoq.length ≤ s.build.oqDepth.val - 4 →
    t.e.eoq.length ≤ t.build.oqDepth.val - 4 → t.host.rst = true ∨ ∃ ms, s.host.moves = .encPop :: ms) ∧
  (∀ s t : State, step s = .next t → s.e.eoq.length ≤ s.build.oqDepth.val → t.e.eoq.length ≤ t.build.oqDepth.val)

/-- R200: the decoder accepts every word presented outside reset, at once. -/
def Obligations.DecoderPortNeverWaits : Prop :=
  ∀ (s : State) (w : Word32) (ws : List Word32) (ms : List HostMove),
    s.host.moves = .decCmd :: ms → s.host.decWords = w :: ws → s.host.rst = false →
    decCmdReady s = true ∧ acceptedNext .dec s = some w ∧
    step s = acceptWord .dec w { s with host := { s.host with moves := ms, decWords := ws } } ∧
    ∃ t, step s = .next t ∧ t.host.decWords = ws

/-- R272: an output transfer takes the head of EOQ and appends it to OUT; with EOQ empty `enc_out_valid` is 0 and nothing
happens. -/
def Obligations.OutputTransferDeliversTheHead : Prop :=
  ∀ (s : State) (ms : List HostMove), s.host.moves = .encPop :: ms → s.host.rst = false →
    (∀ b bs, s.e.eoq = b :: bs →
      encOutValid s = true ∧ encOutData s = some b ∧
      step s = .next { s with
        e := { s.e with eoq := bs }, host := { s.host with moves := ms, out := s.host.out ++ [b] } }) ∧
    (s.e.eoq = [] → encOutValid s = false ∧ step s = .next { s with host := { s.host with moves := ms } })

/-- R87, R271: a CSR read records the word as the registers stand and changes no state of the core; outside reset only an
accepted word or an output transfer changes an engine. -/
def Obligations.CsrReadHasNoSideEffect : Prop :=
  (∀ (s : State) (addr : BitVec 10) (ms : List HostMove),
    s.host.moves = .csrRead addr :: ms → s.host.rst = false →
    step s =
      .next { s with host := { s.host with moves := ms, reads := s.host.reads ++ [(addr, csrRead addr s)] } }) ∧
  (∀ s t : State, step s = .next t → t.host.rst = false → (∀ p, acceptedNext p s = none) →
    (∀ ms, s.host.moves ≠ .encPop :: ms) → t.e = s.e ∧ t.d = s.d)

/-- R340, R343: at a clock edge with `rst` = 1 every register takes its listed value, EOQ empties, PBUF, the build and what was
delivered stay, and every CSR word but CFG0 and CFG1 then reads 0. -/
def Obligations.ResetGivesEveryRegisterItsValue : Prop :=
  (∀ s t : State, step s = .next t → t.host.rst = true →
    t.e = Enc.reset ∧ t.d = Dec.resetOver s.d.pbuf ∧ t.build = s.build ∧ t.host.out = s.host.out) ∧
  ∀ (s : State) (ms : List HostMove), s.host.moves = .rst true :: ms →
    ∃ t : State, step s = .next t ∧
      t.e = { state := .idle, rem := 0, sum := 0x00, err := false, cill := false, cseq := false, eoq := [] } ∧
      t.d = { state := .expectStart, err := .noError, hold := 0x00, hv := false, len := 0, ovf := false, sum := 0x00,
              rchk := 0x00, cnt := 0, epos := 0, cill := false, pbuf := s.d.pbuf } ∧
      t.build = s.build ∧ t.host = { s.host with moves := ms, rst := true } ∧
      ∀ addr : BitVec 10, addr ≠ 0 → addr ≠ 1 → csrRead addr t = 0x00000000

/-- R341: while `rst` is 1 no port is ready or valid, no step accepts a word or delivers a byte, and after any step that
leaves `rst` at 1 every CSR word but CFG0 and CFG1 reads 0. -/
def Obligations.NothingIsAcceptedDuringReset : Prop :=
  ∀ s : State, s.host.rst = true →
    encCmdReady s = false ∧ decCmdReady s = false ∧ encOutValid s = false ∧
    (∀ p, acceptedNext p s = none) ∧
    ∃ t : State, step s = .next t ∧ t.host.out = s.host.out ∧
      (∀ p, portWords p t = portWords p s) ∧
      (t.host.rst = true → t.e = Enc.reset ∧ t.d = Dec.resetOver s.d.pbuf ∧
        ∀ addr : BitVec 10, addr ≠ 0 → addr ≠ 1 → csrRead addr t = 0x00000000)

/-- R342: with no move of the host nothing runs, and right after reset, whatever the build and PBUF, a frame may be fed without
DEC_OPEN and ENC_OPEN is accepted. -/
def Obligations.AfterResetNothingRunsOnItsOwn : Prop :=
  (∀ s : State, s.host.rst = false → s.host.moves = [] → step s = .next s) ∧
  (∀ (b : Build) (m : Memory) (ws : List Word32) (ms : List HostMove),
    (∃ t, step { State.resetOf b m with
        host := { HostSide.quiet with decWords := encode (.decData (startByte b.variant)) :: ws, moves := .decCmd :: ms } }
        = .next t ∧ t.d.state = .scanBody ∧ t.d.err = .noError ∧ t.d.cnt = 1) ∧
    (∀ len : BitVec 16, 1 ≤ len.toNat → len.toNat ≤ 256 →
      ∃ t, step { State.resetOf b m with
        host := { HostSide.quiet with encWords := encode (.encOpen len) :: ws, moves := .encCmd :: ms } }
        = .next t ∧ t.e.state = .body ∧ t.e.rem.toNat = len.toNat ∧ t.e.eoq = [startByte b.variant]))

/-- R7, R300: every step of every state answers a next state of the same core; no error stops the machine or changes its
parameters. -/
def Obligations.EveryStepGoesOnWithTheSameBuild : Prop :=
  ∀ s : State, ∃ t : State, step s = .next t ∧ t.build = s.build

/-- R35, R44, R303: the sticky flags clear only at reset and are set exactly by an accepted illegal word, or, for E.CSEQ, by
an accepted ENC_OPEN in BODY or ENC_DATA in IDLE. -/
def Obligations.StickyFlagsSetByErrorsClearedByReset : Prop :=
  ∀ s t : State, step s = .next t →
    (t.host.rst = true → t.e.cill = false ∧ t.e.cseq = false ∧ t.d.cill = false) ∧
    (t.host.rst = false →
      (t.e.cill = true ↔ s.e.cill = true ∨ ∃ w, acceptedNext .enc s = some w ∧ legalOn .enc w = false) ∧
      (t.e.cseq = true ↔ s.e.cseq = true ∨ ∃ w, acceptedNext .enc s = some w ∧
        ((s.e.state = .body ∧ ∃ len, w = encode (.encOpen len)) ∨
          (s.e.state = .idle ∧ ∃ b, w = encode (.encData b)))) ∧
      (t.d.cill = true ↔ s.d.cill = true ∨ ∃ w, acceptedNext .dec s = some w ∧ legalOn .dec w = false))

/-- R308, R309: in DONE or ERROR no step but a reset or an accepted DEC_OPEN changes the decoder, except that an illegal word
sets D.CILL: errors do not nest and the first record stays. -/
def Obligations.OnlyOpenOrResetLeavesATerminalState : Prop :=
  ∀ s t : State, s.d.state = .done ∨ s.d.state = .error → step s = .next t → t.host.rst = false →
    acceptedNext .dec s ≠ some (encode .decOpen) →
    t.d = { s.d with cill := t.d.cill }

/-- R43, R47: the counters of both engines from step to step. D.CNT is 0 after reset or DEC_OPEN, counts each consumed byte
and saturates; E.REM counts each payload byte down and never wraps. -/
def Obligations.CountersCountAndDoNotWrap : Prop :=
  ∀ s t : State, s.Inv → step s = .next t → t.host.rst = false →
    (acceptedNext .dec s = some (encode .decOpen) → t.d.cnt = 0) ∧
    (∀ b, acceptedNext .dec s = some (encode (.decData b)) → s.d.terminal = false →
      t.d.cnt.toNat = min (s.d.cnt.toNat + 1) 0xFFFF) ∧
    (acceptedNext .dec s ≠ some (encode .decOpen) →
      (∀ b, acceptedNext .dec s = some (encode (.decData b)) → s.d.terminal = true) → t.d.cnt = s.d.cnt) ∧
    (∀ b, acceptedNext .enc s = some (encode (.encData b)) → t.e.rem.toNat = s.e.rem.toNat - 1)

/-! ### What the host can read -/

/-- R50, R51: CFG0 and CFG1 in every state of every core. -/
def Obligations.ConfigurationWordsAreConstant : Prop :=
  ∀ s : State,
    csrRead 0 s = (match s.build.variant with | .A => 0x20256556 | .B => 0x205E5D5B) ∧
    (csrRead 1 s).extractLsb' 0 16 = 0x0100#16 ∧
    (csrRead 1 s).getLsbD 16 = (match s.build.variant with | .A => false | .B => true) ∧
    (csrRead 1 s).extractLsb' 17 7 = 0#7 ∧
    ((csrRead 1 s).extractLsb' 24 8).toNat = s.build.oqDepth.val ∧
    (s.build.oqDepth.val = 8 →
      csrRead 1 s = match s.build.variant with | .A => 0x08000100 | .B => 0x08010100)

/-- R52, R53, R274: the fields of ENC_STATUS and ENC_OQ, their words at reset, and `enc_busy`. -/
def Obligations.EncoderStatusFields : Prop :=
  ∀ s : State, s.Inv →
    ((csrRead 2 s).getLsbD 0 = true ↔ s.e.state = .body) ∧ encBusy s = (csrRead 2 s).getLsbD 0 ∧
    (csrRead 2 s).getLsbD 1 = s.e.err ∧ (csrRead 2 s).getLsbD 2 = s.e.cill ∧ (csrRead 2 s).getLsbD 3 = s.e.cseq ∧
    (csrRead 2 s).extractLsb' 4 4 = 0#4 ∧ (csrRead 2 s).extractLsb' 8 8 = s.e.sum ∧
    (csrRead 2 s).extractLsb' 16 9 = s.e.rem ∧ (csrRead 2 s).extractLsb' 25 7 = 0#7 ∧
    ((csrRead 3 s).extractLsb' 0 8).toNat = s.e.eoq.length ∧ (csrRead 3 s).extractLsb' 8 24 = 0#24 ∧
    ∀ (b : Build) (m : Memory), csrRead 2 (State.resetOf b m) = 0 ∧ csrRead 3 (State.resetOf b m) = 0

/-- R37, R38, R54, R55, R56, R274: the fields of DEC_STATUS, DEC_CHK and DEC_POS with the codes of D.STATE and D.ERR, their
words at reset, `dec_done` and `dec_err`. -/
def Obligations.DecoderStatusFields : Prop :=
  ∀ s : State,
    ((csrRead 4 s).extractLsb' 0 3).toNat = (match s.d.state with
      | .expectStart => 0 | .scanBody => 1 | .escapePending => 2 | .done => 3 | .error => 4) ∧
    (csrRead 4 s).getLsbD 3 = false ∧
    ((csrRead 4 s).extractLsb' 4 3).toNat = (match s.d.err with
      | .noError => 0 | .missingStartByte => 1 | .illegalStartByte => 2 | .illegalEscapedByte => 3
      | .unterminatedPacket => 4 | .packetTooLarge => 5 | .checksumMismatch => 6) ∧
    (csrRead 4 s).getLsbD 7 = s.d.cill ∧ (csrRead 4 s).getLsbD 8 = s.d.hv ∧ (csrRead 4 s).getLsbD 9 = s.d.ovf ∧
    (csrRead 4 s).extractLsb' 10 6 = 0#6 ∧ (csrRead 4 s).extractLsb' 16 9 = s.d.len ∧
    (csrRead 4 s).extractLsb' 25 7 = 0#7 ∧
    (csrRead 5 s).extractLsb' 0 8 = s.d.rchk ∧ (csrRead 5 s).extractLsb' 8 8 = s.d.sum ∧
    (csrRead 5 s).extractLsb' 16 8 = s.d.hold ∧ (csrRead 5 s).extractLsb' 24 8 = 0#8 ∧
    (csrRead 6 s).extractLsb' 0 16 = s.d.cnt ∧ (csrRead 6 s).extractLsb' 16 16 = s.d.epos ∧
    (decDone s = true ↔ s.d.state = .done) ∧ (decErr s = true ↔ s.d.state = .error) ∧
    ∀ (b : Build) (m : Memory), csrRead 4 (State.resetOf b m) = 0 ∧ csrRead 5 (State.resetOf b m) = 0 ∧
      csrRead 6 (State.resetOf b m) = 0

/-- R57, R83, R84: byte lane i mod 4 of window word i div 4 shows payload byte i of a DONE frame, and 0 for every other index
and in every other state. -/
def Obligations.PbufWindowShowsOnlyADonePayload : Prop :=
  ∀ (s : State) (i : Nat), i < 256 →
    (csrRead (BitVec.ofNat 10 (0x40 + i / 4)) s).extractLsb' (8 * (i % 4)) 8 =
      if s.d.state = .done ∧ i < s.d.len.toNat then s.d.pbuf.read i else 0x00

/-- R82, R88: every offset outside the map reads 0. -/
def Obligations.ReservedOffsetsReadZero : Prop :=
  ∀ (s : State) (off : BitVec 12),
    (0x01C ≤ off.toNat ∧ off.toNat ≤ 0x0FF) ∨ 0x200 ≤ off.toNat → csrRead (csrIndex off) s = 0x00000000

/-- R95, R277: the status words tell the host that an encode has drained and that a decode has ended. -/
def Obligations.StatusWordsTellTheEndOfATransaction : Prop :=
  ∀ s : State, s.Inv →
    ((csrRead 2 s).getLsbD 0 = false ∧ csrRead 3 s = 0 ↔ s.encodeDrained) ∧
    ((csrRead 4 s).extractLsb' 0 3 = 3#3 ∨ (csrRead 4 s).extractLsb' 0 3 = 4#3 ↔ s.decodeEnded)

/-! ### Assembler -/

/-- R124, R126: what the assembler emits for a line in range, what it refuses, and that no word it emits is illegal. -/
def Obligations.AssemblerExpandsAndRefuses : Prop :=
  (∀ n : Nat, assembleCmd ⟨.encOpen, [n]⟩ = if n ≤ 65535 then some [.encOpen (BitVec.ofNat 16 n)] else none) ∧
  (∀ n : Nat, assembleCmd ⟨.encData, [n]⟩ = if n ≤ 255 then some [.encData (BitVec.ofNat 8 n)] else none) ∧
  (∀ n : Nat, assembleCmd ⟨.decData, [n]⟩ = if n ≤ 255 then some [.decData (BitVec.ofNat 8 n)] else none) ∧
  assembleCmd ⟨.encAbort, []⟩ = some [.encAbort] ∧ assembleCmd ⟨.decOpen, []⟩ = some [.decOpen] ∧
  assembleCmd ⟨.decEnd, []⟩ = some [.decEnd] ∧
  (∀ p : List Byte, p.length ≤ 256 →
    assembleCmd ⟨.encodePseudo, p.map BitVec.toNat⟩ =
      some (.encOpen (BitVec.ofNat 16 p.length) :: p.map Instr.encData)) ∧
  (∀ p : List Byte, 256 < p.length → p.length ≤ 65535 →
    assembleCmd ⟨.encodePseudo, p.map BitVec.toNat⟩ = some [.encOpen (BitVec.ofNat 16 p.length)]) ∧
  (∀ ns : List Nat, 65535 < ns.length → assembleCmd ⟨.encodePseudo, ns⟩ = none) ∧
  (∀ f : List Byte,
    assembleCmd ⟨.decodePseudo, f.map BitVec.toNat⟩ = some (.decOpen :: f.map Instr.decData ++ [.decEnd])) ∧
  (∀ (line : List Char) (ws : List Word32), assembleWords line = some ws →
    ∀ w ∈ ws, ∃ i : Instr, encode i = w ∧ decodeCmd i.port w = .cmd i)

/-! ### Transactions against the reference functions -/

/-- R170: from IDLE, the words of `ENC_OPEN n` and n payload bytes, with illegal words anywhere among them, append exactly
Encode(p) when n ≤ 256, with BODY at every command before the last; for a longer payload they append nothing. -/
def Obligations.EncodeTransactionMatchesReference : Prop :=
  ∀ (s : State) (p : List Byte), s.Inv → s.e.state = .idle →
    (∀ ws : List Word32,
      legalWords .enc ws = (Instr.encOpen (BitVec.ofNat 16 p.length) :: p.map Instr.encData).map encode →
      (p.length ≤ 256 → ∃ f : List Byte, encodeRef s.build.variant p = some f ∧
        acceptWords .enc ws s = .next (s.setE
          { state := .idle, rem := 0, sum := checksum p, err := false, cseq := s.e.cseq,
            cill := s.e.cill || ws.any (fun w => !legalOn .enc w), eoq := s.e.eoq ++ f })) ∧
      (256 < p.length → p.length ≤ 65535 →
        encodeRef s.build.variant p = none ∧
        acceptWords .enc ws s = .next (s.setE { s.e with
          err := true, cseq := true, cill := s.e.cill || ws.any (fun w => !legalOn .enc w) }))) ∧
    (∀ (ws : List Word32) (j : Nat), j < p.length → p.length ≤ 256 →
      legalWords .enc ws = (Instr.encOpen (BitVec.ofNat 16 p.length) :: (p.take j).map Instr.encData).map encode →
      ∃ t, acceptWords .enc ws s = .next t ∧ t.e.state = .body ∧ t.e.rem.toNat = p.length - j)

/-- R230: from any decoder state, the words of DEC_OPEN, the bytes of f and DEC_END, with illegal words anywhere among them, end as
Decode(f) says, the terminal state is entered at the deciding byte, and bytes after it do not matter. -/
def Obligations.DecodeTransactionMatchesReference : Prop :=
  (∀ (s : State) (f : List Byte) (ws : List Word32), s.d.pbuf.wf = true →
    legalWords .dec ws = (Instr.decOpen :: f.map Instr.decData ++ [Instr.decEnd]).map encode →
    ∃ t, acceptWords .dec ws s = .next t ∧ t = s.setD t.d ∧
      (∀ pay, decodeRef s.build.variant f = .ok pay →
        t.d.state = .done ∧ t.d.len.toNat = pay.length ∧ t.d.payload = pay ∧
        (∀ i b, pay[i]? = some b → t.d.view i = b) ∧ t.d.rchk = checksum pay ∧ t.d.sum = checksum pay) ∧
      (∀ kind pos chk, decodeRef s.build.variant f = .err kind pos chk →
        t.d.state = .error ∧ t.d.err = kind ∧ t.d.epos = sat16 pos ∧
        (kind = .checksumMismatch → chk = some (t.d.rchk, t.d.sum))) ∧
      (∀ k, decodeEnd s.build.variant f = some k → t.d.cnt = sat16 (k + 1)) ∧
      (decodeEnd s.build.variant f = none → t.d.cnt = sat16 f.length)) ∧
  (∀ (s : State) (f : List Byte) (ws : List Word32) (j : Nat), j ≤ f.length →
    legalWords .dec ws = (Instr.decOpen :: (f.take j).map Instr.decData).map encode →
    ∃ t, acceptWords .dec ws s = .next t ∧
      (t.d.terminal = true ↔ ∃ k, decodeEnd s.build.variant f = some k ∧ k < j)) ∧
  (∀ (v : Variant) (f g : List Byte) (k : Nat), decodeEnd v f = some k →
    k < f.length ∧ decodeRef v (f ++ g) = decodeRef v f)

/-- R231: what a decoder makes of an encoded payload, by the class of its checksum. -/
def Obligations.RoundTripByChecksumClass : Prop :=
  ∀ (v : Variant) (p f : List Byte), p.length ≤ 256 → encodeRef v p = some f →
    (reserved v (checksum p) = false → decodeRef v f = .ok p) ∧
    (checksum p = startByte v → decodeRef v f = .err .illegalStartByte (f.length - 2) none) ∧
    (checksum p = termByte v → ∃ q b, p = q ++ [b] ∧
      decodeRef v f = .err .checksumMismatch (f.length - 2) (some (b, checksum p - b))) ∧
    (checksum p = escapeByte v → decodeRef v f = .err .unterminatedPacket f.length none)

/-- R232: a frame that decodes is the encoding of what it decodes to exactly when nothing follows its TERM, every escape
pair is one the encoder writes, and the checksum element is a literal. -/
def Obligations.DecodedFrameIsCanonicalUnderThreeConditions : Prop :=
  ∀ (v : Variant) (f p : List Byte), decodeRef v f = .ok p →
    (encodeRef v p = some f ↔
      (readElements v f.tail).2 = [termByte v] ∧
      (∀ y, Element.pair y ∈ (readElements v f.tail).1 → reserved v (masked v y) = true) ∧
      ∃ b, (readElements v f.tail).1.getLast? = some (.literal b))

/-- R233: what a decoder makes of a frame whose checksum byte has been raised by one. -/
def Obligations.CorruptedChecksumByClass : Prop :=
  ∀ (v : Variant) (p f g : List Byte) (c' : Byte), p.length ≤ 256 → reserved v (checksum p) = false →
    encodeRef v p = some f → c' = checksum p + 1 → g = f.set (f.length - 2) c' →
    (reserved v c' = false →
      decodeRef v g = .err .checksumMismatch (f.length - 1) (some (c', checksum p))) ∧
    (c' = startByte v → decodeRef v g = .err .illegalStartByte (f.length - 2) none) ∧
    (c' = escapeByte v → decodeRef v g = .err .unterminatedPacket f.length none) ∧
    (c' = termByte v → ∃ q b, p = q ++ [b] ∧
      (b + b = checksum p → decodeRef v g = .ok q) ∧
      (b + b ≠ checksum p →
        decodeRef v g = .err .checksumMismatch (f.length - 2) (some (b, checksum p - b))))

/-- R110, R112, R113, R162: the structure of an encoded frame: delimiters, a body in which every reserved value is masked, the
checksum before TERM, and its length, from 3 to MAX_FRAME_LEN = 515, both reached. -/
def Obligations.EncodedFrameStructure : Prop :=
  (∀ (v : Variant) (p f : List Byte), encodeRef v p = some f →
    f.head? = some (startByte v) ∧ f.getLast? = some (termByte v) ∧ f[f.length - 2]? = some (checksum p) ∧
    f.length = p.length + p.countP (reserved v) + 3 ∧ 3 ≤ f.length ∧ f.length ≤ 515 ∧
    ∃ body, f = [startByte v] ++ body ++ [checksum p, termByte v] ∧
      startByte v ∉ body ∧ termByte v ∉ body ∧
      ∀ i, body[i]? = some (escapeByte v) →
        ∃ r, reserved v r = true ∧ body[i + 1]? = some (masked v r) ∧ reserved v (masked v r) = false) ∧
  (∀ v, ∃ p f, encodeRef v p = some f ∧ f.length = 3) ∧ (∀ v, ∃ p f, encodeRef v p = some f ∧ f.length = 515) ∧
  maxFrameLen = 515

/-- R163: the raw checksum is the only place where a reserved value can stand unmasked. -/
def Obligations.RawChecksumIsTheOnlyStrayReservedByte : Prop :=
  ∀ (v : Variant) (p f : List Byte), encodeRef v p = some f →
    (startByte v ∈ f.tail ↔ checksum p = startByte v) ∧
    (termByte v ∈ f.dropLast ↔ checksum p = termByte v) ∧
    ((∃ i, f[i]? = some (escapeByte v) ∧ ¬ ∃ r, reserved v r = true ∧ f[i + 1]? = some (masked v r)) ↔
      checksum p = escapeByte v) ∧
    (∀ i, f[i]? = some (escapeByte v) → (¬ ∃ r, reserved v r = true ∧ f[i + 1]? = some (masked v r)) →
      f[i + 1]? = some (termByte v))

/-! ### Whole-machine properties -/

/-- R39, R43, R58: every step from a state that meets the invariant leads to one that meets it. -/
def Obligations.EveryStepKeepsTheInvariant : Prop :=
  ∀ s t : State, s.Inv → step s = .next t → t.Inv

/-- The invariant holds right after reset, for every build and every PBUF contents in canonical form. -/
def Obligations.ResetMeetsTheInvariant : Prop :=
  State.reset.Inv ∧ ∀ (b : Build) (m : Memory), m.wf = true → (State.resetOf b m).Inv

/-- R41, R210, R219: every step keeps D.SUM the checksum of the stored bytes while none is left out, so the payload a DONE
decoder shows sums to the received checksum. -/
def Obligations.DonePayloadSumsToReceivedChecksum : Prop :=
  (∀ s t : State, s.Inv → s.d.SumInv → step s = .next t → t.d.SumInv) ∧
  (∀ s : State, s.Inv → s.d.SumInv → s.d.state = .done → checksum s.d.payload = s.d.rchk) ∧
  (∀ (b : Build) (m : Memory), (State.resetOf b m).d.SumInv)

/-- R84, U3: PBUF bytes from D.LEN on are never seen: two states that differ in nothing else read the same in every CSR and
stay so at every step, and right after reset or DEC_OPEN the whole of PBUF is such. -/
def Obligations.UnseenPbufBytesNeverMatter : Prop :=
  (∀ s t : State, s.d.pbuf.wf = true → t.d.pbuf.wf = true → s.sameButUnseen t →
    (∀ addr, csrRead addr s = csrRead addr t) ∧
    ∃ s' t', step s = .next s' ∧ step t = .next t' ∧ s'.sameButUnseen t' ∧
      s'.d.pbuf.wf = true ∧ t'.d.pbuf.wf = true) ∧
  (∀ (s : State) (m : Memory), s.d.len = 0 → s.sameButUnseen (s.setD { s.d with pbuf := m })) ∧
  (∀ (b : Build) (m n : Memory), (State.resetOf b m).sameButUnseen (State.resetOf b n))

/-- R91, R92, R94, R171: over any number of steps without reset and whatever the host's order of moves, each port's words are
accepted in the order presented, the bytes delivered and still queued are those the encoder's accepted words alone produce, in
order, and the decoder is what its accepted words alone make it. -/
def Obligations.EnginesDependOnlyOnTheirAcceptedWords : Prop :=
  ∀ (k : Nat) (s : State), noReset k s → ∃ t : State, Host.Core.run Sys2Proof.core k s = .next t ∧
    acceptedIn .enc k s ++ t.host.encWords = s.host.encWords ∧
    acceptedIn .dec k s ++ t.host.decWords = s.host.decWords ∧
    t.encWithDelivered = (acceptedIn .enc k s).foldl (encWord s.build.variant) s.encWithDelivered ∧
    t.d = (acceptedIn .dec k s).foldl (decWord s.build.variant) s.d

/-- R346, R353: a host that drains `enc_out` has its waiting encoder word accepted: after as many transfers as EOQ holds bytes,
the next handshake takes it. -/
def Obligations.DrainingHostGetsItsWordAccepted : Prop :=
  ∀ (s : State) (w : Word32) (ws : List Word32) (ms : List HostMove), s.host.rst = false →
    s.host.encWords = w :: ws → s.host.moves = List.replicate s.e.eoq.length .encPop ++ .encCmd :: ms →
    ∃ t : State, Host.Core.run Sys2Proof.core (s.e.eoq.length + 1) s = .next t ∧
      acceptedIn .enc (s.e.eoq.length + 1) s = [w] ∧ t.host.encWords = ws ∧
      t.host.out = s.host.out ++ s.e.eoq ∧ t.d = s.d ∧ t.host.moves = ms

/-! ### The build as an argument -/

/-- R7: VARIANT, with ENC_OQ_DEPTH, is an argument of the whole machine and not state. On the core built with `b`, whose
state holds no parameter, every command and every run gives what `exec` and `core` give on the state that carries `b`,
the parameter never changes, and both engines use the one variant of `b`. -/
def Obligations.VariantIsAnArgumentOfTheWholeMachine : Prop :=
  ∀ (b : Build) (r : Live),
    (∀ i : Instr, ∃ r' : Live, execOf b i r = .next r' ∧ exec i (r.on b) = .next (r'.on b)) ∧
    (∀ k : Nat, ∃ r' : Live, Host.Core.run (machine b) k r = .next r' ∧
      Host.Core.run Sys2Proof.core k (r.on b) = .next (r'.on b)) ∧
    (∀ w : Word32,
      acceptWord .enc w (r.on b) = .next (Live.on b { r with e := encWord b.variant r.e w }) ∧
      acceptWord .dec w (r.on b) = .next (Live.on b { r with d := decWord b.variant r.d w })) ∧
    Live.on b (machine b).reset = State.resetOf b []
end

