-- ==== Sys2Proof/Laws/Memory.lean ====
section
/-! SUPPORT. The laws of PBUF contents as a memory in canonical form: reading after writing, the canonical form kept by a
write and met by reset, and two canonical memories with the same bytes being equal. -/

namespace Sys2Proof.Machine

@[simp] theorem Memory.read_nil (a : Nat) : Memory.read [] a = Memory.unlisted := rfl

@[simp] theorem Memory.read_cons (k : Nat) (v : Byte) (m : Memory) (a : Nat) :
    Memory.read ((k, v) :: m) a = if k = a then v else Memory.read m a := rfl

/-- The canonical form with a lower bound, as a proposition. -/
theorem Memory.wfAbove_cons (lo : Option Nat) (k : Nat) (v : Byte) (m : Memory) :
    Memory.wfAbove lo ((k, v) :: m) = true ↔
      (∀ a, lo = some a → a < k) ∧ v ≠ Memory.unlisted ∧ k < maxPacket ∧ Memory.wfAbove (some k) m = true := by
  cases lo <;> simp [Memory.wfAbove, and_assoc]

/-- A canonical memory above a bound lists nothing at or below it. -/
theorem Memory.read_of_wfAbove {m : Memory} {k a : Nat} (h : Memory.wfAbove (some k) m = true) (ha : a ≤ k) :
    Memory.read m a = Memory.unlisted := by
  induction m generalizing k with
  | nil => rfl
  | cons c m ih =>
    obtain ⟨j, v⟩ := c
    obtain ⟨hlo, -, -, hm⟩ := (Memory.wfAbove_cons _ _ _ _).mp h
    have hk := hlo k rfl
    rw [Memory.read_cons, if_neg (by omega)]
    exact ih hm (by omega)

/-- A lower bound may be lowered, or left out. -/
theorem Memory.wfAbove_mono {m : Memory} {k : Nat} {lo : Option Nat} (h : Memory.wfAbove (some k) m = true)
    (hlo : ∀ a, lo = some a → a ≤ k) : Memory.wfAbove lo m = true := by
  cases m with
  | nil => rfl
  | cons c m =>
    obtain ⟨j, v⟩ := c
    obtain ⟨h1, h2, h3, h4⟩ := (Memory.wfAbove_cons _ _ _ _).mp h
    refine (Memory.wfAbove_cons _ _ _ _).mpr ⟨fun a ha => ?_, h2, h3, h4⟩
    have := hlo a ha
    have := h1 k rfl
    omega

/-- A write leaves every other address alone, in any memory. -/
theorem Memory.read_write_of_ne (m : Memory) {a b : Nat} (v : Byte) (h : a ≠ b) :
    (m.write a v).read b = m.read b := by
  induction m with
  | nil => unfold Memory.write; split <;> simp [h]
  | cons c m ih =>
    obtain ⟨k, w⟩ := c
    unfold Memory.write
    split_ifs <;> simp_all

/-- Reading a canonical memory after a write to the same address gives the byte written. -/
theorem Memory.read_write_same_above {m : Memory} {lo : Option Nat} (hm : Memory.wfAbove lo m = true) (a : Nat)
    (v : Byte) : (m.write a v).read a = v := by
  induction m generalizing lo with
  | nil => unfold Memory.write; split <;> simp_all
  | cons c m ih =>
    obtain ⟨k, w⟩ := c
    obtain ⟨-, -, -, hrest⟩ := (Memory.wfAbove_cons _ _ _ _).mp hm
    have hbelow : ∀ b, b ≤ k → Memory.read m b = Memory.unlisted := fun b hb => Memory.read_of_wfAbove hrest hb
    unfold Memory.write
    split_ifs with h1 h2 h3 h4
    · rw [Memory.read_cons, if_neg (by omega), hbelow a (by omega), h2]
    · simp
    · subst h3; rw [hbelow a le_rfl, h4]
    · simp
    · rw [Memory.read_cons, if_neg (by omega), ih hrest]

theorem Memory.read_write_same {m : Memory} (hm : m.wf = true) (a : Nat) (v : Byte) : (m.write a v).read a = v :=
  Memory.read_write_same_above hm a v

/-- A write to an index in range keeps the canonical form above any bound below the index. -/
theorem Memory.write_wfAbove {m : Memory} {lo : Option Nat} (hm : Memory.wfAbove lo m = true) {a : Nat} (v : Byte)
    (ha : a < maxPacket) (hlo : ∀ b, lo = some b → b < a) : Memory.wfAbove lo (m.write a v) = true := by
  induction m generalizing lo with
  | nil =>
    unfold Memory.write
    split
    · rfl
    · next hv => exact (Memory.wfAbove_cons _ _ _ _).mpr ⟨hlo, hv, ha, rfl⟩
  | cons c m ih =>
    obtain ⟨k, w⟩ := c
    obtain ⟨h1, h2, h3, h4⟩ := (Memory.wfAbove_cons _ _ _ _).mp hm
    unfold Memory.write
    split_ifs with hak hv hak' hv
    · exact hm
    · refine (Memory.wfAbove_cons _ _ _ _).mpr ⟨hlo, hv, ha, ?_⟩
      exact (Memory.wfAbove_cons _ _ _ _).mpr ⟨fun b hb => by cases hb; exact hak, h2, h3, h4⟩
    · exact Memory.wfAbove_mono h4 fun b hb => Nat.le_of_lt (h1 b hb)
    · subst hak'; exact (Memory.wfAbove_cons _ _ _ _).mpr ⟨h1, hv, h3, h4⟩
    · exact (Memory.wfAbove_cons _ _ _ _).mpr
        ⟨h1, h2, h3, ih h4 fun b hb => by cases hb; omega⟩

/-- Every write to an index of PBUF keeps the canonical form. -/
theorem Memory.write_wf {m : Memory} (hm : m.wf = true) {a : Nat} (v : Byte) (ha : a < maxPacket) :
    (m.write a v).wf = true :=
  Memory.write_wfAbove hm v ha fun _ hb => nomatch hb

@[simp] theorem Memory.nil_wf : Memory.wf [] = true := rfl

@[simp] theorem reset_pbuf_wf : State.reset.d.pbuf.wf = true := rfl

/-- Canonical memories with the same bytes are equal data. -/
theorem Memory.eq_of_read_eq_above {m n : Memory} {lo : Option Nat} (hm : Memory.wfAbove lo m = true)
    (hn : Memory.wfAbove lo n = true) (h : ∀ a, m.read a = n.read a) : m = n := by
  induction m generalizing n lo with
  | nil =>
    cases n with
    | nil => rfl
    | cons c n =>
      obtain ⟨k, v⟩ := c
      have hv := ((Memory.wfAbove_cons _ _ _ _).mp hn).2.1
      exact absurd (by simpa using (h k).symm) hv
  | cons c m ih =>
    obtain ⟨k, v⟩ := c
    obtain ⟨-, hv, -, hm'⟩ := (Memory.wfAbove_cons _ _ _ _).mp hm
    cases n with
    | nil => exact absurd (by simpa using h k) hv
    | cons c' n =>
      obtain ⟨j, w⟩ := c'
      obtain ⟨-, hw, -, hn'⟩ := (Memory.wfAbove_cons _ _ _ _).mp hn
      have below_m : ∀ b, b ≤ k → Memory.read m b = Memory.unlisted := fun b => Memory.read_of_wfAbove hm'
      have below_n : ∀ b, b ≤ j → Memory.read n b = Memory.unlisted := fun b => Memory.read_of_wfAbove hn'
      have hkj : k = j := by
        have hk := h k
        have hj := h j
        simp only [Memory.read_cons] at hk hj
        by_contra hne
        rcases Nat.lt_or_gt_of_ne hne with hlt | hgt
        · rw [if_pos trivial, if_neg (by omega), below_n k (by omega)] at hk
          exact hv hk
        · rw [if_neg (by omega), if_pos trivial, below_m j (by omega)] at hj
          exact hw hj.symm
      subst hkj
      have hvw : v = w := by simpa using h k
      subst hvw
      rw [ih hm' hn' fun a => ?_]
      by_cases hak : a ≤ k
      · rw [below_m a hak, below_n a hak]
      · have := h a
        simpa [show k ≠ a by omega] using this

theorem Memory.eq_of_read_eq {m n : Memory} (hm : m.wf = true) (hn : n.wf = true) (h : ∀ a, m.read a = n.read a) :
    m = n :=
  Memory.eq_of_read_eq_above hm hn h

end Sys2Proof.Machine
end

