-- ==== Sys2Proof/Laws/State.lean ====
section
/-! SUPPORT. One lemma per field for each named update of a state, true by rfl, so that no proof unfolds a record update.
For an update of one engine the changed fields come first, then the kept ones. -/

namespace Sys2Proof.Machine

/-! ### Replacing the encoder -/

@[simp] theorem State.setE_e (s : State) (e : Enc) : (s.setE e).e = e := rfl
@[simp] theorem State.setE_build (s : State) (e : Enc) : (s.setE e).build = s.build := rfl
@[simp] theorem State.setE_d (s : State) (e : Enc) : (s.setE e).d = s.d := rfl
@[simp] theorem State.setE_host (s : State) (e : Enc) : (s.setE e).host = s.host := rfl

/-! ### Replacing the decoder -/

@[simp] theorem State.setD_d (s : State) (d : Dec) : (s.setD d).d = d := rfl
@[simp] theorem State.setD_build (s : State) (d : Dec) : (s.setD d).build = s.build := rfl
@[simp] theorem State.setD_e (s : State) (d : Dec) : (s.setD d).e = s.e := rfl
@[simp] theorem State.setD_host (s : State) (d : Dec) : (s.setD d).host = s.host := rfl

/-! ### Replacing the host's side -/

@[simp] theorem State.setHost_host (s : State) (h : HostSide) : (s.setHost h).host = h := rfl
@[simp] theorem State.setHost_build (s : State) (h : HostSide) : (s.setHost h).build = s.build := rfl
@[simp] theorem State.setHost_e (s : State) (h : HostSide) : (s.setHost h).e = s.e := rfl
@[simp] theorem State.setHost_d (s : State) (h : HostSide) : (s.setHost h).d = s.d := rfl

/-! ### Reset (R340) -/

@[simp] theorem State.resetRegisters_e (s : State) : (s.resetRegisters).e = Enc.reset := rfl
@[simp] theorem State.resetRegisters_d (s : State) : (s.resetRegisters).d = Dec.resetOver s.d.pbuf := rfl
@[simp] theorem State.resetRegisters_build (s : State) : (s.resetRegisters).build = s.build := rfl
@[simp] theorem State.resetRegisters_host (s : State) : (s.resetRegisters).host = s.host := rfl

/-! ### emit (R18) -/

@[simp] theorem Enc.emit_eoq (e : Enc) (bs : List Byte) : (e.emit bs).eoq = e.eoq ++ bs := rfl
@[simp] theorem Enc.emit_state (e : Enc) (bs : List Byte) : (e.emit bs).state = e.state := rfl
@[simp] theorem Enc.emit_rem (e : Enc) (bs : List Byte) : (e.emit bs).rem = e.rem := rfl
@[simp] theorem Enc.emit_sum (e : Enc) (bs : List Byte) : (e.emit bs).sum = e.sum := rfl
@[simp] theorem Enc.emit_err (e : Enc) (bs : List Byte) : (e.emit bs).err = e.err := rfl
@[simp] theorem Enc.emit_cill (e : Enc) (bs : List Byte) : (e.emit bs).cill = e.cill := rfl
@[simp] theorem Enc.emit_cseq (e : Enc) (bs : List Byte) : (e.emit bs).cseq = e.cseq := rfl

/-! ### Sequence error (R303) -/

@[simp] theorem Enc.sequenceError_cseq (e : Enc) : (e.sequenceError).cseq = true := rfl
@[simp] theorem Enc.sequenceError_state (e : Enc) : (e.sequenceError).state = e.state := rfl
@[simp] theorem Enc.sequenceError_rem (e : Enc) : (e.sequenceError).rem = e.rem := rfl
@[simp] theorem Enc.sequenceError_sum (e : Enc) : (e.sequenceError).sum = e.sum := rfl
@[simp] theorem Enc.sequenceError_err (e : Enc) : (e.sequenceError).err = e.err := rfl
@[simp] theorem Enc.sequenceError_cill (e : Enc) : (e.sequenceError).cill = e.cill := rfl
@[simp] theorem Enc.sequenceError_eoq (e : Enc) : (e.sequenceError).eoq = e.eoq := rfl

/-! ### InvalidInput (R302) -/

@[simp] theorem Enc.invalidInput_err (e : Enc) : (e.invalidInput).err = true := rfl
@[simp] theorem Enc.invalidInput_state (e : Enc) : (e.invalidInput).state = e.state := rfl
@[simp] theorem Enc.invalidInput_rem (e : Enc) : (e.invalidInput).rem = e.rem := rfl
@[simp] theorem Enc.invalidInput_sum (e : Enc) : (e.invalidInput).sum = e.sum := rfl
@[simp] theorem Enc.invalidInput_cill (e : Enc) : (e.invalidInput).cill = e.cill := rfl
@[simp] theorem Enc.invalidInput_cseq (e : Enc) : (e.invalidInput).cseq = e.cseq := rfl
@[simp] theorem Enc.invalidInput_eoq (e : Enc) : (e.invalidInput).eoq = e.eoq := rfl

/-! ### Illegal word on enc_cmd (R125) -/

@[simp] theorem Enc.illegalCommand_cill (e : Enc) : (e.illegalCommand).cill = true := rfl
@[simp] theorem Enc.illegalCommand_state (e : Enc) : (e.illegalCommand).state = e.state := rfl
@[simp] theorem Enc.illegalCommand_rem (e : Enc) : (e.illegalCommand).rem = e.rem := rfl
@[simp] theorem Enc.illegalCommand_sum (e : Enc) : (e.illegalCommand).sum = e.sum := rfl
@[simp] theorem Enc.illegalCommand_err (e : Enc) : (e.illegalCommand).err = e.err := rfl
@[simp] theorem Enc.illegalCommand_cseq (e : Enc) : (e.illegalCommand).cseq = e.cseq := rfl
@[simp] theorem Enc.illegalCommand_eoq (e : Enc) : (e.illegalCommand).eoq = e.eoq := rfl

/-! ### Illegal word on dec_cmd (R125) -/

@[simp] theorem Dec.illegalCommand_cill (d : Dec) : (d.illegalCommand).cill = true := rfl
@[simp] theorem Dec.illegalCommand_state (d : Dec) : (d.illegalCommand).state = d.state := rfl
@[simp] theorem Dec.illegalCommand_err (d : Dec) : (d.illegalCommand).err = d.err := rfl
@[simp] theorem Dec.illegalCommand_hold (d : Dec) : (d.illegalCommand).hold = d.hold := rfl
@[simp] theorem Dec.illegalCommand_hv (d : Dec) : (d.illegalCommand).hv = d.hv := rfl
@[simp] theorem Dec.illegalCommand_len (d : Dec) : (d.illegalCommand).len = d.len := rfl
@[simp] theorem Dec.illegalCommand_ovf (d : Dec) : (d.illegalCommand).ovf = d.ovf := rfl
@[simp] theorem Dec.illegalCommand_sum (d : Dec) : (d.illegalCommand).sum = d.sum := rfl
@[simp] theorem Dec.illegalCommand_rchk (d : Dec) : (d.illegalCommand).rchk = d.rchk := rfl
@[simp] theorem Dec.illegalCommand_cnt (d : Dec) : (d.illegalCommand).cnt = d.cnt := rfl
@[simp] theorem Dec.illegalCommand_epos (d : Dec) : (d.illegalCommand).epos = d.epos := rfl
@[simp] theorem Dec.illegalCommand_pbuf (d : Dec) : (d.illegalCommand).pbuf = d.pbuf := rfl

/-! ### PbufWrite (R18) -/

@[simp] theorem Dec.pbufWrite_pbuf (d : Dec) (i : Nat) (v : Byte) : (d.pbufWrite i v).pbuf = d.pbuf.write i v := rfl
@[simp] theorem Dec.pbufWrite_state (d : Dec) (i : Nat) (v : Byte) : (d.pbufWrite i v).state = d.state := rfl
@[simp] theorem Dec.pbufWrite_err (d : Dec) (i : Nat) (v : Byte) : (d.pbufWrite i v).err = d.err := rfl
@[simp] theorem Dec.pbufWrite_hold (d : Dec) (i : Nat) (v : Byte) : (d.pbufWrite i v).hold = d.hold := rfl
@[simp] theorem Dec.pbufWrite_hv (d : Dec) (i : Nat) (v : Byte) : (d.pbufWrite i v).hv = d.hv := rfl
@[simp] theorem Dec.pbufWrite_len (d : Dec) (i : Nat) (v : Byte) : (d.pbufWrite i v).len = d.len := rfl
@[simp] theorem Dec.pbufWrite_ovf (d : Dec) (i : Nat) (v : Byte) : (d.pbufWrite i v).ovf = d.ovf := rfl
@[simp] theorem Dec.pbufWrite_sum (d : Dec) (i : Nat) (v : Byte) : (d.pbufWrite i v).sum = d.sum := rfl
@[simp] theorem Dec.pbufWrite_rchk (d : Dec) (i : Nat) (v : Byte) : (d.pbufWrite i v).rchk = d.rchk := rfl
@[simp] theorem Dec.pbufWrite_cnt (d : Dec) (i : Nat) (v : Byte) : (d.pbufWrite i v).cnt = d.cnt := rfl
@[simp] theorem Dec.pbufWrite_epos (d : Dec) (i : Nat) (v : Byte) : (d.pbufWrite i v).epos = d.epos := rfl
@[simp] theorem Dec.pbufWrite_cill (d : Dec) (i : Nat) (v : Byte) : (d.pbufWrite i v).cill = d.cill := rfl

/-! ### Counting a byte (R43) -/

@[simp] theorem Dec.countByte_cnt (d : Dec) : (d.countByte).cnt = sat16 (d.cnt.toNat + 1) := rfl
@[simp] theorem Dec.countByte_state (d : Dec) : (d.countByte).state = d.state := rfl
@[simp] theorem Dec.countByte_err (d : Dec) : (d.countByte).err = d.err := rfl
@[simp] theorem Dec.countByte_hold (d : Dec) : (d.countByte).hold = d.hold := rfl
@[simp] theorem Dec.countByte_hv (d : Dec) : (d.countByte).hv = d.hv := rfl
@[simp] theorem Dec.countByte_len (d : Dec) : (d.countByte).len = d.len := rfl
@[simp] theorem Dec.countByte_ovf (d : Dec) : (d.countByte).ovf = d.ovf := rfl
@[simp] theorem Dec.countByte_sum (d : Dec) : (d.countByte).sum = d.sum := rfl
@[simp] theorem Dec.countByte_rchk (d : Dec) : (d.countByte).rchk = d.rchk := rfl
@[simp] theorem Dec.countByte_epos (d : Dec) : (d.countByte).epos = d.epos := rfl
@[simp] theorem Dec.countByte_cill (d : Dec) : (d.countByte).cill = d.cill := rfl
@[simp] theorem Dec.countByte_pbuf (d : Dec) : (d.countByte).pbuf = d.pbuf := rfl

/-! ### raise (R218) -/

@[simp] theorem Dec.raise_state (d : Dec) (k : DecErr) (pos : BitVec 16) : (d.raise k pos).state = .error := rfl
@[simp] theorem Dec.raise_err (d : Dec) (k : DecErr) (pos : BitVec 16) : (d.raise k pos).err = k := rfl
@[simp] theorem Dec.raise_epos (d : Dec) (k : DecErr) (pos : BitVec 16) : (d.raise k pos).epos = pos := rfl
@[simp] theorem Dec.raise_hold (d : Dec) (k : DecErr) (pos : BitVec 16) : (d.raise k pos).hold = d.hold := rfl
@[simp] theorem Dec.raise_hv (d : Dec) (k : DecErr) (pos : BitVec 16) : (d.raise k pos).hv = d.hv := rfl
@[simp] theorem Dec.raise_len (d : Dec) (k : DecErr) (pos : BitVec 16) : (d.raise k pos).len = d.len := rfl
@[simp] theorem Dec.raise_ovf (d : Dec) (k : DecErr) (pos : BitVec 16) : (d.raise k pos).ovf = d.ovf := rfl
@[simp] theorem Dec.raise_sum (d : Dec) (k : DecErr) (pos : BitVec 16) : (d.raise k pos).sum = d.sum := rfl
@[simp] theorem Dec.raise_rchk (d : Dec) (k : DecErr) (pos : BitVec 16) : (d.raise k pos).rchk = d.rchk := rfl
@[simp] theorem Dec.raise_cnt (d : Dec) (k : DecErr) (pos : BitVec 16) : (d.raise k pos).cnt = d.cnt := rfl
@[simp] theorem Dec.raise_cill (d : Dec) (k : DecErr) (pos : BitVec 16) : (d.raise k pos).cill = d.cill := rfl
@[simp] theorem Dec.raise_pbuf (d : Dec) (k : DecErr) (pos : BitVec 16) : (d.raise k pos).pbuf = d.pbuf := rfl

/-! ### The start of a transaction (R201) -/

@[simp] theorem Dec.restart_state (d : Dec) : (d.restart).state = .expectStart := rfl
@[simp] theorem Dec.restart_err (d : Dec) : (d.restart).err = .noError := rfl
@[simp] theorem Dec.restart_hold (d : Dec) : (d.restart).hold = 0x00#8 := rfl
@[simp] theorem Dec.restart_hv (d : Dec) : (d.restart).hv = false := rfl
@[simp] theorem Dec.restart_len (d : Dec) : (d.restart).len = 0 := rfl
@[simp] theorem Dec.restart_ovf (d : Dec) : (d.restart).ovf = false := rfl
@[simp] theorem Dec.restart_sum (d : Dec) : (d.restart).sum = 0x00#8 := rfl
@[simp] theorem Dec.restart_rchk (d : Dec) : (d.restart).rchk = 0x00#8 := rfl
@[simp] theorem Dec.restart_cnt (d : Dec) : (d.restart).cnt = 0 := rfl
@[simp] theorem Dec.restart_epos (d : Dec) : (d.restart).epos = 0 := rfl
@[simp] theorem Dec.restart_cill (d : Dec) : (d.restart).cill = d.cill := rfl
@[simp] theorem Dec.restart_pbuf (d : Dec) : (d.restart).pbuf = d.pbuf := rfl

/-! ### The host's side -/

@[simp] theorem setMoves_build (ms : List HostMove) (s : State) : (setMoves ms s).build = s.build := rfl
@[simp] theorem setMoves_e (ms : List HostMove) (s : State) : (setMoves ms s).e = s.e := rfl
@[simp] theorem setMoves_d (ms : List HostMove) (s : State) : (setMoves ms s).d = s.d := rfl
@[simp] theorem setMoves_encWords (ms : List HostMove) (s : State) : (setMoves ms s).host.encWords = s.host.encWords := rfl
@[simp] theorem setMoves_decWords (ms : List HostMove) (s : State) : (setMoves ms s).host.decWords = s.host.decWords := rfl
@[simp] theorem setMoves_moves (ms : List HostMove) (s : State) : (setMoves ms s).host.moves = ms := rfl
@[simp] theorem setMoves_rst (ms : List HostMove) (s : State) : (setMoves ms s).host.rst = s.host.rst := rfl
@[simp] theorem setMoves_out (ms : List HostMove) (s : State) : (setMoves ms s).host.out = s.host.out := rfl
@[simp] theorem setMoves_reads (ms : List HostMove) (s : State) : (setMoves ms s).host.reads = s.host.reads := rfl

@[simp] theorem driveRst_build (level : Bool) (s : State) : (driveRst level s).build = s.build := rfl
@[simp] theorem driveRst_e (level : Bool) (s : State) : (driveRst level s).e = s.e := rfl
@[simp] theorem driveRst_d (level : Bool) (s : State) : (driveRst level s).d = s.d := rfl
@[simp] theorem driveRst_encWords (level : Bool) (s : State) : (driveRst level s).host.encWords = s.host.encWords := rfl
@[simp] theorem driveRst_decWords (level : Bool) (s : State) : (driveRst level s).host.decWords = s.host.decWords := rfl
@[simp] theorem driveRst_moves (level : Bool) (s : State) : (driveRst level s).host.moves = s.host.moves := rfl
@[simp] theorem driveRst_rst (level : Bool) (s : State) : (driveRst level s).host.rst = level := rfl
@[simp] theorem driveRst_out (level : Bool) (s : State) : (driveRst level s).host.out = s.host.out := rfl
@[simp] theorem driveRst_reads (level : Bool) (s : State) : (driveRst level s).host.reads = s.host.reads := rfl

@[simp] theorem setPortWords_build (p : Port) (ws : List Word32) (s : State) :
    (setPortWords p ws s).build = s.build := by cases p <;> rfl
@[simp] theorem setPortWords_e (p : Port) (ws : List Word32) (s : State) : (setPortWords p ws s).e = s.e := by
  cases p <;> rfl
@[simp] theorem setPortWords_d (p : Port) (ws : List Word32) (s : State) : (setPortWords p ws s).d = s.d := by
  cases p <;> rfl
@[simp] theorem setPortWords_moves (p : Port) (ws : List Word32) (s : State) :
    (setPortWords p ws s).host.moves = s.host.moves := by cases p <;> rfl
@[simp] theorem setPortWords_rst (p : Port) (ws : List Word32) (s : State) :
    (setPortWords p ws s).host.rst = s.host.rst := by cases p <;> rfl
@[simp] theorem setPortWords_out (p : Port) (ws : List Word32) (s : State) :
    (setPortWords p ws s).host.out = s.host.out := by cases p <;> rfl
@[simp] theorem setPortWords_reads (p : Port) (ws : List Word32) (s : State) :
    (setPortWords p ws s).host.reads = s.host.reads := by cases p <;> rfl
@[simp] theorem portWords_setPortWords (p : Port) (ws : List Word32) (s : State) :
    portWords p (setPortWords p ws s) = ws := by cases p <;> rfl

@[simp] theorem clockEdge_of_released (s : State) (h : s.host.rst = false) : s.clockEdge = s := by
  simp [State.clockEdge, h]
@[simp] theorem clockEdge_of_reset (s : State) (h : s.host.rst = true) : s.clockEdge = s.resetRegisters := by
  simp [State.clockEdge, h]
@[simp] theorem clockEdge_host (s : State) : s.clockEdge.host = s.host := by
  unfold State.clockEdge; split <;> rfl
@[simp] theorem clockEdge_build (s : State) : s.clockEdge.build = s.build := by
  unfold State.clockEdge; split <;> rfl

@[simp] theorem readCsr_build (a : BitVec 10) (s : State) : (readCsr a s).build = s.build := rfl
@[simp] theorem readCsr_e (a : BitVec 10) (s : State) : (readCsr a s).e = s.e := rfl
@[simp] theorem readCsr_d (a : BitVec 10) (s : State) : (readCsr a s).d = s.d := rfl
@[simp] theorem readCsr_rst (a : BitVec 10) (s : State) : (readCsr a s).host.rst = s.host.rst := rfl

@[simp] theorem illegalCommand_enc (s : State) : s.illegalCommand .enc = s.setE s.e.illegalCommand := rfl
@[simp] theorem illegalCommand_dec (s : State) : s.illegalCommand .dec = s.setD s.d.illegalCommand := rfl

end Sys2Proof.Machine
end

