-- ==== Sys2Proof/Laws/Ops.lean ====
section
/-! SUPPORT. What each shared operation does, said once: the reserved set and the mask, the checksum, the saturating count, the
hold-register push and Accept, the checksum validator, and the PBUF gate. -/

namespace Sys2Proof.Machine

/-! ### Constants, mask and checksum -/

theorem reserved_iff (v : Variant) (b : Byte) :
    reserved v b = true ↔ b = startByte v ∨ b = termByte v ∨ b = escapeByte v := by
  simp [reserved, or_assoc]

theorem reserved_false_iff (v : Variant) (b : Byte) :
    reserved v b = false ↔ b ≠ startByte v ∧ b ≠ termByte v ∧ b ≠ escapeByte v := by
  simp [reserved, and_assoc]

theorem startByte_ne_termByte (v : Variant) : startByte v ≠ termByte v := by cases v <;> decide
theorem startByte_ne_escapeByte (v : Variant) : startByte v ≠ escapeByte v := by cases v <;> decide
theorem termByte_ne_escapeByte (v : Variant) : termByte v ≠ escapeByte v := by cases v <;> decide
theorem startByte_ne_zero (v : Variant) : startByte v ≠ 0x00#8 := by cases v <;> decide

@[simp] theorem masked_masked (v : Variant) (b : Byte) : masked v (masked v b) = b := by
  simp [masked]

@[simp] theorem checksum_nil : checksum [] = 0x00#8 := rfl

/-- One more byte adds to the checksum (R158). -/
theorem checksum_append_single (p : List Byte) (b : Byte) : checksum (p ++ [b]) = checksum p + b := by
  simp [checksum]

theorem bodyElement_length (v : Variant) (b : Byte) :
    (bodyElement v b).length = if reserved v b then 2 else 1 := by
  unfold bodyElement; split <;> rfl

theorem sat16_toNat (n : Nat) : (sat16 n).toNat = min n 0xFFFF := by
  simp only [sat16, BitVec.toNat_ofNat]
  omega

/-- Counting on from a saturated count. -/
theorem sat16_succ (n : Nat) : sat16 ((sat16 n).toNat + 1) = sat16 (n + 1) := by
  apply BitVec.eq_of_toNat_eq
  simp only [sat16_toNat]
  omega

/-! ### The hold-register push (R211) -/

theorem Dec.pushIndex_eq_some (d : Dec) (i : Nat) :
    d.pushIndex = some i ↔ d.hv = true ∧ d.len.toNat < maxPacket ∧ d.len.toNat = i := by
  unfold Dec.pushIndex
  split <;> simp_all

/-- Accept when no element is held. -/
theorem Dec.accept_first (d : Dec) (x : Byte) (h : d.hv = false) : d.accept x = { d with hold := x, hv := true } := by
  simp [Dec.accept, h]

/-- Accept when an element is held and PBUF has room: the held element is stored and summed. -/
theorem Dec.accept_stores (d : Dec) (x : Byte) (h : d.hv = true) (hl : d.len.toNat < maxPacket) :
    d.accept x =
      { d with hold := x, hv := true, len := d.len + 1, sum := d.sum + d.hold,
               pbuf := d.pbuf.write d.len.toNat d.hold } := by
  have hi : d.pushIndex = some d.len.toNat := if_pos ⟨h, hl⟩
  simp only [Dec.accept, Dec.push, h, hi, if_true, Dec.pbufWrite]

/-- Accept when an element is held and PBUF is full: the held element is summed only. -/
theorem Dec.accept_overflows (d : Dec) (x : Byte) (h : d.hv = true) (hl : ¬ d.len.toNat < maxPacket) :
    d.accept x = { d with hold := x, hv := true, ovf := true, sum := d.sum + d.hold } := by
  have hi : d.pushIndex = none := if_neg fun hc => hl hc.2
  simp only [Dec.accept, Dec.push, h, hi, if_true]

/-- The three cases of Accept. -/
theorem Dec.accept_cases (d : Dec) (x : Byte) :
    (d.hv = false ∧ d.accept x = { d with hold := x, hv := true }) ∨
    (d.hv = true ∧ d.len.toNat < maxPacket ∧ d.accept x =
      { d with hold := x, hv := true, len := d.len + 1, sum := d.sum + d.hold,
               pbuf := d.pbuf.write d.len.toNat d.hold }) ∨
    (d.hv = true ∧ ¬ d.len.toNat < maxPacket ∧
      d.accept x = { d with hold := x, hv := true, ovf := true, sum := d.sum + d.hold }) := by
  cases h : d.hv
  · exact .inl ⟨rfl, d.accept_first x h⟩
  · by_cases hl : d.len.toNat < maxPacket
    · exact .inr (.inl ⟨rfl, hl, d.accept_stores x h hl⟩)
    · exact .inr (.inr ⟨rfl, hl, d.accept_overflows x h hl⟩)

@[simp] theorem Dec.accept_hold (d : Dec) (x : Byte) : (d.accept x).hold = x := rfl
@[simp] theorem Dec.accept_hv (d : Dec) (x : Byte) : (d.accept x).hv = true := rfl

/-- What Accept never changes. -/
theorem Dec.accept_keeps (d : Dec) (x : Byte) :
    (d.accept x).state = d.state ∧ (d.accept x).err = d.err ∧ (d.accept x).rchk = d.rchk ∧
    (d.accept x).cnt = d.cnt ∧ (d.accept x).epos = d.epos ∧ (d.accept x).cill = d.cill := by
  rcases d.accept_cases x with ⟨-, h⟩ | ⟨-, -, h⟩ | ⟨-, -, h⟩ <;> simp [h]

@[simp] theorem Dec.accept_state (d : Dec) (x : Byte) : (d.accept x).state = d.state := (d.accept_keeps x).1
@[simp] theorem Dec.accept_err (d : Dec) (x : Byte) : (d.accept x).err = d.err := (d.accept_keeps x).2.1
@[simp] theorem Dec.accept_rchk (d : Dec) (x : Byte) : (d.accept x).rchk = d.rchk := (d.accept_keeps x).2.2.1
@[simp] theorem Dec.accept_cnt (d : Dec) (x : Byte) : (d.accept x).cnt = d.cnt := (d.accept_keeps x).2.2.2.1
@[simp] theorem Dec.accept_epos (d : Dec) (x : Byte) : (d.accept x).epos = d.epos := (d.accept_keeps x).2.2.2.2.1
@[simp] theorem Dec.accept_cill (d : Dec) (x : Byte) : (d.accept x).cill = d.cill := (d.accept_keeps x).2.2.2.2.2

/-- The only PBUF byte Accept can change is the one at `pushIndex`. -/
theorem Dec.accept_read_of_ne (d : Dec) (x : Byte) {a : Nat} (h : d.pushIndex ≠ some a) :
    (d.accept x).pbuf.read a = d.pbuf.read a := by
  rcases d.accept_cases x with ⟨-, e⟩ | ⟨hv, hl, e⟩ | ⟨-, -, e⟩ <;> simp only [e]
  exact Memory.read_write_of_ne _ _ fun ha => h ((d.pushIndex_eq_some a).mpr ⟨hv, hl, ha⟩)

/-- The byte at `pushIndex` becomes the held element. -/
theorem Dec.accept_read_pushed (d : Dec) (x : Byte) {a : Nat} (hw : d.pbuf.wf = true) (h : d.pushIndex = some a) :
    (d.accept x).pbuf.read a = d.hold := by
  obtain ⟨hv, hl, rfl⟩ := (d.pushIndex_eq_some a).mp h
  rw [d.accept_stores x hv hl]
  exact Memory.read_write_same hw _ _

/-- Accept keeps PBUF in canonical form. -/
theorem Dec.accept_pbuf_wf (d : Dec) (x : Byte) (hw : d.pbuf.wf = true) : (d.accept x).pbuf.wf = true := by
  rcases d.accept_cases x with ⟨-, e⟩ | ⟨-, hl, e⟩ | ⟨-, -, e⟩ <;> simp only [e]
  · exact hw
  · exact Memory.write_wf hw _ hl
  · exact hw

/-! ### The checksum validator (R210) -/

/-- The three cases of CheckChecksum. -/
theorem Dec.checkChecksum_cases (d : Dec) (pos : BitVec 16) :
    (d.ovf = true ∧ d.checkChecksum pos = { d with rchk := d.hold }.raise .packetTooLarge pos) ∨
    (d.ovf = false ∧ d.sum = d.hold ∧ d.checkChecksum pos = { d with rchk := d.hold, state := .done }) ∨
    (d.ovf = false ∧ d.sum ≠ d.hold ∧ d.checkChecksum pos = { d with rchk := d.hold }.raise .checksumMismatch pos) := by
  cases ho : d.ovf
  · by_cases hs : d.sum = d.hold
    · exact .inr (.inl ⟨rfl, hs, by simp [Dec.checkChecksum, ho, hs]⟩)
    · exact .inr (.inr ⟨rfl, hs, by simp [Dec.checkChecksum, ho, hs]⟩)
  · exact .inl ⟨rfl, by simp [Dec.checkChecksum, ho]⟩

/-! ### The gate and the payload (R84, R219) -/

theorem Dec.view_of_not_done (d : Dec) (i : Nat) (h : d.state ≠ .done) : d.view i = 0x00#8 := by
  simp [Dec.view, h]

theorem Dec.view_of_done (d : Dec) (i : Nat) (h : d.state = .done) (hi : i < d.len.toNat) :
    d.view i = d.pbuf.read i := by
  simp [Dec.view, h, hi]

@[simp] theorem Dec.payload_length (d : Dec) : d.payload.length = d.len.toNat := by simp [Dec.payload]

/-- A stored push appends the held element to the stored bytes. -/
theorem Dec.payload_accept (d : Dec) (x : Byte) (hw : d.pbuf.wf = true) (h : d.hv = true)
    (hl : d.len.toNat < maxPacket) : (d.accept x).payload = d.payload ++ [d.hold] := by
  have hlen : (d.accept x).len.toNat = d.len.toNat + 1 := by
    rw [d.accept_stores x h hl]
    simp only [BitVec.toNat_add, maxPacket] at *
    change (d.len.toNat + 1) % 512 = _
    omega
  have hpush : d.pushIndex = some d.len.toNat := (d.pushIndex_eq_some _).mpr ⟨h, hl, rfl⟩
  unfold Dec.payload
  rw [hlen, List.range_succ, List.map_append]
  congr 1
  · refine List.map_congr_left fun a ha => d.accept_read_of_ne x fun hc => ?_
    rw [hpush] at hc
    have := List.mem_range.mp ha
    injection hc
    omega
  · simp [d.accept_read_pushed x hw hpush]

end Sys2Proof.Machine
end

