-- ==== Sys2Proof/Laws/Commands.lean ====
section
/-! SUPPORT. The effect of each command on its engine, case by case, and `exec` on each command: one lemma a case, so that
no proof unfolds a meaning. -/

namespace Sys2Proof.Machine

/-! ### exec -/

@[simp] theorem exec_encOpen (len : BitVec 16) (s : State) :
    exec (.encOpen len) s = .next (s.setE (encOpenStep s.build.variant len s.e)) := rfl
@[simp] theorem exec_encData (b : Byte) (s : State) :
    exec (.encData b) s = .next (s.setE (encDataStep s.build.variant b s.e)) := rfl
@[simp] theorem exec_encAbort (s : State) : exec .encAbort s = .next (s.setE (encAbortStep s.e)) := rfl
@[simp] theorem exec_decOpen (s : State) : exec .decOpen s = .next (s.setD s.d.restart) := rfl
@[simp] theorem exec_decData (b : Byte) (s : State) :
    exec (.decData b) s = .next (s.setD (decDataStep s.build.variant b s.d)) := rfl
@[simp] theorem exec_decEnd (s : State) : exec .decEnd s = .next (s.setD (decEndStep s.d)) := rfl

/-! ### The encoder -/

theorem encOpenStep_body (v : Variant) (len : BitVec 16) (e : Enc) (h : e.state = .body) :
    encOpenStep v len e = e.sequenceError := by simp [encOpenStep, h]

theorem encOpenStep_tooLong (v : Variant) (len : BitVec 16) (e : Enc) (h : e.state = .idle) (hl : 256 < len.toNat) :
    encOpenStep v len e = e.invalidInput := by
  simp [encOpenStep, h, payloadLength, maxPacket, hl]

theorem encOpenStep_empty (v : Variant) (len : BitVec 16) (e : Enc) (h : e.state = .idle) (hl : len.toNat = 0) :
    encOpenStep v len e =
      { e with err := false, sum := 0x00#8, eoq := e.eoq ++ [startByte v, 0x00#8, termByte v] } := by
  obtain ⟨⟩ := e
  simp_all [encOpenStep, payloadLength, maxPacket, Enc.emit]

theorem encOpenStep_opens (v : Variant) (len : BitVec 16) (e : Enc) (h : e.state = .idle) (h1 : 1 ≤ len.toNat)
    (h2 : len.toNat ≤ 256) :
    encOpenStep v len e =
      { e with err := false, sum := 0x00#8, rem := BitVec.ofNat 9 len.toNat, state := .body,
               eoq := e.eoq ++ [startByte v] } := by
  have : ¬ 256 < len.toNat := by omega
  have h0 : ¬ len.toNat = 0 := by omega
  simp only [encOpenStep, h, payloadLength, maxPacket, this, h0, if_false, Enc.emit]

theorem encDataStep_idle (v : Variant) (b : Byte) (e : Enc) (h : e.state = .idle) :
    encDataStep v b e = e.sequenceError := by simp [encDataStep, h]

theorem rem_sub_one_eq_zero (r : BitVec 9) : r - 1 = 0 ↔ r = 1 := by
  constructor
  · intro h
    apply BitVec.eq_of_toNat_eq
    have := congrArg BitVec.toNat h
    have hr := r.isLt
    change (2 ^ 9 - 1 + r.toNat) % 2 ^ 9 = 0 at this
    change r.toNat = 1
    omega
  · rintro rfl; decide

theorem encDataStep_middle (v : Variant) (b : Byte) (e : Enc) (h : e.state = .body) (hr : e.rem ≠ 1) :
    encDataStep v b e =
      { e with sum := e.sum + b, rem := e.rem - 1, eoq := e.eoq ++ bodyElement v b } := by
  have : ¬ e.rem - 1 = 0 := fun hc => hr ((rem_sub_one_eq_zero _).mp hc)
  simp only [encDataStep, h, this, if_false, Enc.emit]

theorem encDataStep_last (v : Variant) (b : Byte) (e : Enc) (h : e.state = .body) (hr : e.rem = 1) :
    encDataStep v b e =
      { e with state := .idle, sum := e.sum + b, rem := 0,
               eoq := e.eoq ++ bodyElement v b ++ [e.sum + b, termByte v] } := by
  have h0 : e.rem - 1 = 0 := (rem_sub_one_eq_zero _).mpr hr
  simp only [encDataStep, h, h0, if_true, Enc.emit]

theorem encAbortStep_body (e : Enc) (h : e.state = .body) : encAbortStep e = { e with state := .idle, rem := 0 } := by
  simp [encAbortStep, h]

theorem encAbortStep_idle (e : Enc) (h : e.state = .idle) : encAbortStep e = e := by simp [encAbortStep, h]

/-! ### The decoder -/

theorem decDataStep_start (v : Variant) (d : Dec) (h : d.state = .expectStart) :
    decDataStep v (startByte v) d = { d.countByte with hold := startByte v, state := .scanBody } := by
  simp [decDataStep, h]

theorem decDataStep_missingStart (v : Variant) (b : Byte) (d : Dec) (h : d.state = .expectStart)
    (hb : b ≠ startByte v) : decDataStep v b d = d.countByte.raise .missingStartByte d.cnt := by
  simp [decDataStep, h, hb]

theorem decDataStep_term (v : Variant) (d : Dec) (h : d.state = .scanBody) :
    decDataStep v (termByte v) d = d.countByte.checkChecksum d.cnt := by
  simp [decDataStep, h]

theorem decDataStep_illegalStart (v : Variant) (d : Dec) (h : d.state = .scanBody) :
    decDataStep v (startByte v) d = d.countByte.raise .illegalStartByte d.cnt := by
  simp [decDataStep, h, startByte_ne_termByte]

theorem decDataStep_escape (v : Variant) (d : Dec) (h : d.state = .scanBody) :
    decDataStep v (escapeByte v) d = { d.countByte with state := .escapePending } := by
  simp [decDataStep, h, (termByte_ne_escapeByte v).symm, (startByte_ne_escapeByte v).symm]

theorem decDataStep_literal (v : Variant) (b : Byte) (d : Dec) (h : d.state = .scanBody) (hb : reserved v b = false) :
    decDataStep v b d = d.countByte.accept b := by
  obtain ⟨h1, h2, h3⟩ := (reserved_false_iff v b).mp hb
  simp [decDataStep, h, h1, h2, h3]

theorem decDataStep_illegalEscaped (v : Variant) (b : Byte) (d : Dec) (h : d.state = .escapePending)
    (hb : b = startByte v ∨ b = escapeByte v) : decDataStep v b d = d.countByte.raise .illegalEscapedByte d.cnt := by
  simp [decDataStep, h, hb]

theorem decDataStep_pair (v : Variant) (b : Byte) (d : Dec) (h : d.state = .escapePending) (h1 : b ≠ startByte v)
    (h2 : b ≠ escapeByte v) :
    decDataStep v b d = { d.countByte.accept (masked v b) with state := .scanBody } := by
  simp [decDataStep, h, h1, h2]

theorem decDataStep_terminal (v : Variant) (b : Byte) (d : Dec) (h : d.terminal = true) : decDataStep v b d = d := by
  unfold Dec.terminal at h
  cases hs : d.state <;> simp_all [decDataStep]

theorem decEndStep_missingStart (d : Dec) (h : d.state = .expectStart) :
    decEndStep d = d.raise .missingStartByte d.cnt := by simp [decEndStep, h]

theorem decEndStep_unterminated (d : Dec) (h : d.state = .scanBody ∨ d.state = .escapePending) :
    decEndStep d = d.raise .unterminatedPacket d.cnt := by
  rcases h with h | h <;> simp [decEndStep, h]

theorem decEndStep_terminal (d : Dec) (h : d.terminal = true) : decEndStep d = d := by
  unfold Dec.terminal at h
  cases hs : d.state <;> simp_all [decEndStep]

theorem Dec.terminal_iff (d : Dec) : d.terminal = true ↔ d.state = .done ∨ d.state = .error := by
  unfold Dec.terminal
  cases d.state <;> simp

theorem Enc.idle_or_body (e : Enc) : e.state = .idle ∨ e.state = .body := by cases e.state <;> simp

/-- The cases of ENC_OPEN. -/
theorem encOpenStep_cases (v : Variant) (len : BitVec 16) (e : Enc) :
    (e.state = .body ∧ encOpenStep v len e = e.sequenceError) ∨
    (e.state = .idle ∧ 256 < len.toNat ∧ encOpenStep v len e = e.invalidInput) ∨
    (e.state = .idle ∧ len.toNat = 0 ∧ encOpenStep v len e =
      { e with err := false, sum := 0x00#8, eoq := e.eoq ++ [startByte v, 0x00#8, termByte v] }) ∨
    (e.state = .idle ∧ 1 ≤ len.toNat ∧ len.toNat ≤ 256 ∧ encOpenStep v len e =
      { e with err := false, sum := 0x00#8, rem := BitVec.ofNat 9 len.toNat, state := .body,
               eoq := e.eoq ++ [startByte v] }) := by
  rcases e.idle_or_body with h | h
  · by_cases h1 : 256 < len.toNat
    · exact .inr (.inl ⟨h, h1, encOpenStep_tooLong v len e h h1⟩)
    · by_cases h0 : len.toNat = 0
      · exact .inr (.inr (.inl ⟨h, h0, encOpenStep_empty v len e h h0⟩))
      · exact .inr (.inr (.inr ⟨h, by omega, by omega, encOpenStep_opens v len e h (by omega) (by omega)⟩))
  · exact .inl ⟨h, encOpenStep_body v len e h⟩

/-- The cases of ENC_DATA. -/
theorem encDataStep_cases (v : Variant) (b : Byte) (e : Enc) :
    (e.state = .idle ∧ encDataStep v b e = e.sequenceError) ∨
    (e.state = .body ∧ e.rem ≠ 1 ∧ encDataStep v b e =
      { e with sum := e.sum + b, rem := e.rem - 1, eoq := e.eoq ++ bodyElement v b }) ∨
    (e.state = .body ∧ e.rem = 1 ∧ encDataStep v b e =
      { e with state := .idle, sum := e.sum + b, rem := 0,
               eoq := e.eoq ++ bodyElement v b ++ [e.sum + b, termByte v] }) := by
  rcases e.idle_or_body with h | h
  · exact .inl ⟨h, encDataStep_idle v b e h⟩
  · by_cases hr : e.rem = 1
    · exact .inr (.inr ⟨h, hr, encDataStep_last v b e h hr⟩)
    · exact .inr (.inl ⟨h, hr, encDataStep_middle v b e h hr⟩)

/-- The cases of DEC_DATA, one for each clause of the FSM (R203 to R210, R212). -/
theorem decDataStep_cases (v : Variant) (b : Byte) (d : Dec) :
    (d.state = .expectStart ∧ b = startByte v ∧
      decDataStep v b d = { d.countByte with hold := startByte v, state := .scanBody }) ∨
    (d.state = .expectStart ∧ b ≠ startByte v ∧
      decDataStep v b d = d.countByte.raise .missingStartByte d.cnt) ∨
    (d.state = .scanBody ∧ b = termByte v ∧ decDataStep v b d = d.countByte.checkChecksum d.cnt) ∨
    (d.state = .scanBody ∧ b = startByte v ∧
      decDataStep v b d = d.countByte.raise .illegalStartByte d.cnt) ∨
    (d.state = .scanBody ∧ b = escapeByte v ∧
      decDataStep v b d = { d.countByte with state := .escapePending }) ∨
    (d.state = .scanBody ∧ reserved v b = false ∧ decDataStep v b d = d.countByte.accept b) ∨
    (d.state = .escapePending ∧ (b = startByte v ∨ b = escapeByte v) ∧
      decDataStep v b d = d.countByte.raise .illegalEscapedByte d.cnt) ∨
    (d.state = .escapePending ∧ b ≠ startByte v ∧ b ≠ escapeByte v ∧
      decDataStep v b d = { d.countByte.accept (masked v b) with state := .scanBody }) ∨
    ((d.state = .done ∨ d.state = .error) ∧ decDataStep v b d = d) := by
  have hr := reserved_false_iff v b
  cases h : d.state with
  | expectStart =>
    by_cases hb : b = startByte v
    · subst hb; simp [decDataStep_start v d h]
    · simp [decDataStep_missingStart v b d h hb, hb]
  | scanBody =>
    by_cases h1 : b = termByte v
    · subst h1; simp [decDataStep_term v d h]
    · by_cases h2 : b = startByte v
      · subst h2; simp [decDataStep_illegalStart v d h]
      · by_cases h3 : b = escapeByte v
        · subst h3; simp [decDataStep_escape v d h]
        · simp [decDataStep_literal v b d h (hr.mpr ⟨h2, h1, h3⟩), hr.mpr ⟨h2, h1, h3⟩]
  | escapePending =>
    by_cases h1 : b = startByte v ∨ b = escapeByte v
    · simp [decDataStep_illegalEscaped v b d h h1, h1]
    · obtain ⟨h2, h3⟩ := not_or.mp h1
      simp [decDataStep_pair v b d h h2 h3, h2, h3]
  | done => simp [decDataStep_terminal v b d ((Dec.terminal_iff d).mpr (.inl h))]
  | error => simp [decDataStep_terminal v b d ((Dec.terminal_iff d).mpr (.inr h))]

/-- The cases of DEC_END. -/
theorem decEndStep_cases (d : Dec) :
    (d.state = .expectStart ∧ decEndStep d = d.raise .missingStartByte d.cnt) ∨
    ((d.state = .scanBody ∨ d.state = .escapePending) ∧ decEndStep d = d.raise .unterminatedPacket d.cnt) ∨
    ((d.state = .done ∨ d.state = .error) ∧ decEndStep d = d) := by
  unfold decEndStep
  cases d.state <;> simp

end Sys2Proof.Machine
end

