-- ==== Sys2Proof/Laws/Decode.lean ====
section
/-! SUPPORT. Command words as bits: a word is its three fields put together, the fields of a word put together are those put
in, and so the fields of every encoded command (spec/30_encoding.md R116, R117). -/

namespace Sys2Proof

/-- Bit i of three fields put together. -/
theorem getLsbD_fields (o r : BitVec 8) (m : BitVec 16) (i : Nat) :
    (o ++ r ++ m : Word32).getLsbD i =
      if i < 16 then m.getLsbD i else if i < 24 then r.getLsbD (i - 16) else o.getLsbD (i - 24) := by
  simp only [BitVec.getLsbD_append]
  by_cases h1 : i < 16
  · simp [h1]
  · by_cases h2 : i < 24
    · simp [h1, h2, show i - 16 < 8 by omega]
    · simp [h1, h2, show ¬ i - 16 < 8 by omega, show i - 16 - 8 = i - 24 by omega]

/-- Bit i of IMM's two bytes put together. -/
theorem getLsbD_bytes (z b : BitVec 8) (i : Nat) :
    (z ++ b : BitVec 16).getLsbD i = if i < 8 then b.getLsbD i else z.getLsbD (i - 8) := by
  simp only [BitVec.getLsbD_append]

/-- A word is {OPC, RSV, IMM} (R116). -/
theorem word_eq_fields (w : Word32) : opcOf w ++ rsvOf w ++ immOf w = w := by
  apply BitVec.eq_of_getLsbD_eq
  intro i hi
  rw [getLsbD_fields]
  simp only [opcOf, rsvOf, immOf, BitVec.getLsbD_extractLsb']
  by_cases h1 : i < 16
  · simp [h1]
  · by_cases h2 : i < 24
    · simp [h1, h2, show i - 16 < 8 by omega, show 16 + (i - 16) = i by omega]
    · simp [h1, h2, show i - 24 < 8 by omega, show 24 + (i - 24) = i by omega]

/-- IMM is {IMM[15:8], IMM[7:0]} (R117). -/
theorem imm_eq_bytes (w : Word32) : immHighOf w ++ immByteOf w = immOf w := by
  apply BitVec.eq_of_getLsbD_eq
  intro i hi
  rw [getLsbD_bytes]
  simp only [immHighOf, immByteOf, immOf, BitVec.getLsbD_extractLsb']
  by_cases h1 : i < 8
  · simp [h1, hi]
  · simp [h1, hi, show i - 8 < 8 by omega, show 8 + (i - 8) = i by omega]

theorem opcOf_fields (o r : BitVec 8) (m : BitVec 16) : opcOf (o ++ r ++ m) = o := by
  apply BitVec.eq_of_getLsbD_eq
  intro i hi
  rw [opcOf, BitVec.getLsbD_extractLsb', getLsbD_fields]
  simp [hi, show ¬ 24 + i < 16 by omega, show ¬ 24 + i < 24 by omega]

theorem rsvOf_fields (o r : BitVec 8) (m : BitVec 16) : rsvOf (o ++ r ++ m) = r := by
  apply BitVec.eq_of_getLsbD_eq
  intro i hi
  rw [rsvOf, BitVec.getLsbD_extractLsb', getLsbD_fields]
  simp [hi, show ¬ 16 + i < 16 by omega, show 16 + i < 24 by omega]

theorem immOf_fields (o r : BitVec 8) (m : BitVec 16) : immOf (o ++ r ++ m) = m := by
  apply BitVec.eq_of_getLsbD_eq
  intro i hi
  rw [immOf, BitVec.getLsbD_extractLsb', getLsbD_fields]
  simp [hi]

/-- A word of form B is the three fields with IMM = {0x00, b}. -/
theorem formB_eq_fields (o r z b : BitVec 8) : (o ++ r ++ z ++ b : Word32) = o ++ r ++ (z ++ b) :=
  BitVec.append_assoc (x₁ := o ++ r) (x₂ := z) (x₃ := b)

theorem immHigh_of_bytes (o r z b : BitVec 8) : immHighOf (o ++ r ++ z ++ b : Word32) = z := by
  rw [formB_eq_fields]
  apply BitVec.eq_of_getLsbD_eq
  intro i hi
  rw [immHighOf, BitVec.getLsbD_extractLsb', getLsbD_fields, if_pos (by omega), getLsbD_bytes]
  simp [hi, show ¬ 8 + i < 8 by omega]

theorem immByte_of_bytes (o r z b : BitVec 8) : immByteOf (o ++ r ++ z ++ b : Word32) = b := by
  rw [formB_eq_fields]
  apply BitVec.eq_of_getLsbD_eq
  intro i hi
  rw [immByteOf, BitVec.getLsbD_extractLsb', getLsbD_fields, if_pos (by omega), getLsbD_bytes]
  simp [hi]

/-! ### The fields of every encoded command -/

/-- RSV is 0x00 in every encoded command (R116). -/
@[simp] theorem rsvOf_encode (i : Instr) : rsvOf (encode i) = 0x00#8 := by
  cases i <;> simp only [encode, formB_eq_fields] <;> exact rsvOf_fields _ _ _

@[simp] theorem opcOf_encOpen (len : BitVec 16) : opcOf (encode (.encOpen len)) = 0x01#8 := opcOf_fields _ _ _
@[simp] theorem immOf_encOpen (len : BitVec 16) : immOf (encode (.encOpen len)) = len := immOf_fields _ _ _

@[simp] theorem opcOf_encData (b : Byte) : opcOf (encode (.encData b)) = 0x02#8 := by
  simp only [encode, formB_eq_fields]; exact opcOf_fields _ _ _
@[simp] theorem immHighOf_encData (b : Byte) : immHighOf (encode (.encData b)) = 0x00#8 := immHigh_of_bytes _ _ _ _
@[simp] theorem immByteOf_encData (b : Byte) : immByteOf (encode (.encData b)) = b := immByte_of_bytes _ _ _ _

@[simp] theorem opcOf_encAbort : opcOf (encode .encAbort) = 0x03#8 := by decide
@[simp] theorem immOf_encAbort : immOf (encode .encAbort) = 0x0000#16 := by decide

@[simp] theorem opcOf_decOpen : opcOf (encode .decOpen) = 0x11#8 := by decide
@[simp] theorem immOf_decOpen : immOf (encode .decOpen) = 0x0000#16 := by decide

@[simp] theorem opcOf_decData (b : Byte) : opcOf (encode (.decData b)) = 0x12#8 := by
  simp only [encode, formB_eq_fields]; exact opcOf_fields _ _ _
@[simp] theorem immHighOf_decData (b : Byte) : immHighOf (encode (.decData b)) = 0x00#8 := immHigh_of_bytes _ _ _ _
@[simp] theorem immByteOf_decData (b : Byte) : immByteOf (encode (.decData b)) = b := immByte_of_bytes _ _ _ _

@[simp] theorem opcOf_decEnd : opcOf (encode .decEnd) = 0x13#8 := by decide
@[simp] theorem immOf_decEnd : immOf (encode .decEnd) = 0x0000#16 := by decide

/-! ### Legality -/

theorem legalOn_iff (p : Port) (w : Word32) : legalOn p w = true ↔ ∃ i, decodeCmd p w = .cmd i := by
  unfold legalOn; cases decodeCmd p w <;> simp

theorem legalOn_of_decode {p : Port} {w : Word32} {i : Instr} (h : decodeCmd p w = .cmd i) : legalOn p w = true :=
  (legalOn_iff p w).mpr ⟨i, h⟩

@[simp] theorem legalWords_nil (p : Port) : legalWords p [] = [] := rfl

theorem legalWords_cons (p : Port) (w : Word32) (ws : List Word32) :
    legalWords p (w :: ws) = if legalOn p w then w :: legalWords p ws else legalWords p ws := by
  simp [legalWords, List.filter_cons]

/-- A word a port decodes to a command has RSV = 0x00 (R120). -/
theorem rsvOf_of_decode {p : Port} {w : Word32} {i : Instr} (h : decodeCmd p w = .cmd i) : rsvOf w = 0x00#8 := by
  unfold decodeCmd at h
  split at h
  · cases h
  · next hr => exact not_not.mp hr

/-- Only the commands of a port are decoded on it (R119). -/
theorem port_of_decode {p : Port} {w : Word32} {i : Instr} (h : decodeCmd p w = .cmd i) : i.port = p := by
  unfold decodeCmd at h
  split at h
  · cases h
  · cases p <;> simp only [decodeEnc, decodeDec] at h <;> split_ifs at h <;> cases h <;> rfl

end Sys2Proof
end

