-- ==== Sys2Proof/Laws/Step.lean ====
section
/-! SUPPORT. What an accepted word and a step can do, said once: a word on a port changes only that port's engine, by a function
of the variant, the engine and the word; and a step is a reset edge, an accepted word, an output transfer, or nothing in
the core. -/

namespace Sys2Proof.Machine

/-- A word accepted on `enc_cmd` (R91, R125): E alone changes. -/
theorem acceptWord_enc (w : Word32) (s : State) :
    acceptWord .enc w s = .next (s.setE (encWord s.build.variant s.e w)) := by
  unfold acceptWord encWord
  cases h : decodeCmd .enc w with
  | illegal why => rfl
  | cmd i =>
    have hp := port_of_decode h
    cases i <;> first | rfl | exact absurd hp (by simp [Instr.port])

/-- A word accepted on `dec_cmd` (R91, R125): D alone changes. -/
theorem acceptWord_dec (w : Word32) (s : State) :
    acceptWord .dec w s = .next (s.setD (decWord s.build.variant s.d w)) := by
  unfold acceptWord decWord
  cases h : decodeCmd .dec w with
  | illegal why => rfl
  | cmd i =>
    have hp := port_of_decode h
    cases i <;> first | rfl | exact absurd hp (by simp [Instr.port])

/-- A sequence of words on `enc_cmd` folds their effects on E. -/
theorem acceptWords_enc (ws : List Word32) (s : State) :
    acceptWords .enc ws s = .next (s.setE (ws.foldl (encWord s.build.variant) s.e)) := by
  induction ws generalizing s with
  | nil => rfl
  | cons w ws ih => simp only [acceptWords, acceptWord_enc, ih]; rfl

/-- A sequence of words on `dec_cmd` folds their effects on D. -/
theorem acceptWords_dec (ws : List Word32) (s : State) :
    acceptWords .dec ws s = .next (s.setD (ws.foldl (decWord s.build.variant) s.d)) := by
  induction ws generalizing s with
  | nil => rfl
  | cons w ws ih => simp only [acceptWords, acceptWord_dec, ih]; rfl

/-- `encWord` looks at nothing of EOQ: what it emits goes behind what is there. -/
theorem encWord_prepend (v : Variant) (e : Enc) (w : Word32) (pre : List Byte) :
    encWord v { e with eoq := pre ++ e.eoq } w = { encWord v e w with eoq := pre ++ (encWord v e w).eoq } := by
  obtain ⟨st, rem, sum, err, cill, cseq, eoq⟩ := e
  unfold encWord
  cases decodeCmd .enc w with
  | illegal why => rfl
  | cmd i =>
    cases i with
    | encOpen len =>
      cases st
      · simp only [encOpenStep, Enc.emit, Enc.invalidInput]
        split_ifs <;> simp [List.append_assoc]
      · rfl
    | encData b =>
      cases st
      · rfl
      · simp only [encDataStep, Enc.emit]
        split_ifs <;> simp [List.append_assoc]
    | encAbort => cases st <;> rfl
    | decOpen => rfl
    | decData b => rfl
    | decEnd => rfl

/-! ### Handshakes -/

theorem handshake_eq_some {p : Port} {s t : State} {w : Word32} :
    handshake p s = some (w, t) ↔
      ∃ ws, portWords p s = w :: ws ∧ cmdReady p s = true ∧ t = setPortWords p ws s := by
  unfold handshake
  cases h : portWords p s with
  | nil => simp
  | cons x xs => by_cases hr : cmdReady p s = true <;> simp [hr, eq_comm, and_comm]

@[simp] theorem portWords_setMoves (p : Port) (ms : List HostMove) (s : State) :
    portWords p (setMoves ms s) = portWords p s := by cases p <;> rfl

@[simp] theorem cmdReady_setMoves (p : Port) (ms : List HostMove) (s : State) :
    cmdReady p (setMoves ms s) = cmdReady p s := by cases p <;> rfl

/-- No port is ready while `rst` is 1 (R341). -/
theorem rst_of_cmdReady {p : Port} {s : State} (h : cmdReady p s = true) : s.host.rst = false := by
  cases p <;> simp_all [cmdReady, encCmdReady, decCmdReady]

/-! ### A step -/

theorem moveFor_injective {p q : Port} (h : moveFor p = moveFor q) : p = q := by
  cases p <;> cases q <;> first | rfl | cases h

/-- The word accepted by the next step, from the state alone. -/
theorem acceptedNext_eq_some {p : Port} {s : State} {w : Word32} :
    acceptedNext p s = some w ↔
      ∃ ms ws, s.host.moves = moveFor p :: ms ∧ portWords p s = w :: ws ∧ cmdReady p s = true := by
  unfold acceptedNext
  cases hm : s.host.moves with
  | nil => simp
  | cons m ms =>
    by_cases hp : m = moveFor p
    · subst hp
      simp only [if_true, Option.map_eq_some_iff, Prod.exists, exists_and_right, exists_eq_right,
        List.cons.injEq, true_and]
      constructor
      · rintro ⟨t, ht⟩
        obtain ⟨ws, h1, h2, -⟩ := handshake_eq_some.mp ht
        exact ⟨ms, ws, rfl, h1, h2⟩
      · rintro ⟨_, ws, -, h1, h2⟩
        exact ⟨_, handshake_eq_some.mpr ⟨ws, h1, h2, rfl⟩⟩
    · simp [hp]

/-- Everything a step can be. The five cases exclude each other by the host's next move and by what is ready. -/
theorem step_cases {s t : State} (h : step s = .next t) :
    (∃ p w ws ms, s.host.moves = moveFor p :: ms ∧ portWords p s = w :: ws ∧ cmdReady p s = true ∧
      acceptWord p w (setPortWords p ws (setMoves ms s)) = .next t) ∨
    (∃ p ms, s.host.moves = moveFor p :: ms ∧ (portWords p s = [] ∨ cmdReady p s = false) ∧
      t = (setMoves ms s).clockEdge) ∨
    (∃ ms, s.host.moves = .encPop :: ms ∧ t = (encPop (setMoves ms s)).clockEdge) ∨
    (∃ a ms, s.host.moves = .csrRead a :: ms ∧ t = (readCsr a (setMoves ms s)).clockEdge) ∨
    (∃ level ms, s.host.moves = .rst level :: ms ∧ t = (driveRst level (setMoves ms s)).clockEdge) ∨
    (s.host.moves = [] ∧ t = s.clockEdge) := by
  have port : ∀ p ms, s.host.moves = moveFor p :: ms → portStep p (setMoves ms s) = .next t →
      (∃ p w ws ms, s.host.moves = moveFor p :: ms ∧ portWords p s = w :: ws ∧ cmdReady p s = true ∧
        acceptWord p w (setPortWords p ws (setMoves ms s)) = .next t) ∨
      (∃ p ms, s.host.moves = moveFor p :: ms ∧ (portWords p s = [] ∨ cmdReady p s = false) ∧
        t = (setMoves ms s).clockEdge) := by
    intro p ms hm hs
    unfold portStep at hs
    cases hh : handshake p (setMoves ms s) with
    | some wt =>
      obtain ⟨w, u⟩ := wt
      rw [hh] at hs
      obtain ⟨ws, h1, h2, rfl⟩ := handshake_eq_some.mp hh
      exact .inl ⟨p, w, ws, ms, hm, by simpa using h1, by simpa using h2, hs⟩
    | none =>
      rw [hh] at hs
      refine .inr ⟨p, ms, hm, ?_, by simpa using hs.symm⟩
      unfold handshake at hh
      cases hw : portWords p (setMoves ms s) with
      | nil => exact .inl (by simpa using hw)
      | cons w ws =>
        rw [hw] at hh
        refine .inr ?_
        by_contra hr
        simp_all
  unfold step runNextMove at h
  cases hm : s.host.moves with
  | nil => rw [hm] at h; simp_all
  | cons m ms =>
    rw [hm] at h
    cases m with
    | encCmd => rcases port .enc ms hm h with h | h
                · exact .inl (by simpa [hm] using h)
                · exact .inr (.inl (by simpa [hm] using h))
    | decCmd => rcases port .dec ms hm h with h | h
                · exact .inl (by simpa [hm] using h)
                · exact .inr (.inl (by simpa [hm] using h))
    | encPop => simp only [hostStep, Host.Outcome.next.injEq] at h; simp [h.symm, moveFor]
    | csrRead a => simp only [hostStep, Host.Outcome.next.injEq] at h; simp [h.symm, moveFor]
    | rst l => simp only [hostStep, Host.Outcome.next.injEq] at h; simp [h.symm, moveFor]

/-- An output transfer takes the head of EOQ, or nothing happens (R272). -/
theorem encPop_cases (s : State) :
    encPop s = s ∨
    ∃ b bs, s.e.eoq = b :: bs ∧ s.host.rst = false ∧
      encPop s = (s.setE { s.e with eoq := bs }).setHost { s.host with out := s.host.out ++ [b] } := by
  unfold encPop
  cases h : s.e.eoq with
  | nil => exact .inl rfl
  | cons b bs =>
    cases hr : s.host.rst
    · exact .inr ⟨b, bs, rfl, rfl, by simp [encOutValid, h, hr]⟩
    · exact .inl (by simp [encOutValid, hr])

/-- What the core's two engines are after a step, from the host's next move alone: reset when `rst` is then 1; otherwise each engine
has taken the word its port accepted, or, for E at an output transfer, lost the head of EOQ to the host. -/
theorem step_engines {s t : State} (h : step s = .next t) :
    t.build = s.build ∧
    ((t.host.rst = true ∧ t.e = Enc.reset ∧ t.d = Dec.resetOver s.d.pbuf ∧ t.host.out = s.host.out ∧
        acceptedNext .enc s = none ∧ acceptedNext .dec s = none) ∨
     (t.host.rst = false ∧ t.host.out = s.host.out ∧
        (∀ w, acceptedNext .enc s = some w → t.e = encWord s.build.variant s.e w) ∧
        (acceptedNext .enc s = none → t.e = s.e) ∧
        (∀ w, acceptedNext .dec s = some w → t.d = decWord s.build.variant s.d w) ∧
        (acceptedNext .dec s = none → t.d = s.d)) ∨
     (t.host.rst = false ∧ acceptedNext .enc s = none ∧ acceptedNext .dec s = none ∧ t.d = s.d ∧
        (∃ ms, s.host.moves = .encPop :: ms) ∧
        ∃ b bs, s.e.eoq = b :: bs ∧ t.e = { s.e with eoq := bs } ∧ t.host.out = s.host.out ++ [b])) := by
  have quiet : ∀ u : State, u.e = s.e → u.d = s.d → u.build = s.build → u.host.out = s.host.out →
      acceptedNext .enc s = none → acceptedNext .dec s = none → t = u.clockEdge →
      t.build = s.build ∧
      ((t.host.rst = true ∧ t.e = Enc.reset ∧ t.d = Dec.resetOver s.d.pbuf ∧ t.host.out = s.host.out ∧
          acceptedNext .enc s = none ∧ acceptedNext .dec s = none) ∨
       (t.host.rst = false ∧ t.host.out = s.host.out ∧
          (∀ w, acceptedNext .enc s = some w → t.e = encWord s.build.variant s.e w) ∧
          (acceptedNext .enc s = none → t.e = s.e) ∧
          (∀ w, acceptedNext .dec s = some w → t.d = decWord s.build.variant s.d w) ∧
          (acceptedNext .dec s = none → t.d = s.d)) ∨
       (t.host.rst = false ∧ acceptedNext .enc s = none ∧ acceptedNext .dec s = none ∧ t.d = s.d ∧
          (∃ ms, s.host.moves = .encPop :: ms) ∧
          ∃ b bs, s.e.eoq = b :: bs ∧ t.e = { s.e with eoq := bs } ∧ t.host.out = s.host.out ++ [b])) := by
    intro u he hd hb ho h1 h2 ht
    subst ht
    refine ⟨by simp [hb], ?_⟩
    cases hr : u.host.rst
    · right; left; simp [hr, he, hd, ho, h1, h2]
    · left; simp [hr, hd, ho, h1, h2]
  have noWord : ∀ p, (∀ ms, s.host.moves ≠ moveFor p :: ms) → acceptedNext p s = none := by
    intro p hp
    rw [Option.eq_none_iff_forall_ne_some]
    intro w hw
    obtain ⟨ms, -, hm, -⟩ := acceptedNext_eq_some.mp hw
    exact hp ms hm
  rcases step_cases h with ⟨p, w, ws, ms, hm, hw, hr, ha⟩ | ⟨p, ms, hm, hw, ht⟩ | ⟨ms, hm, ht⟩ | ⟨a, ms, hm, ht⟩ |
    ⟨l, ms, hm, ht⟩ | ⟨hm, ht⟩
  · have hrst := rst_of_cmdReady hr
    have hacc : acceptedNext p s = some w := acceptedNext_eq_some.mpr ⟨ms, ws, hm, hw, hr⟩
    cases p
    · rw [acceptWord_enc, Host.Outcome.next.injEq] at ha
      subst ha
      have hd : acceptedNext .dec s = none := noWord .dec fun ms' h' => by rw [hm] at h'; cases h'
      refine ⟨by simp, .inr (.inl ?_)⟩
      simp [hacc, hd, hrst]
    · rw [acceptWord_dec, Host.Outcome.next.injEq] at ha
      subst ha
      have he : acceptedNext .enc s = none := noWord .enc fun ms' h' => by rw [hm] at h'; cases h'
      refine ⟨by simp, .inr (.inl ?_)⟩
      simp [hacc, he, hrst]
  · have none_p : ∀ q, acceptedNext q s = none := by
      intro q
      rw [Option.eq_none_iff_forall_ne_some]
      intro w hq
      obtain ⟨ms', ws, hm', hw', hr'⟩ := acceptedNext_eq_some.mp hq
      have : p = q := moveFor_injective (by rw [hm] at hm'; exact (List.cons.inj hm').1)
      subst this
      rcases hw with hw | hw <;> simp_all
    exact quiet (setMoves ms s) rfl rfl rfl rfl (none_p .enc) (none_p .dec) ht
  · have h1 : acceptedNext .enc s = none := noWord .enc fun ms' h' => by rw [hm] at h'; cases h'
    have h2 : acceptedNext .dec s = none := noWord .dec fun ms' h' => by rw [hm] at h'; cases h'
    rcases encPop_cases (setMoves ms s) with hp | ⟨b, bs, hq, hrst, hp⟩
    · exact quiet (setMoves ms s) rfl rfl rfl rfl h1 h2 (by rw [ht, hp])
    · rw [hp, clockEdge_of_released _ (by simpa using hrst)] at ht
      subst ht
      exact ⟨rfl, .inr (.inr ⟨by simpa using hrst, h1, h2, rfl, ⟨ms, hm⟩, b, bs, hq, rfl, rfl⟩)⟩
  · exact quiet (readCsr a (setMoves ms s)) rfl rfl rfl rfl
      (noWord .enc fun ms' h' => by rw [hm] at h'; cases h')
      (noWord .dec fun ms' h' => by rw [hm] at h'; cases h') ht
  · exact quiet (driveRst l (setMoves ms s)) rfl rfl rfl rfl
      (noWord .enc fun ms' h' => by rw [hm] at h'; cases h')
      (noWord .dec fun ms' h' => by rw [hm] at h'; cases h') ht
  · exact quiet s rfl rfl rfl rfl
      (noWord .enc fun ms' h' => by rw [hm] at h'; cases h')
      (noWord .dec fun ms' h' => by rw [hm] at h'; cases h') ht

end Sys2Proof.Machine
end

