-- ==== Sys2Proof/Laws/Parametric.lean ====
section
/-! SUPPORT. The machine with its build as an argument, and the state that carries the argument: the two views hold the same
fields, and what `stepOf b` can do is what `step` can do on a state of build `b`. -/

namespace Sys2Proof.Machine

@[simp] theorem Live.on_build (b : Build) (r : Live) : (r.on b).build = b := rfl
@[simp] theorem Live.on_e (b : Build) (r : Live) : (r.on b).e = r.e := rfl
@[simp] theorem Live.on_d (b : Build) (r : Live) : (r.on b).d = r.d := rfl
@[simp] theorem Live.on_host (b : Build) (r : Live) : (r.on b).host = r.host := rfl

@[simp] theorem State.live_e (s : State) : s.live.e = s.e := rfl
@[simp] theorem State.live_d (s : State) : s.live.d = s.d := rfl
@[simp] theorem State.live_host (s : State) : s.live.host = s.host := rfl

@[simp] theorem Live.live_on (b : Build) (r : Live) : (r.on b).live = r := rfl

/-- A state is its live part on its build. -/
@[simp] theorem State.live_on (s : State) : s.live.on s.build = s := rfl

theorem State.live_on_of_build {s : State} {b : Build} (h : s.build = b) : s.live.on b = s := h ▸ rfl

/-- Everything `stepOf` can answer next: the live part of what `step` answers, which is of the same build. -/
theorem stepOf_next {b : Build} {r r' : Live} : stepOf b r = .next r' ↔ step (r.on b) = .next (r'.on b) := by
  unfold stepOf
  cases h : step (r.on b) with
  | next t =>
    have hb : t.build = b := (step_engines h).1
    simp only [liveOutcome, Host.Outcome.next.injEq]
    exact ⟨fun e => e ▸ (State.live_on_of_build hb).symm, fun e => e ▸ rfl⟩
  | fault f   => simp [liveOutcome]
  | refused f => simp [liveOutcome]

/-- A run of the core built with `b` goes on from what its first step answers. -/
theorem machine_run_succ {b : Build} {r r' : Live} (k : Nat) (h : stepOf b r = .next r') :
    Host.Core.run (machine b) (k + 1) r = Host.Core.run (machine b) k r' := by
  have h' : (machine b).step r = .next r' := h
  simp only [Host.Core.run]
  rw [h']

end Sys2Proof.Machine
end

