-- ==== Sys2Proof/Laws/PerInstr.lean ====
section
/-! SUPPORT. The family of facts made for each command: its encoding carries the fixed bits of its own row of the opcode map
(spec/30_encoding.md R118). -/

namespace Sys2Proof.Laws.EncodesInItsRow

/-- The command's row is in the opcode map, is on the command's port, and the command's word selects it. -/
def Statement (i : Instr) : Prop :=
  i.row ∈ opcodeTable ∧ i.row.port = i.port ∧ i.row.selects i.port (encode i) = true

theorem mask_formL (o r : BitVec 8) (m : BitVec 16) :
    (o ++ r ++ m : Word32) &&& 0xFFFF0000#32 = o ++ r ++ 0x0000#16 := by
  apply BitVec.eq_of_getLsbD_eq
  intro i hi
  rw [BitVec.getLsbD_and, getLsbD_fields, getLsbD_fields]
  interval_cases i <;> simp

theorem mask_formB (o r z b : BitVec 8) :
    (o ++ r ++ z ++ b : Word32) &&& 0xFFFFFF00#32 = o ++ r ++ z ++ 0x00#8 := by
  rw [formB_eq_fields, formB_eq_fields]
  apply BitVec.eq_of_getLsbD_eq
  intro i hi
  rw [BitVec.getLsbD_and, getLsbD_fields, getLsbD_fields, getLsbD_bytes, getLsbD_bytes]
  interval_cases i <;> simp

theorem encOpen (len : BitVec 16) : Statement (.encOpen len) := by
  refine ⟨by simp [opcodeTable, Instr.row], rfl, ?_⟩
  simp only [OpRow.selects, Instr.row, Instr.port, encode, mask_formL]
  decide

theorem encData (b : Byte) : Statement (.encData b) := by
  refine ⟨by simp [opcodeTable, Instr.row], rfl, ?_⟩
  simp only [OpRow.selects, Instr.row, Instr.port, encode, mask_formB]
  decide

theorem encAbort : Statement .encAbort := ⟨by simp [opcodeTable], rfl, by decide⟩

theorem decOpen : Statement .decOpen := ⟨by simp [opcodeTable], rfl, by decide⟩

theorem decData (b : Byte) : Statement (.decData b) := by
  refine ⟨by simp [opcodeTable, Instr.row], rfl, ?_⟩
  simp only [OpRow.selects, Instr.row, Instr.port, encode, mask_formB]
  decide

theorem decEnd : Statement .decEnd := ⟨by simp [opcodeTable], rfl, by decide⟩

end Sys2Proof.Laws.EncodesInItsRow
end

