-- ==== Sys2Proof/Tests/Slice0.lean ====
section
/-! SUPPORT. Tests of the model and witnesses for its statements. Expected results of the tests are taken from
spec/95_test_vectors.md and from the examples of the rules (the id stands at each); the words of the decode tests are
written out from spec/30_encoding.md R116 to R118. A theorem `witness_X` shows concrete states and operands that meet the
hypotheses of `Obligations.X`, at the edges of their ranges. -/

namespace Sys2Proof.Machine.Tests

/-- A core of a variant right after reset, with the reference queue depth. -/
def core (v : Variant) : State := State.resetOf { variant := v, oqDepth := .reference } []

/-- A core with a given encoder. -/
def coreE (v : Variant) (e : Enc) : State := (core v).setE e

/-- A core with a given decoder. -/
def coreD (v : Variant) (d : Dec) : State := (core v).setD d

/-- A core whose host side is given. -/
def coreH (v : Variant) (h : HostSide) : State := (core v).setHost h

/-- An encoder with a frame open. -/
def openEnc (rem : BitVec 9) (sum : Byte) : Enc := { Enc.reset with state := .body, rem := rem, sum := sum }

/-- A decoder that has read START. -/
def startedDec (v : Variant) : Dec := { Dec.resetOver [] with state := .scanBody, hold := startByte v, cnt := 1 }

/-- A decoder that has read `n` payload bytes 0x00 and holds a further element. -/
def filledDec (n : Nat) (hold : Byte) (ovf : Bool) : Dec :=
  { Dec.resetOver [] with
    state := .scanBody, hold := hold, hv := true, len := BitVec.ofNat 9 n, ovf := ovf,
    cnt := BitVec.ofNat 16 (n + 2) }

/-- A decoder that waits for the second byte of an escape pair. -/
def escapedDec (v : Variant) : Dec := { startedDec v with state := .escapePending, cnt := 2 }

/-- A decoder in ERROR (ChecksumMismatch) with the sticky flag at a level. -/
def failedDec (cill : Bool) : Dec :=
  { Dec.resetOver [] with
    state := .error, err := .checksumMismatch, hold := 0xAB, hv := true, len := 1, sum := 0xAA, rchk := 0xAB,
    cnt := 4, epos := 3, cill := cill, pbuf := [(0, 0xAA)] }

/-- A decoder in DONE with payload [AA] (D5). -/
def doneDec : Dec :=
  { Dec.resetOver [(0, 0xAA)] with state := .done, hold := 0xAA, hv := true, len := 1, sum := 0xAA, rchk := 0xAA, cnt := 4 }

/-- What one looks at in the next state, if there is one. -/
def look {α : Type} (o : Host.Outcome State Fault Refusal) (f : State → α) : Option α :=
  match o with
  | .next t    => some (f t)
  | .fault _   => none
  | .refused _ => none

/-! ### Decoding: words written out from R116 to R118 -/

/-- W1: OPC 00000001, RSV 00000000, IMM 00000000_00000100. -/
theorem test_decode_encOpen : decodeCmd .enc 0b00000001_00000000_00000000_00000100#32 = .cmd (.encOpen 4) := by decide
/-- W3: OPC 00000010, IMM[15:8] 0, IMM[7:0] 00100101. -/
theorem test_decode_encData : decodeCmd .enc 0b00000010_00000000_00000000_00100101#32 = .cmd (.encData 0x25) := by decide
/-- W4. -/
theorem test_decode_encAbort : decodeCmd .enc 0b00000011_00000000_00000000_00000000#32 = .cmd .encAbort := by decide
/-- W6. -/
theorem test_decode_decOpen : decodeCmd .dec 0b00010001_00000000_00000000_00000000#32 = .cmd .decOpen := by decide
/-- W7. -/
theorem test_decode_decData : decodeCmd .dec 0b00010010_00000000_00000000_01011011#32 = .cmd (.decData 0x5B) := by decide
/-- W9. -/
theorem test_decode_decEnd : decodeCmd .dec 0b00010011_00000000_00000000_00000000#32 = .cmd .decEnd := by decide
/-- W5, W8, W10 to W13 and the wrong port (E14, D37), each refused by name. -/
theorem test_decode_illegal :
    decodeCmd .enc 0x03000001 = .illegal .immNotZero ∧ decodeCmd .dec 0x12000100 = .illegal .immHighNotZero ∧
    decodeCmd .dec 0x13800000 = .illegal .rsvNotZero ∧ decodeCmd .enc 0x00000000 = .illegal .unassignedOpc ∧
    decodeCmd .enc 0xFFFFFFFF = .illegal .rsvNotZero ∧ decodeCmd .enc 0x04000000 = .illegal .unassignedOpc ∧
    decodeCmd .enc 0x12000041 = .illegal .wrongPort ∧ decodeCmd .dec 0x02000011 = .illegal .wrongPort := by decide
/-- The host's form of the same decoder. -/
theorem test_decodeTableWord :
    decodeTableWord 32 0x01000105 = some (.encOpen 261) ∧ decodeTableWord 32 0x13000000 = some .decEnd ∧
    decodeTableWord 32 0x02000125 = none ∧ decodeTableWord 32 0x113000000 = none := by decide
/-- No two rows of the opcode map take one word on one port (R118). -/
theorem test_rows_do_not_overlap :
    opcodeTable.Pairwise fun r q => r.port ≠ q.port ∨ (r.value ^^^ q.value) &&& r.mask &&& q.mask ≠ 0 := by decide

/-! ### Well-formedness: an ill-formed term for each check -/

theorem test_wf_port :
    Instr.wf .dec (.encOpen 4) = false ∧ Instr.wf .dec (.encData 0) = false ∧ Instr.wf .dec .encAbort = false ∧
    Instr.wf .enc .decOpen = false ∧ Instr.wf .enc (.decData 0) = false ∧ Instr.wf .enc .decEnd = false := by decide
theorem test_wf_ranges :
    AsmCmd.wf ⟨.encOpen, [65535]⟩ = true ∧ AsmCmd.wf ⟨.encOpen, [65536]⟩ = false ∧
    AsmCmd.wf ⟨.encData, [255]⟩ = true ∧ AsmCmd.wf ⟨.encData, [256]⟩ = false ∧
    AsmCmd.wf ⟨.decData, [255]⟩ = true ∧ AsmCmd.wf ⟨.decData, [256]⟩ = false ∧
    AsmCmd.wf ⟨.encodePseudo, [0, 256]⟩ = false ∧ AsmCmd.wf ⟨.decodePseudo, [256]⟩ = false := by decide
theorem test_wf_operand_counts :
    AsmCmd.wf ⟨.encOpen, []⟩ = false ∧ AsmCmd.wf ⟨.encData, [1, 2]⟩ = false ∧ AsmCmd.wf ⟨.encAbort, [0]⟩ = false ∧
    AsmCmd.wf ⟨.decOpen, [0]⟩ = false ∧ AsmCmd.wf ⟨.decData, []⟩ = false ∧ AsmCmd.wf ⟨.decEnd, [0]⟩ = false := by decide
/-- `ENCODE` with more than 65535 bytes is refused (R126). -/
theorem test_wf_encode_too_long : AsmCmd.wf ⟨.encodePseudo, List.replicate 65536 0⟩ = false := by
  simp only [AsmCmd.wf, List.length_replicate, AsmCmd.lengthInRange]
  rfl

/-! ### One step of each command -/

/-- E1. -/
theorem test_encOpen_opens :
    look (exec (.encOpen 1) (core .B)) (fun t => (t.e.eoq, csrRead 2 t)) = some ([0x5B], 0x00010001) := by decide
/-- E8: a sequence error in BODY. -/
theorem test_encOpen_in_body :
    look (exec (.encOpen 3) (coreE .B (openEnc 1 0))) (fun t => (t.e.eoq, csrRead 2 t)) = some ([], 0x00010009) := by
  decide
/-- E10: an escaped byte in the middle of a frame. -/
theorem test_encData_escapes :
    look (exec (.encData 0x56) (coreE .A (openEnc 3 0x25))) (fun t => (t.e.eoq, csrRead 2 t)) =
      some ([0x25, 0x76], 0x00027B01) := by decide
/-- E11: the last byte, with a raw reserved checksum. -/
theorem test_encData_closes :
    look (exec (.encData 0x5E) (coreE .B (openEnc 1 0))) (fun t => (t.e.eoq, csrRead 2 t)) =
      some ([0x5E, 0x7E, 0x5E, 0x5D], 0x00005E00) := by decide
/-- E12. -/
theorem test_encAbort_closes :
    look (exec .encAbort (coreE .B (openEnc 2 0x11))) (fun t => (t.e.eoq, csrRead 2 t)) = some ([], 0x00001100) := by
  decide
/-- E13. -/
theorem test_encAbort_in_idle : look (exec .encAbort (core .B)) (csrRead 2) = some 0x00000000 := by decide
/-- D36: DEC_OPEN keeps the sticky flag. -/
theorem test_decOpen_after_error :
    look (exec .decOpen (coreD .B (failedDec true))) (fun t => (csrRead 4 t, csrRead 5 t, csrRead 6 t)) =
      some (0x00000080, 0x00000000, 0x00000000) := by decide
/-- D8: DEC_OPEN hides the payload. -/
theorem test_decOpen_hides_payload : look (exec .decOpen (coreD .B doneDec)) (csrRead 0x40) = some 0x00000000 := by decide
/-- D4: the held element is pushed one element late, and stays gated. -/
theorem test_decData_pushes_late :
    look (exec (.decData 0xAA) (coreD .B { startedDec .B with hold := 0xAA, hv := true, cnt := 2 }))
      (fun t => (csrRead 4 t, csrRead 5 t, csrRead 6 t, csrRead 0x40 t)) =
      some (0x00010101, 0x00AAAA00, 0x00000003, 0x00000000) := by decide
/-- D5: TERM validates the checksum and shows the payload. -/
theorem test_decData_term :
    look (exec (.decData 0x5D)
        (coreD .B { startedDec .B with hold := 0xAA, hv := true, len := 1, sum := 0xAA, cnt := 3, pbuf := [(0, 0xAA)] }))
      (fun t => (csrRead 4 t, csrRead 5 t, csrRead 6 t, csrRead 0x40 t)) =
      some (0x00010103, 0x00AAAAAA, 0x00000004, 0x000000AA) := by decide
/-- D12. -/
theorem test_decEnd_unterminated :
    look (exec .decEnd (coreD .B (startedDec .B))) (fun t => (csrRead 4 t, csrRead 6 t)) =
      some (0x00000044, 0x00010001) := by decide
/-- D39: no effect in DONE. -/
theorem test_decEnd_in_done :
    look (exec .decEnd (coreD .B doneDec)) (fun t => (csrRead 4 t, csrRead 0x40 t)) = some (0x00010103, 0x000000AA) := by
  decide
/-- E15 and D37: an illegal word sets its port's sticky flag. -/
theorem test_illegal_words :
    look (acceptWord .enc 0x02000125 (core .B)) (csrRead 2) = some 0x00000004 ∧
    look (acceptWord .dec 0x02000011 (core .B)) (csrRead 4) = some 0x00000080 := by decide

/-! ### The ports, reset and the CSR space -/

/-- E19, E20: a word is accepted at four queued bytes and waits at five. -/
theorem test_acceptance :
    encCmdReady (coreE .B { Enc.reset with eoq := [1, 2, 3, 4] }) = true ∧
    encCmdReady (coreE .B { Enc.reset with eoq := [1, 2, 3, 4, 5] }) = false := by decide
/-- D38: after reset a frame may be fed without DEC_OPEN. -/
theorem test_step_runs_presented_word :
    look (step (coreH .B { HostSide.quiet with decWords := [0x1200005B], moves := [.decCmd] }))
      (fun t => (csrRead 4 t, t.host.decWords, t.host.moves)) = some (0x00000001, [], []) := by decide
/-- A placed word is run by the next step, from reset and with a full queue (log entry 3). -/
theorem test_withFetchWord :
    look (step (State.reset.withFetchWord 32 0x01000004)) (csrRead 2) = some 0x00040001 ∧
    look (step ((coreE .A { Enc.reset with eoq := [1, 2, 3, 4, 5, 6, 7, 8] }).withFetchWord 32 0x01000004))
      (fun t => (csrRead 2 t, t.e.eoq, t.host.out)) = some (0x00040001, [0x56], [1, 2, 3, 4, 5, 6, 7, 8]) := by decide
/-- C1 to C4. -/
theorem test_cfg :
    csrRead (csrIndex 0x000) (core .A) = 0x20256556 ∧ csrRead (csrIndex 0x000) (core .B) = 0x205E5D5B ∧
    csrRead (csrIndex 0x004) (core .A) = 0x08000100 ∧ csrRead (csrIndex 0x004) (core .B) = 0x08010100 := by decide
/-- C9: a reset in BODY with three bytes queued. -/
theorem test_reset_in_body :
    look (step ({ coreE .B { openEnc 2 0x11 with eoq := [1, 2, 3] } with
        host := { HostSide.quiet with moves := [.rst true] } }))
      (fun t => (csrRead 2 t, csrRead 3 t)) = some (0x00000000, 0x00000000) := by decide

/-! ### The reference functions and the assembler -/

/-- S1, S2, V1, V4. -/
theorem test_encodeRef :
    encodeRef .B [0xAA] = some [0x5B, 0xAA, 0xAA, 0x5D] ∧
    encodeRef .A [0x25, 0x01, 0x56, 0x03] = some [0x56, 0x25, 0x05, 0x01, 0x25, 0x76, 0x03, 0x7F, 0x65] ∧
    encodeRef .B [] = some [0x5B, 0x00, 0x5D] ∧
    encodeRef .A [0x56, 0x65, 0x25] = some [0x56, 0x25, 0x76, 0x25, 0x45, 0x25, 0x05, 0xE0, 0x65] := by decide
/-- S3, S7, D10, D13, D18, D20, D22. -/
theorem test_decodeRef :
    decodeRef .A [0x56, 0x25, 0x05, 0x01, 0x25, 0x76, 0x03, 0x7F, 0x65] = .ok [0x25, 0x01, 0x56, 0x03] ∧
    decodeRef .B [0x5B, 0x5E, 0x5E, 0x00, 0x5D] = .err .illegalEscapedByte 2 none ∧
    decodeRef .B [0x00, 0x01, 0x5B, 0x01] = .err .missingStartByte 0 none ∧
    decodeRef .B [0x5B, 0x5D] = .err .checksumMismatch 1 (some (0x5B, 0x00)) ∧
    decodeRef .B [0x5B, 0x5E] = .err .unterminatedPacket 2 none ∧
    decodeRef .B [0x5B, 0x5E, 0x5D, 0x7D, 0x5D] = .ok [0x7D] ∧
    decodeRef .B [0x5B, 0x5E, 0x20, 0x5D] = .ok [] := by decide
/-- The examples of R124 and one expansion of R126. -/
theorem test_assembler :
    assembleWords "ENC_OPEN 4".toList = some [0x01000004] ∧
    assembleWords "DEC_DATA 0x5B ; START".toList = some [0x1200005B] ∧
    assembleWords "ENC_DATA 256".toList = none ∧ assembleWords "ENC_OPEN 0x10000".toList = none ∧
    assembleWords "DECODE 0x5B, 0x5D".toList = some [0x11000000, 0x1200005B, 0x1200005D, 0x13000000] ∧
    assembleWords "ENCODE".toList = some [0x01000000] := by decide

/-! ### Witnesses: encodings -/

theorem witness_PortDecodesExactlyItsEncodedCommands :
    (Instr.wf .enc (.encOpen 65535) = true ∧ encode (.encOpen 65535) = 0x0100FFFF) ∧
    decodeCmd .enc 0x0100FFFF = .cmd (.encOpen 65535) ∧
    (Instr.wf .dec (.decData 255) = true ∧ encode (.decData 255) = 0x120000FF) ∧
    decodeCmd .dec 0x120000FF = .cmd (.decData 255) := by decide

theorem witness_WordSelectsRowExactlyWhenDecodedToIt :
    Instr.row (.encData 0) ∈ opcodeTable ∧ Port.enc = (Instr.row (.encData 0)).port ∧
    (0x020000FF : Word32) &&& (Instr.row (.encData 0)).mask = (Instr.row (.encData 0)).value := by decide

/-- One word for each alternative of R121. -/
theorem witness_IllegalWordsAreExactlyThoseListed :
    (rsvOf 0x01010004 ≠ 0 ∧ legalOn .enc 0x01010004 = false) ∧
    (opcOf 0x04000000 ∉ [0x01#8, 0x02#8, 0x03#8, 0x11#8, 0x12#8, 0x13#8] ∧ legalOn .dec 0x04000000 = false) ∧
    (opcOf 0x02000125 ∈ [0x02#8, 0x12#8] ∧ immHighOf 0x02000125 ≠ 0 ∧ legalOn .enc 0x02000125 = false) ∧
    (opcOf 0x13000001 ∈ [0x03#8, 0x11#8, 0x13#8] ∧ immOf 0x13000001 ≠ 0 ∧ legalOn .dec 0x13000001 = false) ∧
    (opcOf 0x12000041 ∈ [0x11#8, 0x12#8, 0x13#8] ∧ legalOn .enc 0x12000041 = false) ∧
    (opcOf 0x02000011 ∈ [0x01#8, 0x02#8, 0x03#8] ∧ legalOn .dec 0x02000011 = false) ∧
    legalOn .enc 0x01000004 = true := by decide

/-! ### Witnesses: the encoder's commands -/

theorem witness_EncOpenOpensFrameOrRecordsWhyNot :
    (coreE .B (openEnc 1 0)).e.state = .body ∧ (core .B).e.state = .idle ∧
    (256 < (257#16).toNat ∧ 256 < (65535#16).toNat) ∧ (0#16).toNat = 0 ∧
    (1 ≤ (1#16).toNat ∧ (1#16).toNat ≤ 256) ∧ (1 ≤ (256#16).toNat ∧ (256#16).toNat ≤ 256) := by decide

/-- A frame with 256 bytes due, one with two, one with one; a reserved and an unreserved byte of each. -/
theorem witness_EncDataEmitsElementAndClosesFrame :
    (core .A).e.state = .idle ∧
    ((coreE .A (openEnc 256 0)).e.state = .body ∧ (coreE .A (openEnc 256 0)).e.rem ≠ 1) ∧
    ((coreE .A (openEnc 2 0)).e.state = .body ∧ (coreE .A (openEnc 2 0)).e.rem ≠ 1) ∧
    ((coreE .A (openEnc 1 0)).e.state = .body ∧ (coreE .A (openEnc 1 0)).e.rem = 1) ∧
    reserved .A 0x65 = true ∧ reserved .A 0x20 = false := by decide

theorem witness_EncAbortClosesFrameWithoutBytes :
    (coreE .B (openEnc 2 0x11)).e.state = .body ∧ (core .B).e.state = .idle := by decide

theorem witness_EmittedByteCountsByCase :
    legalOn .enc 0x00000000 = false ∧
    ((coreE .B (openEnc 1 0)).e.state = .body ∧ 256 < (257#16).toNat) ∧
    ((core .B).e.state = .idle ∧ (0#16).toNat = 0 ∧ 1 ≤ (256#16).toNat ∧ (256#16).toNat ≤ 256) ∧
    ((coreE .B (openEnc 2 0)).e.rem ≠ 1 ∧ (coreE .B (openEnc 1 0)).e.rem = 1) ∧
    (0x01000100 : Word32) = encode (.encOpen 256) ∧ (0x020000FF : Word32) = encode (.encData 255) ∧
    (0x03000000 : Word32) = encode .encAbort := by decide

theorem witness_EncoderCommandFrame :
    (Instr.encOpen 256).port = .enc ∧ (Instr.encData 0x5B).port = .enc ∧ Instr.encAbort.port = .enc ∧
    (∃ t, exec (.encOpen 256) (core .B) = .next t) ∧
    (∃ t, exec (.encData 0x5B) (coreE .B (openEnc 1 0)) = .next t) ∧
    ∃ t, exec .encAbort (coreE .B (openEnc 1 0)) = .next t :=
  ⟨rfl, rfl, rfl, ⟨_, rfl⟩, ⟨_, rfl⟩, ⟨_, rfl⟩⟩

/-- An ENC_OPEN in IDLE at both sides of the limit, and one in BODY. -/
theorem witness_InvalidInputFlagFollowsLatestOpen :
    (∃ t, exec (.encOpen 257) (core .B) = .next t) ∧ (core .B).e.state = .idle ∧ 256 < (257#16).toNat ∧
    (∃ t, exec (.encOpen 256) (core .B) = .next t) ∧
    (∃ t, exec (.encOpen 257) (coreE .B (openEnc 1 0)) = .next t) ∧
    ∀ len, Instr.encOpen 257 = .encOpen len → (coreE .B (openEnc 1 0)).e.state = .body :=
  ⟨⟨_, rfl⟩, rfl, by decide, ⟨_, rfl⟩, ⟨_, rfl⟩, fun _ _ => rfl⟩

/-! ### Witnesses: the decoder's commands -/

theorem inv_core (v : Variant) : (core v).Inv :=
  ⟨by constructor <;> cases v <;> decide, by constructor <;> cases v <;> decide⟩

/-- A core with a given decoder meets the invariant when the decoder does. -/
theorem inv_coreD {v : Variant} {d : Dec} (h : d.Inv v) : (coreD v d).Inv := ⟨(inv_core v).enc, h⟩

theorem inv_started (v : Variant) : (startedDec v).Inv v := by constructor <;> cases v <;> decide
theorem inv_escaped (v : Variant) : (escapedDec v).Inv v := by constructor <;> cases v <;> decide
theorem inv_filled_last : (filledDec 255 0x11 false).Inv .B := by constructor <;> decide
theorem inv_filled_full : (filledDec 256 0x00 true).Inv .B := by constructor <;> decide
theorem inv_failed : (failedDec false).Inv .B := by constructor <;> decide
theorem inv_done : doneDec.Inv .B := by constructor <;> decide

theorem witness_DecDataInExpectStart :
    (core .A).d.state = .expectStart ∧ (core .A).Inv ∧ (0x56 : Byte) = startByte .A ∧
    (0x65 : Byte) ≠ startByte .A := ⟨rfl, inv_core .A, by decide, by decide⟩

theorem witness_DecDataInScanBody :
    (coreD .A (startedDec .A)).d.state = .scanBody ∧ (0x56 : Byte) = startByte .A ∧ (0x25 : Byte) = escapeByte .A ∧
    (0x20 ≠ startByte .A ∧ 0x20 ≠ escapeByte .A ∧ 0x20 ≠ termByte .A) := by decide

theorem witness_DecDataInEscapePending :
    (coreD .A (escapedDec .A)).d.state = .escapePending ∧ (0x56 : Byte) = startByte .A ∧
    (0x65 ≠ startByte .A ∧ 0x65 ≠ escapeByte .A ∧ 0x65 = termByte .A) := by decide

theorem witness_EscapedTermAndUnmaskedBytesAreData :
    (coreD .B (escapedDec .B)).d.state = .escapePending ∧
    (0x5D ≠ startByte .B ∧ 0x5D ≠ escapeByte .B ∧ 0x5D = termByte .B) ∧
    (0x00 ≠ startByte .B ∧ 0x00 ≠ escapeByte .B) := by decide

/-- No element held; the last entry of PBUF free; PBUF full. -/
theorem witness_AcceptPushesTheDisplacedElement :
    ((startedDec .B).pbuf.wf = true ∧ (startedDec .B).hv = false) ∧
    ((filledDec 255 0x11 false).hv = true ∧ (filledDec 255 0x11 false).len.toNat < 256) ∧
    ((filledDec 256 0x11 false).hv = true ∧ 256 ≤ (filledDec 256 0x11 false).len.toNat) := by decide

theorem witness_TermChecksLengthThenChecksum :
    (coreD .B (filledDec 256 0 true)).d.state = .scanBody ∧ (coreD .B (filledDec 256 0 true)).d.ovf = true ∧
    ((coreD .B (filledDec 256 0 false)).d.ovf = false ∧ (filledDec 256 0 false).sum.toNat = (0 : Byte).toNat ∧
      (filledDec 256 0 false).hold = 0) ∧
    ((coreD .B (startedDec .B)).d.ovf = false ∧ (startedDec .B).sum.toNat ≠ (startedDec .B).hold.toNat) := by decide

theorem witness_DecEndReportsWhatIsMissing :
    (core .B).d.state = .expectStart ∧ (core .B).Inv ∧ (coreD .B (startedDec .B)).d.state = .scanBody ∧
    (coreD .B (escapedDec .B)).d.state = .escapePending ∧ (coreD .B doneDec).d.state = .done ∧
    (coreD .B (failedDec false)).d.state = .error := ⟨rfl, inv_core .B, rfl, rfl, rfl, rfl⟩

theorem witness_BytesAfterTheEndAreIgnored :
    (coreD .B doneDec).d.state = .done ∧ (coreD .B (failedDec true)).d.state = .error := by decide

/-- A byte that completes no element, one that stores at index 255, and DEC_OPEN and DEC_END. -/
theorem witness_DecoderCommandFrame :
    Instr.decOpen.port = .dec ∧ Instr.decEnd.port = .dec ∧ (Instr.decData 0x22).port = .dec ∧
    (∃ t, exec (.decData 0x22) (coreD .B (filledDec 255 0x11 false)) = .next t) ∧
    completesElement .B 0x22 (filledDec 255 0x11 false) = true ∧
    (filledDec 255 0x11 false).pushIndex = some 255 ∧ (filledDec 255 0x11 false).pbuf.wf = true ∧
    completesElement .B 0x5E (filledDec 255 0x11 false) = false ∧
    (∃ t, exec .decOpen (coreD .B doneDec) = .next t) ∧ ∃ t, exec .decEnd (coreD .B (startedDec .B)) = .next t :=
  ⟨rfl, rfl, rfl, ⟨_, rfl⟩, by decide, by decide, by decide, by decide, ⟨_, rfl⟩, ⟨_, rfl⟩⟩

/-- The states in which the six errors arise. -/
theorem witness_EachDecodeErrorHasExactlyItsCause :
    ((core .B).Inv ∧ (core .B).d.err = .noError ∧
      look (exec .decEnd (core .B)) (fun t => t.d.err) = some .missingStartByte) ∧
    ((coreD .B (startedDec .B)).Inv ∧ (coreD .B (startedDec .B)).d.err = .noError ∧
      look (exec (.decData 0x5B) (coreD .B (startedDec .B))) (fun t => t.d.err) = some .illegalStartByte ∧
      look (exec .decEnd (coreD .B (startedDec .B))) (fun t => t.d.err) = some .unterminatedPacket ∧
      look (exec (.decData 0x5D) (coreD .B (startedDec .B))) (fun t => t.d.err) = some .checksumMismatch) ∧
    ((coreD .B (escapedDec .B)).Inv ∧ (coreD .B (escapedDec .B)).d.err = .noError ∧
      look (exec (.decData 0x5E) (coreD .B (escapedDec .B))) (fun t => t.d.err) = some .illegalEscapedByte) ∧
    ((coreD .B (filledDec 256 0 true)).Inv ∧ (coreD .B (filledDec 256 0 true)).d.err = .noError ∧
      look (exec (.decData 0x5D) (coreD .B (filledDec 256 0 true))) (fun t => t.d.err) = some .packetTooLarge) :=
  ⟨⟨inv_core .B, by decide, by decide⟩,
   ⟨inv_coreD (inv_started .B), by decide, by decide, by decide, by decide⟩,
   ⟨inv_coreD (inv_escaped .B), by decide, by decide⟩,
   ⟨inv_coreD inv_filled_full, by decide, by decide⟩⟩

theorem witness_EntryIntoErrorIsPrecise :
    (coreD .B (startedDec .B)).d.state ≠ .error ∧
    look (exec (.decData 0x5D) (coreD .B (startedDec .B))) (fun t => t.d.state) = some .error ∧
    look (exec .decEnd (coreD .B (startedDec .B))) (fun t => t.d.state) = some .error := by decide

/-! ### Witnesses: steps on the ports -/

/-- A host that presents one word on each port, with a first move. -/
def presenting (m : HostMove) : HostSide :=
  { HostSide.quiet with encWords := [0x01000100], decWords := [0x1200005B], moves := [m] }

theorem witness_StepRunsTheDecodedCommand :
    (Instr.wf .enc (.encOpen 256) = true ∧ (coreH .B (presenting .encCmd)).host.moves = [moveFor .enc] ∧
      portWords .enc (coreH .B (presenting .encCmd)) = [encode (.encOpen 256)] ∧
      cmdReady .enc (coreH .B (presenting .encCmd)) = true) ∧
    (Instr.wf .dec (.decData 0x5B) = true ∧ (coreH .B (presenting .decCmd)).host.moves = [moveFor .dec] ∧
      portWords .dec (coreH .B (presenting .decCmd)) = [encode (.decData 0x5B)] ∧
      cmdReady .dec (coreH .B (presenting .decCmd)) = true) := by decide

/-- A ready port, and one that is not ready for want of room. -/
theorem witness_PlacedWordRunsNext :
    cmdReady (Instr.encOpen 4).port State.reset = true ∧
    cmdReady (Instr.encOpen 4).port (coreE .A { Enc.reset with eoq := [1, 2, 3, 4, 5] }) = false := by decide

theorem witness_IllegalWordOnlySetsItsStickyFlag :
    ((coreH .B { HostSide.quiet with encWords := [0], moves := [.encCmd] }).host.moves = [.encCmd] ∧
      encCmdReady (coreH .B { HostSide.quiet with encWords := [0], moves := [.encCmd] }) = true ∧
      legalOn .enc 0 = false) ∧
    ((coreH .B { HostSide.quiet with decWords := [0x02000011], moves := [.decCmd] }).host.moves = [.decCmd] ∧
      decCmdReady (coreH .B { HostSide.quiet with decWords := [0x02000011], moves := [.decCmd] }) = true ∧
      legalOn .dec 0x02000011 = false) := by decide

/-- A core with a given queue whose host moves on. -/
def queued (q : List Byte) (m : HostMove) : State :=
  { coreE .B { Enc.reset with eoq := q } with host := presenting m }

/-- Four bytes queued at depth eight, where a word is accepted; five, where it waits; and a transfer that lifts the wait. -/
theorem witness_EncoderWordWaitsForRoom :
    (queued [1, 2, 3, 4] .encCmd).host.moves = [.encCmd] ∧ (queued [1, 2, 3, 4] .encCmd).host.encWords = [0x01000100] ∧
    (queued [1, 2, 3, 4] .encCmd).host.rst = false ∧
    (queued [1, 2, 3, 4] .encCmd).e.eoq.length ≤ (queued [1, 2, 3, 4] .encCmd).build.oqDepth.val - 4 ∧
    ¬ (queued [1, 2, 3, 4, 5] .encCmd).e.eoq.length ≤ (queued [1, 2, 3, 4, 5] .encCmd).build.oqDepth.val - 4 ∧
    look (step (queued [1, 2, 3, 4, 5] .encPop)) (fun t => t.e.eoq.length ≤ t.build.oqDepth.val - 4) = some True := by
  refine ⟨rfl, rfl, rfl, by decide, by decide, ?_⟩
  exact congrArg some (eq_true (by decide))

theorem witness_DecoderPortNeverWaits :
    (queued [1, 2, 3, 4, 5, 6, 7, 8] .decCmd).host.moves = [.decCmd] ∧
    (queued [1, 2, 3, 4, 5, 6, 7, 8] .decCmd).host.decWords = [0x1200005B] ∧
    (queued [1, 2, 3, 4, 5, 6, 7, 8] .decCmd).host.rst = false := by decide

theorem witness_OutputTransferDeliversTheHead :
    (queued [1, 2] .encPop).host.moves = [.encPop] ∧ (queued [1, 2] .encPop).host.rst = false ∧
    (queued [1, 2] .encPop).e.eoq = [1, 2] ∧ (queued [] .encPop).host.moves = [.encPop] ∧
    (queued [] .encPop).e.eoq = [] := by decide

/-- A CSR read, and a step that accepts nothing and pops nothing. -/
theorem witness_CsrReadHasNoSideEffect :
    (queued [1] (.csrRead 0x3FF)).host.moves = [.csrRead 0x3FF] ∧ (queued [1] (.csrRead 0x3FF)).host.rst = false ∧
    look (step (queued [1] (.csrRead 0x3FF))) (fun t => t.host.rst) = some false ∧
    acceptedNext .enc (queued [1] (.csrRead 0x3FF)) = none ∧ acceptedNext .dec (queued [1] (.csrRead 0x3FF)) = none := by
  decide

/-! ### Witnesses: reset and whole-machine properties -/

theorem witness_ResetGivesEveryRegisterItsValue :
    (queued [1, 2, 3] (.rst true)).host.moves = [.rst true] ∧
    look (step (queued [1, 2, 3] (.rst true))) (fun t => t.host.rst) = some true := by decide

theorem witness_NothingIsAcceptedDuringReset :
    (coreH .B { presenting .encCmd with rst := true }).host.rst = true ∧
    look (step (coreH .B { presenting .encCmd with rst := true })) (fun t => t.host.rst) = some true := by decide

theorem witness_AfterResetNothingRunsOnItsOwn :
    (core .B).host.rst = false ∧ (core .B).host.moves = [] ∧ (1 ≤ (1#16).toNat ∧ (1#16).toNat ≤ 256) ∧
    (1 ≤ (256#16).toNat ∧ (256#16).toNat ≤ 256) := by decide

/-- A step that resets, and steps that set each flag. -/
theorem witness_StickyFlagsSetByErrorsClearedByReset :
    look (step (queued [] (.rst true))) (fun t => t.host.rst) = some true ∧
    look (step (coreH .B { HostSide.quiet with encWords := [0], moves := [.encCmd] }))
      (fun t => (t.host.rst, t.e.cill)) = some (false, true) ∧
    look (step (coreH .B { HostSide.quiet with encWords := [0x02000011], moves := [.encCmd] }))
      (fun t => (t.host.rst, t.e.cseq)) = some (false, true) ∧
    look (step (coreH .B { HostSide.quiet with decWords := [0], moves := [.decCmd] }))
      (fun t => (t.host.rst, t.d.cill)) = some (false, true) := by decide

/-- An illegal word in ERROR and a frame byte in DONE. -/
theorem witness_OnlyOpenOrResetLeavesATerminalState :
    (failedDec false).state = .error ∧ doneDec.state = .done ∧
    look (step { coreD .B (failedDec false) with host := { HostSide.quiet with decWords := [0], moves := [.decCmd] } })
      (fun t => t.host.rst) = some false ∧
    acceptedNext .dec { coreD .B (failedDec false) with
      host := { HostSide.quiet with decWords := [0], moves := [.decCmd] } } ≠ some (encode .decOpen) ∧
    look (step { coreD .B doneDec with host := presenting .decCmd }) (fun t => t.host.rst) = some false ∧
    acceptedNext .dec { coreD .B doneDec with host := presenting .decCmd } ≠ some (encode .decOpen) := by decide

/-- DEC_OPEN; a byte where D.CNT is 0 and one where it is saturated; a byte in DONE; an encoder byte. -/
theorem witness_CountersCountAndDoNotWrap :
    (coreH .B { HostSide.quiet with decWords := [0x11000000], moves := [.decCmd] }).Inv ∧
    acceptedNext .dec (coreH .B { HostSide.quiet with decWords := [0x11000000], moves := [.decCmd] }) =
      some (encode .decOpen) ∧
    acceptedNext .dec (coreH .B (presenting .decCmd)) = some (encode (.decData 0x5B)) ∧
    (coreH .B (presenting .decCmd)).d.terminal = false ∧
    (coreD .B { startedDec .B with cnt := 0xFFFF }).Inv ∧
    (coreD .B { startedDec .B with cnt := 0xFFFF }).d.terminal = false ∧
    doneDec.terminal = true ∧ (coreD .B doneDec).Inv ∧
    acceptedNext .enc (coreH .B { HostSide.quiet with encWords := [0x02000011], moves := [.encCmd] }) =
      some (encode (.encData 0x11)) :=
  ⟨⟨(inv_core .B).enc, (inv_core .B).dec⟩, by decide, by decide, by decide,
   inv_coreD (by constructor <;> decide), by decide, by decide, inv_coreD inv_done, by decide⟩

/-! ### Witnesses: what the host can read, and the assembler -/

theorem witness_ConfigurationWordsAreConstant : (core .A).build.oqDepth.val = 8 := by decide

theorem witness_EncoderStatusFields : (core .B).Inv := inv_core .B

/-- A full PBUF in DONE: every index is below D.LEN; with one byte, index 255 is not. -/
theorem witness_PbufWindowShowsOnlyADonePayload :
    0 < 256 ∧ 255 < 256 ∧ (coreD .B { filledDec 256 0 false with state := .done }).d.state = .done ∧
    255 < (coreD .B { filledDec 256 0 false with state := .done }).d.len.toNat ∧
    ¬ 255 < (coreD .B doneDec).d.len.toNat := by decide

theorem witness_ReservedOffsetsReadZero :
    (0x01C ≤ (0x01C#12).toNat ∧ (0x01C#12).toNat ≤ 0x0FF) ∧ (0x01C ≤ (0x0FF#12).toNat ∧ (0x0FF#12).toNat ≤ 0x0FF) ∧
    0x200 ≤ (0x200#12).toNat ∧ 0x200 ≤ (0xFFF#12).toNat := by decide

theorem witness_StatusWordsTellTheEndOfATransaction : (coreD .B doneDec).Inv := inv_coreD inv_done

theorem witness_AssemblerExpandsAndRefuses :
    (List.replicate 256 (0x5B : Byte)).length ≤ 256 ∧ ([] : List Byte).length ≤ 256 ∧
    (256 < (List.replicate 257 (0x5B : Byte)).length ∧ (List.replicate 257 (0x5B : Byte)).length ≤ 65535) ∧
    65535 < (List.replicate 65536 0).length ∧ assembleWords "ENC_OPEN 4".toList = some [0x01000004] := by
  simp only [List.length_replicate]
  decide

/-! ### Witnesses: the reference functions and transactions -/

/-- The words of ENC_OPEN n and n bytes 0x00, all legal. -/
theorem words_of_zeros (n : Nat) :
    legalWords .enc (encode (.encOpen (BitVec.ofNat 16 n)) :: List.replicate n (encode (.encData 0))) =
      (Instr.encOpen (BitVec.ofNat 16 (List.replicate n (0 : Byte)).length) ::
        (List.replicate n (0 : Byte)).map Instr.encData).map encode := by
  have h0 : legalOn .enc (encode (.encOpen (BitVec.ofNat 16 n))) = true := by simp [legalOn, decodeCmd, decodeEnc]
  have h1 : legalOn .enc (encode (.encData 0)) = true := by decide
  rw [legalWords, List.filter_cons_of_pos h0, List.filter_replicate_of_pos h1, List.length_replicate, List.map_cons,
    List.map_replicate, List.map_replicate]

/-- A short payload with illegal words among its commands, cut after its first byte, and the shortest payload too long. -/
theorem witness_EncodeTransactionMatchesReference :
    ((core .A).Inv ∧ (core .A).e.state = .idle) ∧
    (legalWords .enc [0x01000002, 0x00000000, 0x02000056, 0x12000041, 0x02000003] =
        (Instr.encOpen (BitVec.ofNat 16 [0x56, 0x03].length) :: [0x56, 0x03].map Instr.encData).map encode ∧
      [0x56, 0x03].length ≤ 256) ∧
    (1 < [0x56, 0x03].length ∧ legalWords .enc [0x01000002, 0x02000056] =
        (Instr.encOpen (BitVec.ofNat 16 [0x56, 0x03].length) ::
          (([0x56, 0x03] : List Byte).take 1).map Instr.encData).map encode) ∧
    (256 < (List.replicate 257 (0 : Byte)).length ∧ (List.replicate 257 (0 : Byte)).length ≤ 65535 ∧
      legalWords .enc (encode (.encOpen (BitVec.ofNat 16 257)) :: List.replicate 257 (encode (.encData 0))) =
        (Instr.encOpen (BitVec.ofNat 16 (List.replicate 257 (0 : Byte)).length) ::
          (List.replicate 257 (0 : Byte)).map Instr.encData).map encode) :=
  ⟨⟨inv_core .A, rfl⟩, by decide, by decide, by rw [List.length_replicate]; decide,
   by rw [List.length_replicate]; decide, words_of_zeros 257⟩

/-- A frame that decodes (D5), with an illegal word among its commands, and one that does not (D24). -/
theorem witness_DecodeTransactionMatchesReference :
    (core .B).d.pbuf.wf = true ∧
    (legalWords .dec [0x11000000, 0x1200005B, 0x02000011, 0x120000AA, 0x120000AA, 0x1200005D, 0x13000000] =
        (Instr.decOpen :: ([0x5B, 0xAA, 0xAA, 0x5D] : List Byte).map Instr.decData ++ [Instr.decEnd]).map encode ∧
      decodeRef .B [0x5B, 0xAA, 0xAA, 0x5D] = .ok [0xAA] ∧ decodeEnd .B [0x5B, 0xAA, 0xAA, 0x5D] = some 3) ∧
    (legalWords .dec [0x11000000, 0x1200005B, 0x120000AA, 0x120000AB, 0x1200005D, 0x13000000] =
        (Instr.decOpen :: ([0x5B, 0xAA, 0xAB, 0x5D] : List Byte).map Instr.decData ++ [Instr.decEnd]).map encode ∧
      decodeRef .B [0x5B, 0xAA, 0xAB, 0x5D] = .err .checksumMismatch 3 (some (0xAB, 0xAA))) ∧
    decodeEnd .B [0x5B, 0x5E] = none := by decide

/-- One payload for each class of the checksum (V2, V13, V14, V15). -/
theorem witness_RoundTripByChecksumClass :
    (encodeRef .B [0xFF, 0x01] = some [0x5B, 0xFF, 0x01, 0x00, 0x5D] ∧ reserved .B (checksum [0xFF, 0x01]) = false) ∧
    (encodeRef .B [0x5B] = some [0x5B, 0x5E, 0x7B, 0x5B, 0x5D] ∧ checksum [0x5B] = startByte .B) ∧
    (encodeRef .B [0x5D] = some [0x5B, 0x5E, 0x7D, 0x5D, 0x5D] ∧ checksum [0x5D] = termByte .B) ∧
    (encodeRef .B [0x5E] = some [0x5B, 0x5E, 0x7E, 0x5E, 0x5D] ∧ checksum [0x5E] = escapeByte .B) := by decide

/-- A canonical frame, and one for each condition that fails (D25, D21, D34). -/
theorem witness_DecodedFrameIsCanonicalUnderThreeConditions :
    (decodeRef .B [0x5B, 0xAA, 0xAA, 0x5D] = .ok [0xAA] ∧ encodeRef .B [0xAA] = some [0x5B, 0xAA, 0xAA, 0x5D]) ∧
    (decodeRef .B [0x5B, 0xAA, 0xAA, 0x5D, 0x11, 0x22] = .ok [0xAA]) ∧
    (decodeRef .B [0x5B, 0x5E, 0x00, 0x20, 0x5D] = .ok [0x20]) ∧
    (decodeRef .B [0x5B, 0x11, 0x5E, 0x31, 0x5D] = .ok [0x11] ∧
      encodeRef .B [0x11] ≠ some [0x5B, 0x11, 0x5E, 0x31, 0x5D]) := by decide

/-- K1, K3, K4, K5 and K7: one payload for each row of R233. -/
theorem witness_CorruptedChecksumByClass :
    (reserved .B (checksum [0xAA]) = false ∧ encodeRef .B [0xAA] = some [0x5B, 0xAA, 0xAA, 0x5D] ∧
      reserved .B 0xAB = false) ∧
    (encodeRef .B [0x5A] = some [0x5B, 0x5A, 0x5A, 0x5D] ∧ checksum [0x5A] + 1 = startByte .B) ∧
    (encodeRef .A [0x24] = some [0x56, 0x24, 0x24, 0x65] ∧ checksum [0x24] + 1 = escapeByte .A) ∧
    (encodeRef .B [0x5C] = some [0x5B, 0x5C, 0x5C, 0x5D] ∧ checksum [0x5C] + 1 = termByte .B) ∧
    (encodeRef .B [0x2E, 0x2E] = some [0x5B, 0x2E, 0x2E, 0x5C, 0x5D] ∧ checksum [0x2E, 0x2E] + 1 = termByte .B ∧
      (0x2E : Byte) + 0x2E = checksum [0x2E, 0x2E]) := by decide

theorem witness_EncodedFrameStructure :
    encodeRef .A [0x56, 0x65, 0x25] = some [0x56, 0x25, 0x76, 0x25, 0x45, 0x25, 0x05, 0xE0, 0x65] := by decide

/-- A frame for each stray value, and an ESCAPE of the checksum before TERM (V17 to V19). -/
theorem witness_RawChecksumIsTheOnlyStrayReservedByte :
    encodeRef .A [0x56] = some [0x56, 0x25, 0x76, 0x56, 0x65] ∧
    encodeRef .A [0x65] = some [0x56, 0x25, 0x45, 0x65, 0x65] ∧
    encodeRef .A [0x25] = some [0x56, 0x25, 0x05, 0x25, 0x65] ∧
    ([0x56, 0x25, 0x05, 0x25, 0x65] : List Byte)[3]? = some (escapeByte .A) := by decide

/-! ### Witnesses: invariants and runs -/

theorem witness_EveryStepKeepsTheInvariant : (core .B).Inv ∧ ∃ t, step (core .B) = .next t := ⟨inv_core .B, ⟨_, rfl⟩⟩

theorem witness_ResetMeetsTheInvariant : Memory.wf [(0, 0xAA), (255, 0x01)] = true := by decide

theorem witness_DonePayloadSumsToReceivedChecksum :
    (coreD .B doneDec).Inv ∧ (coreD .B doneDec).d.SumInv ∧ (coreD .B doneDec).d.state = .done ∧
    ∃ t, step (coreD .B doneDec) = .next t :=
  ⟨inv_coreD inv_done, ⟨by decide, by decide⟩, rfl, ⟨_, rfl⟩⟩

/-- Two states that differ at index 1, just past the one stored byte, and D.LEN = 0. -/
theorem witness_UnseenPbufBytesNeverMatter :
    (coreD .B doneDec).d.pbuf.wf = true ∧ (coreD .B { doneDec with pbuf := [(0, 0xAA), (1, 0x77)] }).d.pbuf.wf = true ∧
    (coreD .B doneDec).sameButUnseen (coreD .B { doneDec with pbuf := [(0, 0xAA), (1, 0x77)] }) ∧
    (core .B).d.len = 0 := by
  refine ⟨by decide, by decide, ⟨rfl, fun i hi => ?_⟩, rfl⟩
  have : i = 0 := by
    have h1 : (coreD .B doneDec).d.len.toNat = 1 := by decide
    omega
  subst this
  decide

theorem witness_EnginesDependOnlyOnTheirAcceptedWords :
    noReset 2 (queued [1] .encCmd) ∧ acceptedIn .enc 2 (queued [1] .encCmd) = [0x01000100] :=
  ⟨⟨rfl, by decide⟩, by decide⟩

/-- Five bytes queued: five transfers, then the handshake. -/
theorem witness_DrainingHostGetsItsWordAccepted :
    (queued [1, 2, 3, 4, 5] .encCmd).host.rst = false ∧ (queued [1, 2, 3, 4, 5] .encCmd).host.encWords = [0x01000100] ∧
    (setMoves (List.replicate 5 .encPop ++ [.encCmd]) (queued [1, 2, 3, 4, 5] .encCmd)).host.moves =
      List.replicate (queued [1, 2, 3, 4, 5] .encCmd).e.eoq.length .encPop ++ .encCmd :: [] := by decide

/-- The core built as variant B runs its own START (D2), and the one built as A takes the same byte as an error (D11). -/
theorem test_machine_of_build :
    (match stepOf { variant := .B, oqDepth := .reference }
        { (core .B).live with host := { HostSide.quiet with decWords := [0x1200005B], moves := [.decCmd] } } with
      | .next r => some r.d.state | .fault _ => none | .refused _ => none) = some .scanBody ∧
    (match stepOf { variant := .A, oqDepth := .reference }
        { (core .A).live with host := { HostSide.quiet with decWords := [0x1200005B], moves := [.decCmd] } } with
      | .next r => some r.d.err | .fault _ => none | .refused _ => none) = some .missingStartByte := by decide

end Sys2Proof.Machine.Tests
end

-- Proofs: the scope rules (spec/00_scope.md)
section
/-! PROOFS. What spec/00_scope.md says of the machine as a whole: the protocol constants, the structure of an encoded frame, a
step and a command for every state, and the build as an argument. -/

namespace Sys2Proof.Machine

/-! ### Constants (R8, R9) -/

theorem reserved_startByte (v : Variant) : reserved v (startByte v) = true := (reserved_iff v _).mpr (.inl rfl)

theorem reserved_termByte (v : Variant) : reserved v (termByte v) = true := (reserved_iff v _).mpr (.inr (.inl rfl))

theorem reserved_escapeByte (v : Variant) : reserved v (escapeByte v) = true := (reserved_iff v _).mpr (.inr (.inr rfl))

/-- MASK is no member of R (R8). -/
theorem reserved_maskByte (v : Variant) : reserved v (maskByte v) = false := by cases v <;> decide

/-- The mask takes every member of R out of R (R9). -/
theorem reserved_masked_of_reserved {v : Variant} {r : Byte} (h : reserved v r = true) :
    reserved v (masked v r) = false := by
  rcases (reserved_iff v r).mp h with rfl | rfl | rfl <;> cases v <;> decide

/-- Settles O1: the values by evaluation in each variant, the rest from the facts about the reserved set. -/
theorem protocolConstantsAndMaskedForms : Obligations.ProtocolConstantsAndMaskedForms := by
  refine ⟨by decide, by decide, by decide, by decide, fun v =>
    ⟨startByte_ne_termByte v, startByte_ne_escapeByte v, termByte_ne_escapeByte v, startByte_ne_zero v, ?_,
      reserved_maskByte v, reserved_iff v, fun _ => reserved_masked_of_reserved⟩⟩
  cases v <;> decide

/-! ### The escaped body (R111, R113) -/

theorem bodyElement_of_reserved {v : Variant} {b : Byte} (h : reserved v b = true) :
    bodyElement v b = [escapeByte v, masked v b] := if_pos h

theorem bodyElement_of_not_reserved {v : Variant} {b : Byte} (h : reserved v b = false) : bodyElement v b = [b] := by
  simp [bodyElement, h]

@[simp] theorem escapedBody_nil (v : Variant) : escapedBody v [] = [] := rfl

@[simp] theorem escapedBody_cons (v : Variant) (b : Byte) (p : List Byte) :
    escapedBody v (b :: p) = bodyElement v b ++ escapedBody v p := List.flatMap_cons

/-- A body has one byte for each payload byte and one more for each reserved one. -/
theorem escapedBody_length (v : Variant) (p : List Byte) :
    (escapedBody v p).length = p.length + p.countP (reserved v) := by
  induction p with
  | nil => rfl
  | cons b p ih =>
    rw [escapedBody_cons, List.length_append, bodyElement_length, ih, List.countP_cons, List.length_cons]
    split <;> omega

/-- Every byte of a body is ESCAPE or not reserved. -/
theorem eq_escapeByte_or_not_reserved_of_mem_escapedBody {v : Variant} {p : List Byte} {x : Byte}
    (h : x ∈ escapedBody v p) : x = escapeByte v ∨ reserved v x = false := by
  obtain ⟨b, -, hx⟩ := List.mem_flatMap.mp h
  cases hb : reserved v b with
  | true =>
    rw [bodyElement_of_reserved hb, List.mem_pair] at hx
    rcases hx with rfl | rfl
    · exact .inl rfl
    · exact .inr (reserved_masked_of_reserved hb)
  | false =>
    rw [bodyElement_of_not_reserved hb, List.mem_singleton] at hx
    exact .inr (hx ▸ hb)

theorem startByte_notMem_escapedBody (v : Variant) (p : List Byte) : startByte v ∉ escapedBody v p := fun h =>
  (eq_escapeByte_or_not_reserved_of_mem_escapedBody h).elim (startByte_ne_escapeByte v)
    (by simp [reserved_startByte])

theorem termByte_notMem_escapedBody (v : Variant) (p : List Byte) : termByte v ∉ escapedBody v p := fun h =>
  (eq_escapeByte_or_not_reserved_of_mem_escapedBody h).elim (termByte_ne_escapeByte v)
    (by simp [reserved_termByte])

/-- Every ESCAPE of a body opens a pair: a masked reserved value follows it. The second byte of a pair is not reserved,
so it is no ESCAPE itself. -/
theorem escapedBody_escape_followed (v : Variant) (p : List Byte) (i : Nat)
    (h : (escapedBody v p)[i]? = some (escapeByte v)) :
    ∃ r, reserved v r = true ∧ (escapedBody v p)[i + 1]? = some (masked v r) := by
  induction p generalizing i with
  | nil => simp at h
  | cons b p ih =>
    cases hb : reserved v b with
    | true =>
      rw [escapedBody_cons, bodyElement_of_reserved hb] at h ⊢
      match i, h with
      | 0, _ => exact ⟨b, hb, rfl⟩
      | 1, h =>
        have hm : masked v b = escapeByte v := Option.some.inj h
        have hr := reserved_masked_of_reserved hb
        rw [hm, reserved_escapeByte] at hr
        cases hr
      | i + 2, h => exact ih i h
    | false =>
      rw [escapedBody_cons, bodyElement_of_not_reserved hb] at h ⊢
      match i, h with
      | 0, h =>
        have hbe : b = escapeByte v := Option.some.inj h
        rw [hbe, reserved_escapeByte] at hb
        cases hb
      | i + 1, h => exact ih i h

/-! ### The frame (R110, R112, R162) -/

theorem frameOf_eq (v : Variant) (p : List Byte) :
    frameOf v p = [startByte v] ++ escapedBody v p ++ [checksum p, termByte v] := rfl

/-- Encode answers the frame of every payload of at most MAX_PACKET_SIZE bytes, and nothing else (R160). -/
theorem encodeRef_eq_some {v : Variant} {p f : List Byte} :
    encodeRef v p = some f ↔ p.length ≤ 256 ∧ f = frameOf v p := by
  unfold encodeRef maxPacket
  split
  case isTrue h => simp [Nat.not_le.mpr h]
  case isFalse h => simp [Nat.not_lt.mp h, eq_comm]

theorem frameOf_length (v : Variant) (p : List Byte) :
    (frameOf v p).length = p.length + p.countP (reserved v) + 3 := by
  simp only [frameOf_eq, List.length_append, List.length_cons, List.length_nil, escapedBody_length]
  omega

theorem frameOf_head? (v : Variant) (p : List Byte) : (frameOf v p).head? = some (startByte v) := rfl

theorem frameOf_getLast? (v : Variant) (p : List Byte) : (frameOf v p).getLast? = some (termByte v) := by
  rw [frameOf_eq, List.getLast?_append]
  rfl

/-- The byte before the last is the raw checksum (R112). -/
theorem frameOf_checksum (v : Variant) (p : List Byte) :
    (frameOf v p)[(frameOf v p).length - 2]? = some (checksum p) := by
  simp [frameOf_eq]

/-- No frame that Encode answers is longer than MAX_FRAME_LEN (R10): at worst every payload byte is reserved. -/
theorem frameOf_length_le {v : Variant} {p : List Byte} (h : p.length ≤ 256) : (frameOf v p).length ≤ 515 := by
  have hc : p.countP (reserved v) ≤ p.length := List.countP_le_length
  rw [frameOf_length]
  omega

/-- MAX_FRAME_LEN is the length of the frame of 256 reserved bytes. -/
theorem frameOf_length_replicate_startByte (v : Variant) :
    (frameOf v (List.replicate 256 (startByte v))).length = 515 := by
  rw [frameOf_length, List.countP_replicate, if_pos (reserved_startByte v), List.length_replicate]

/-- Settles O51, from the escaped body by induction over the payload. -/
theorem encodedFrameStructure : Obligations.EncodedFrameStructure := by
  refine ⟨fun v p f hf => ?_, fun v => ⟨[], _, encodeRef_eq_some.mpr ⟨by decide, rfl⟩, rfl⟩, fun v =>
    ⟨List.replicate 256 (startByte v), _, encodeRef_eq_some.mpr ⟨List.length_replicate.le, rfl⟩,
      frameOf_length_replicate_startByte v⟩, rfl⟩
  obtain ⟨hp, rfl⟩ := encodeRef_eq_some.mp hf
  have hlen := frameOf_length v p
  refine ⟨frameOf_head? v p, frameOf_getLast? v p, frameOf_checksum v p, hlen, by omega, frameOf_length_le hp,
    escapedBody v p, frameOf_eq v p, startByte_notMem_escapedBody v p, termByte_notMem_escapedBody v p, fun i hi => ?_⟩
  obtain ⟨r, hr, hnext⟩ := escapedBody_escape_followed v p i hi
  exact ⟨r, hr, hnext, reserved_masked_of_reserved hr⟩

/-! ### Every step goes on (R7, R12, R300) -/

theorem acceptWord_answers_next (p : Port) (w : Word32) (s : State) : ∃ t, acceptWord p w s = .next t := by
  cases p with
  | enc => exact ⟨_, acceptWord_enc w s⟩
  | dec => exact ⟨_, acceptWord_dec w s⟩

theorem portStep_answers_next (p : Port) (s : State) : ∃ t, portStep p s = .next t := by
  unfold portStep
  split
  · exact acceptWord_answers_next p _ _
  · exact ⟨_, rfl⟩

theorem hostStep_answers_next (m : HostMove) (s : State) : ∃ t, hostStep m s = .next t := by
  cases m with
  | encCmd => exact portStep_answers_next .enc s
  | decCmd => exact portStep_answers_next .dec s
  | encPop => exact ⟨_, rfl⟩
  | csrRead addr => exact ⟨_, rfl⟩
  | rst level => exact ⟨_, rfl⟩

theorem step_answers_next (s : State) : ∃ t, step s = .next t := by
  unfold step runNextMove
  split
  · exact ⟨_, rfl⟩
  · exact hostStep_answers_next _ _

/-- Settles O35: every host move has an outcome, and no outcome has another build. -/
theorem everyStepGoesOnWithTheSameBuild : Obligations.EveryStepGoesOnWithTheSameBuild := fun s =>
  (step_answers_next s).imp fun _ h => ⟨h, (step_engines h).1⟩

/-! ### The build as an argument (R7) -/

/-- A command changes E or D alone, so never the build. -/
theorem exec_answers_next (i : Instr) (s : State) : ∃ t, exec i s = .next t ∧ t.build = s.build := by
  cases i with
  | encOpen len => exact ⟨_, exec_encOpen len s, rfl⟩
  | encData b => exact ⟨_, exec_encData b s, rfl⟩
  | encAbort => exact ⟨_, exec_encAbort s, rfl⟩
  | decOpen => exact ⟨_, exec_decOpen s, rfl⟩
  | decData b => exact ⟨_, exec_decData b s, rfl⟩
  | decEnd => exact ⟨_, exec_decEnd s, rfl⟩

theorem execOf_answers_next (b : Build) (i : Instr) (r : Live) :
    ∃ r' : Live, execOf b i r = .next r' ∧ exec i (r.on b) = .next (r'.on b) := by
  obtain ⟨t, ht, hb⟩ := exec_answers_next i (r.on b)
  rw [Live.on_build] at hb
  refine ⟨t.live, ?_, ?_⟩
  · rw [execOf, ht, liveOutcome]
  · rw [State.live_on_of_build hb, ht]

theorem stepOf_answers_next (b : Build) (r : Live) :
    ∃ r' : Live, stepOf b r = .next r' ∧ step (r.on b) = .next (r'.on b) := by
  obtain ⟨t, ht, hb⟩ := everyStepGoesOnWithTheSameBuild (r.on b)
  rw [Live.on_build] at hb
  have hlive : step (r.on b) = .next (t.live.on b) := by rw [State.live_on_of_build hb, ht]
  exact ⟨t.live, stepOf_next.mpr hlive, hlive⟩

/-- A run of `core` goes on from what its first step answers. -/
theorem core_run_succ {s t : State} (k : Nat) (h : step s = .next t) :
    Host.Core.run Sys2Proof.core (k + 1) s = Host.Core.run Sys2Proof.core k t := by
  have h' : Sys2Proof.core.step s = .next t := h
  simp only [Host.Core.run]
  rw [h']

/-- Runs of any length: the core built with `b` and `core` on the state that carries `b` stay in step. -/
theorem machine_run_eq_core_run (b : Build) (k : Nat) (r : Live) :
    ∃ r' : Live, Host.Core.run (machine b) k r = .next r' ∧
      Host.Core.run Sys2Proof.core k (r.on b) = .next (r'.on b) := by
  induction k generalizing r with
  | zero => exact ⟨r, rfl, rfl⟩
  | succ k ih =>
    obtain ⟨r₁, hmachine, hcore⟩ := stepOf_answers_next b r
    rw [machine_run_succ k hmachine, core_run_succ k hcore]
    exact ih r₁

/-- Settles O59: commands one by one, runs by induction on their length, and each engine's word under the variant of `b`. -/
theorem variantIsAnArgumentOfTheWholeMachine : Obligations.VariantIsAnArgumentOfTheWholeMachine := fun b r =>
  ⟨fun i => execOf_answers_next b i r, fun k => machine_run_eq_core_run b k r,
    fun w => ⟨acceptWord_enc w (r.on b), acceptWord_dec w (r.on b)⟩, rfl⟩

end Sys2Proof.Machine
end

-- Proofs: the state (spec/10_state.md)
section
/-! PROOFS. The state over a step and over a command: decoding and encoding agree, what a step does to each engine, the
invariants of the machine, the frames of the commands, the sticky flags and counters, and what the CSR words show. -/

namespace Sys2Proof.Machine

/-! ### Command words: decode and encode -/

/-- Every port decodes the encoding of its own command (R116 to R120). -/
theorem decodeCmd_encode (i : Instr) : decodeCmd i.port (encode i) = .cmd i := by
  cases i <;> simp [decodeCmd, Instr.port, decodeEnc, decodeDec]

theorem encode_of_decodeEnc {w : Word32} {i : Instr} (hr : rsvOf w = 0x00#8) (h : decodeEnc w = .cmd i) :
    w = encode i := by
  rw [← word_eq_fields w, hr]
  unfold decodeEnc at h
  split_ifs at h with h1 h2 h3 h4 h5 <;> cases h
  · rw [h1]; rfl
  · rw [h2, ← imm_eq_bytes, h3, ← formB_eq_fields]; rfl
  · rw [h4, h5]; rfl

theorem encode_of_decodeDec {w : Word32} {i : Instr} (hr : rsvOf w = 0x00#8) (h : decodeDec w = .cmd i) :
    w = encode i := by
  rw [← word_eq_fields w, hr]
  unfold decodeDec at h
  split_ifs at h with h1 h2 h3 h4 h5 h6 <;> cases h
  · rw [h1, h2]; rfl
  · rw [h3, ← imm_eq_bytes, h4, ← formB_eq_fields]; rfl
  · rw [h5, h6]; rfl

/-- A word a port decodes to a command is that command's encoding. -/
theorem encode_of_decodeCmd {p : Port} {w : Word32} {i : Instr} (h : decodeCmd p w = .cmd i) : w = encode i := by
  have hr := rsvOf_of_decode h
  unfold decodeCmd at h
  rw [if_neg (not_not.mpr hr)] at h
  cases p with
  | enc => exact encode_of_decodeEnc hr h
  | dec => exact encode_of_decodeDec hr h

theorem decodeEither_encode (i : Instr) : decodeEither (encode i) = some i := by
  cases i <;> simp [decodeEither, decodeCmd, decodeEnc, decodeDec]

/-- No word encodes two commands (R118). -/
theorem encode_inj {i j : Instr} : encode i = encode j ↔ i = j :=
  ⟨fun h => Option.some.inj (by rw [← decodeEither_encode i, h, decodeEither_encode]), congrArg encode⟩

/-- The encoding of a port's command is legal there (R119). -/
theorem legalOn_encode {p : Port} {i : Instr} (h : i.port = p) : legalOn p (encode i) = true :=
  h ▸ legalOn_of_decode (decodeCmd_encode i)

/-- An illegal word encodes no command of the port. -/
theorem ne_encode_of_illegal {p : Port} {w : Word32} (h : legalOn p w = false) {i : Instr} (hp : i.port = p) :
    w ≠ encode i := fun hw => by
  rw [hw, legalOn_encode hp] at h
  cases h

/-! ### The words of a port, case by case -/

theorem encWord_encode_encOpen (v : Variant) (e : Enc) (len : BitVec 16) :
    encWord v e (encode (.encOpen len)) = encOpenStep v len e := by
  rw [encWord, show decodeCmd .enc _ = _ from decodeCmd_encode (.encOpen len)]

theorem encWord_encode_encData (v : Variant) (e : Enc) (b : Byte) :
    encWord v e (encode (.encData b)) = encDataStep v b e := by
  rw [encWord, show decodeCmd .enc _ = _ from decodeCmd_encode (.encData b)]

theorem encWord_encode_encAbort (v : Variant) (e : Enc) : encWord v e (encode .encAbort) = encAbortStep e := by
  rw [encWord, show decodeCmd .enc _ = _ from decodeCmd_encode .encAbort]

theorem decWord_encode_decOpen (v : Variant) (d : Dec) : decWord v d (encode .decOpen) = d.restart := by
  rw [decWord, show decodeCmd .dec _ = _ from decodeCmd_encode .decOpen]

theorem decWord_encode_decData (v : Variant) (d : Dec) (b : Byte) :
    decWord v d (encode (.decData b)) = decDataStep v b d := by
  rw [decWord, show decodeCmd .dec _ = _ from decodeCmd_encode (.decData b)]

theorem decWord_encode_decEnd (v : Variant) (d : Dec) : decWord v d (encode .decEnd) = decEndStep d := by
  rw [decWord, show decodeCmd .dec _ = _ from decodeCmd_encode .decEnd]

/-- A word on a port is illegal there or the encoding of a command of the port (R119 to R121). -/
theorem word_cases (p : Port) (w : Word32) :
    (legalOn p w = false ∧ ∃ why, decodeCmd p w = .illegal why) ∨ ∃ i : Instr, i.port = p ∧ w = encode i := by
  cases h : decodeCmd p w with
  | illegal why => exact .inl ⟨by simp [legalOn, h], why, rfl⟩
  | cmd i => exact .inr ⟨i, port_of_decode h, encode_of_decodeCmd h⟩

/-- What a word on `enc_cmd` can be to E. -/
theorem encWord_cases (v : Variant) (e : Enc) (w : Word32) :
    (legalOn .enc w = false ∧ encWord v e w = e.illegalCommand) ∨
    (∃ len, w = encode (.encOpen len) ∧ encWord v e w = encOpenStep v len e) ∨
    (∃ b, w = encode (.encData b) ∧ encWord v e w = encDataStep v b e) ∨
    (w = encode .encAbort ∧ encWord v e w = encAbortStep e) := by
  rcases word_cases .enc w with ⟨hl, why, hw⟩ | ⟨i, hp, rfl⟩
  · exact .inl ⟨hl, by rw [encWord, hw]⟩
  · right
    cases i with
    | encOpen len => exact .inl ⟨len, rfl, encWord_encode_encOpen v e len⟩
    | encData b => exact .inr (.inl ⟨b, rfl, encWord_encode_encData v e b⟩)
    | encAbort => exact .inr (.inr ⟨rfl, encWord_encode_encAbort v e⟩)
    | decOpen | decData | decEnd => cases hp

/-- What a word on `dec_cmd` can be to D. -/
theorem decWord_cases (v : Variant) (d : Dec) (w : Word32) :
    (legalOn .dec w = false ∧ decWord v d w = d.illegalCommand) ∨
    (w = encode .decOpen ∧ decWord v d w = d.restart) ∨
    (∃ b, w = encode (.decData b) ∧ decWord v d w = decDataStep v b d) ∨
    (w = encode .decEnd ∧ decWord v d w = decEndStep d) := by
  rcases word_cases .dec w with ⟨hl, why, hw⟩ | ⟨i, hp, rfl⟩
  · exact .inl ⟨hl, by rw [decWord, hw]⟩
  · right
    cases i with
    | decOpen => exact .inl ⟨rfl, decWord_encode_decOpen v d⟩
    | decData b => exact .inr (.inl ⟨b, rfl, decWord_encode_decData v d b⟩)
    | decEnd => exact .inr (.inr ⟨rfl, decWord_encode_decEnd v d⟩)
    | encOpen | encData | encAbort => cases hp

/-! ### An engine over a step -/

/-- A step that ends with `rst` = 1 leaves both engines at their reset values (R340). -/
theorem engines_of_step_reset {s t : State} (h : step s = .next t) (hr : t.host.rst = true) :
    t.e = Enc.reset ∧ t.d = Dec.resetOver s.d.pbuf := by
  rcases (step_engines h).2 with ⟨-, he, hd, -⟩ | ⟨hr', -⟩ | ⟨hr', -⟩
  · exact ⟨he, hd⟩
  all_goals simp [hr] at hr'

/-- Outside reset D takes the word its port accepts, or stays as it is. -/
theorem dec_of_step {s t : State} (h : step s = .next t) (hr : t.host.rst = false) :
    (acceptedNext .dec s = none ∧ t.d = s.d) ∨
    ∃ w, acceptedNext .dec s = some w ∧ t.d = decWord s.build.variant s.d w := by
  rcases (step_engines h).2 with ⟨hr', -⟩ | ⟨-, -, -, -, hword, hnone⟩ | ⟨-, -, hnone, hd, -⟩
  · simp [hr] at hr'
  · cases hw : acceptedNext .dec s with
    | none => exact .inl ⟨rfl, hnone hw⟩
    | some w => exact .inr ⟨w, rfl, hword w hw⟩
  · exact .inl ⟨hnone, hd⟩

/-- Outside reset E takes the word its port accepts, or at most loses the head of EOQ to the host. -/
theorem enc_of_step {s t : State} (h : step s = .next t) (hr : t.host.rst = false) :
    (acceptedNext .enc s = none ∧ ∃ q, q <:+ s.e.eoq ∧ t.e = { s.e with eoq := q }) ∨
    ∃ w, acceptedNext .enc s = some w ∧ t.e = encWord s.build.variant s.e w := by
  rcases (step_engines h).2 with ⟨hr', -⟩ | ⟨-, -, hword, hnone, -, -⟩ | ⟨-, hnone, -, -, -, b, bs, hq, he, -⟩
  · simp [hr] at hr'
  · cases hw : acceptedNext .enc s with
    | none => exact .inl ⟨rfl, _, List.suffix_rfl, hnone hw⟩
    | some w => exact .inr ⟨w, rfl, hword w hw⟩
  · exact .inl ⟨hnone, bs, hq ▸ List.suffix_cons b bs, he⟩

/-- A word is accepted on `enc_cmd` only with room for the four bytes a command can emit (R150). -/
theorem room_of_acceptedNext {s : State} {w : Word32} (h : acceptedNext .enc s = some w) :
    s.e.eoq.length + 4 ≤ s.build.oqDepth.val := by
  obtain ⟨-, -, -, -, hready⟩ := acceptedNext_eq_some.mp h
  simp only [cmdReady, encCmdReady, Bool.and_eq_true, decide_eq_true_eq] at hready
  exact hready.2

/-! ### The encoder's invariant (R58 items 1 and 2) -/

theorem Enc.inv_reset (depth : Nat) : Enc.reset.Inv depth :=
  ⟨fun h => (nomatch h), fun _ => rfl, Nat.zero_le _⟩

/-- Taking bytes from EOQ keeps the invariant. -/
theorem Enc.Inv.of_suffix {depth : Nat} {e : Enc} (h : e.Inv depth) {q : List Byte} (hq : q <:+ e.eoq) :
    ({ e with eoq := q } : Enc).Inv depth :=
  ⟨h.body_rem, h.idle_rem, hq.length_le.trans h.eoq_bounded⟩

theorem bodyElement_length_le (v : Variant) (b : Byte) : (bodyElement v b).length ≤ 2 := by
  rw [bodyElement_length]
  split <;> omega

/-- ENC_OPEN emits at most three bytes and leaves E.REM between 1 and 256 when it opens a frame. -/
theorem Enc.Inv.encOpenStep {depth : Nat} {e : Enc} (h : e.Inv depth) (hroom : e.eoq.length + 4 ≤ depth) (v : Variant)
    (len : BitVec 16) : (encOpenStep v len e).Inv depth := by
  rcases encOpenStep_cases v len e with ⟨-, he⟩ | ⟨-, -, he⟩ | ⟨hs, -, he⟩ | ⟨-, h1, h2, he⟩ <;> rw [he]
  · exact ⟨h.body_rem, h.idle_rem, h.eoq_bounded⟩
  · exact ⟨h.body_rem, h.idle_rem, h.eoq_bounded⟩
  · refine ⟨h.body_rem, h.idle_rem, ?_⟩
    simp only [List.length_append, List.length_cons, List.length_nil]
    omega
  · refine ⟨fun _ => ?_, fun hidle => (nomatch hidle), ?_⟩
    · simp only [BitVec.toNat_ofNat, maxPacket]
      omega
    · simp only [List.length_append, List.length_cons, List.length_nil]
      omega

/-- E.REM counts down by one without a wrap (R47). -/
theorem rem_sub_one_toNat {r : BitVec 9} (h : 1 ≤ r.toNat) : (r - 1).toNat = r.toNat - 1 := by
  bv_omega

/-- ENC_DATA emits at most four bytes and counts E.REM down to 0, where it closes the frame. -/
theorem Enc.Inv.encDataStep {depth : Nat} {e : Enc} (h : e.Inv depth) (hroom : e.eoq.length + 4 ≤ depth) (v : Variant)
    (b : Byte) : (encDataStep v b e).Inv depth := by
  have hel := bodyElement_length_le v b
  rcases encDataStep_cases v b e with ⟨-, he⟩ | ⟨hs, hr, he⟩ | ⟨-, -, he⟩ <;> rw [he]
  · exact ⟨h.body_rem, h.idle_rem, h.eoq_bounded⟩
  · obtain ⟨hlow, hhigh⟩ := h.body_rem hs
    have hne : e.rem.toNat ≠ 1 := fun hc => hr (BitVec.eq_of_toNat_eq hc)
    refine ⟨fun _ => ?_, fun hidle => ?_, ?_⟩
    · simp only [rem_sub_one_toNat hlow]
      omega
    · exact absurd (hs.symm.trans hidle) (by decide)
    · simp only [List.length_append]
      omega
  · refine ⟨fun hbody => (nomatch hbody), fun _ => rfl, ?_⟩
    simp only [List.length_append, List.length_cons, List.length_nil]
    omega

theorem Enc.Inv.encAbortStep {depth : Nat} {e : Enc} (h : e.Inv depth) : (encAbortStep e).Inv depth := by
  rcases e.idle_or_body with hs | hs
  · rw [encAbortStep_idle e hs]
    exact h
  · rw [encAbortStep_body e hs]
    exact ⟨fun hbody => (nomatch hbody), fun _ => rfl, h.eoq_bounded⟩

/-- Every word accepted with room keeps the encoder's invariant. -/
theorem Enc.Inv.encWord {depth : Nat} {e : Enc} (h : e.Inv depth) (hroom : e.eoq.length + 4 ≤ depth) (v : Variant)
    (w : Word32) : (encWord v e w).Inv depth := by
  rcases encWord_cases v e w with ⟨-, he⟩ | ⟨len, -, he⟩ | ⟨b, -, he⟩ | ⟨-, he⟩ <;> rw [he]
  · exact ⟨h.body_rem, h.idle_rem, h.eoq_bounded⟩
  · exact h.encOpenStep hroom v len
  · exact h.encDataStep hroom v b
  · exact h.encAbortStep

theorem Enc.Inv.step {s t : State} (hinv : s.e.Inv s.build.oqDepth.val) (h : step s = .next t) :
    t.e.Inv s.build.oqDepth.val := by
  cases hr : t.host.rst with
  | true => exact (engines_of_step_reset h hr).1 ▸ Enc.inv_reset _
  | false =>
    rcases enc_of_step h hr with ⟨-, q, hq, he⟩ | ⟨w, hw, he⟩ <;> rw [he]
    · exact hinv.of_suffix hq
    · exact hinv.encWord (room_of_acceptedNext hw) _ w

/-! ### The decoder's invariant (R58 items 3 to 7, R39, R43) -/

theorem Dec.inv_resetOver (v : Variant) {m : Memory} (hm : m.wf = true) : (Dec.resetOver m).Inv v where
  err_iff := by simp [Dec.resetOver]
  len_bounded := Nat.zero_le _
  ovf_full := fun h => nomatch h
  no_element := fun _ => ⟨rfl, rfl, rfl⟩
  start_clean := fun _ => ⟨rfl, rfl, rfl, rfl⟩
  done_valid := fun h => nomatch h
  hold_start := fun _ h => by rcases h with h | h <;> cases h
  epos_error := fun _ => rfl
  pbuf_wf := hm

/-- The sticky flag is in no clause. -/
theorem Dec.Inv.with_cill {v : Variant} {d : Dec} (h : d.Inv v) (c : Bool) : ({ d with cill := c } : Dec).Inv v :=
  ⟨h.err_iff, h.len_bounded, h.ovf_full, h.no_element, h.start_clean, h.done_valid, h.hold_start, h.epos_error,
    h.pbuf_wf⟩

theorem Dec.Inv.restart {v : Variant} {d : Dec} (h : d.Inv v) : d.restart.Inv v :=
  (Dec.inv_resetOver v h.pbuf_wf).with_cill d.cill

/-- Only EXPECT_START asks for a count of 0. -/
theorem Dec.Inv.countByte {v : Variant} {d : Dec} (h : d.Inv v) (hs : d.state ≠ .expectStart) : d.countByte.Inv v :=
  ⟨h.err_iff, h.len_bounded, h.ovf_full, h.no_element, fun hc => absurd hc hs, h.done_valid, h.hold_start,
    h.epos_error, h.pbuf_wf⟩

/-- The entry into ERROR, from any state and with any count and received checksum (R218). -/
theorem Dec.Inv.raise {v : Variant} {d : Dec} (h : d.Inv v) {k : DecErr} (hk : k ≠ .noError) (cnt pos : BitVec 16)
    (r : Byte) : (({ d with cnt := cnt, rchk := r } : Dec).raise k pos).Inv v where
  err_iff := by simp [hk]
  len_bounded := h.len_bounded
  ovf_full := h.ovf_full
  no_element := h.no_element
  start_clean := fun hc => nomatch hc
  done_valid := fun hc => nomatch hc
  hold_start := fun _ hc => by rcases hc with hc | hc <;> cases hc
  epos_error := fun hc => absurd rfl hc
  pbuf_wf := h.pbuf_wf

/-- START in EXPECT_START (R203). -/
theorem Dec.Inv.start {v : Variant} {d : Dec} (h : d.Inv v) (hs : d.state = .expectStart) :
    ({ d.countByte with hold := startByte v, state := .scanBody } : Dec).Inv v where
  err_iff := by simpa [hs] using h.err_iff
  len_bounded := h.len_bounded
  ovf_full := h.ovf_full
  no_element := h.no_element
  start_clean := fun hc => nomatch hc
  done_valid := fun hc => nomatch hc
  hold_start := fun _ _ => rfl
  epos_error := fun _ => h.epos_error (by simp [hs])
  pbuf_wf := h.pbuf_wf

/-- A move between SCAN_BODY and ESCAPE_PENDING. -/
theorem Dec.Inv.scan {v : Variant} {d : Dec} (h : d.Inv v) (hs : d.state = .scanBody ∨ d.state = .escapePending)
    {st : DecState} (hst : st = .scanBody ∨ st = .escapePending) : ({ d with state := st } : Dec).Inv v where
  err_iff := by
    have herr := h.err_iff
    rcases hs with hs | hs <;> rcases hst with rfl | rfl <;> simpa [hs] using herr
  len_bounded := h.len_bounded
  ovf_full := h.ovf_full
  no_element := h.no_element
  start_clean := fun hc => by rcases hst with rfl | rfl <;> cases hc
  done_valid := fun hc => by rcases hst with rfl | rfl <;> cases hc
  hold_start := fun hv _ => h.hold_start hv hs
  epos_error := fun _ => h.epos_error (by rcases hs with hs | hs <;> simp [hs])
  pbuf_wf := h.pbuf_wf

/-- D.LEN counts up by one without a wrap while PBUF has room (R40). -/
theorem len_add_one_toNat {n : BitVec 9} (h : n.toNat < maxPacket) : (n + 1).toNat = n.toNat + 1 := by
  simp only [maxPacket] at h
  bv_omega

/-- The part of PBUF in use stays within its size, and D.OVF is set only when it is full (R211). -/
theorem Dec.Inv.accept_len {v : Variant} {d : Dec} (h : d.Inv v) (x : Byte) :
    (d.accept x).len.toNat ≤ maxPacket ∧ ((d.accept x).ovf = true → (d.accept x).len.toNat = maxPacket) := by
  rcases d.accept_cases x with ⟨-, e⟩ | ⟨-, hl, e⟩ | ⟨-, hl, e⟩ <;> simp only [e]
  · exact ⟨h.len_bounded, h.ovf_full⟩
  · rw [len_add_one_toNat hl]
    refine ⟨hl, fun ho => ?_⟩
    have := h.ovf_full ho
    omega
  · have := h.len_bounded
    exact ⟨this, fun _ => by omega⟩

/-- Accept keeps the invariant inside a body (R211). -/
theorem Dec.Inv.accept {v : Variant} {d : Dec} (h : d.Inv v) (hs : d.state = .scanBody ∨ d.state = .escapePending)
    (x : Byte) : (d.accept x).Inv v where
  err_iff := by simpa using h.err_iff
  len_bounded := (h.accept_len x).1
  ovf_full := (h.accept_len x).2
  no_element := fun hv => nomatch hv
  start_clean := fun hc => by rcases hs with hs | hs <;> simp [hs] at hc
  done_valid := fun hc => by rcases hs with hs | hs <;> simp [hs] at hc
  hold_start := fun hv => nomatch hv
  epos_error := by simpa using h.epos_error
  pbuf_wf := d.accept_pbuf_wf x h.pbuf_wf

/-- With no element held the checksum 0x00 is compared with START, which is not 0x00: only a body with an element can be
valid (R222). -/
theorem Dec.Inv.hv_of_valid {v : Variant} {d : Dec} (h : d.Inv v) (hs : d.state = .scanBody) (hsum : d.sum = d.hold) :
    d.hv = true := by
  by_contra hv
  rw [Bool.not_eq_true] at hv
  obtain ⟨-, -, hzero⟩ := h.no_element hv
  exact startByte_ne_zero v ((h.hold_start hv (.inl hs)).symm.trans (hsum.symm.trans hzero))

/-- TERM in SCAN_BODY (R210). -/
theorem Dec.Inv.checkChecksum {v : Variant} {d : Dec} (h : d.Inv v) (hs : d.state = .scanBody) (pos : BitVec 16) :
    (d.checkChecksum pos).Inv v := by
  rcases d.checkChecksum_cases pos with ⟨-, e⟩ | ⟨ho, hsum, e⟩ | ⟨-, -, e⟩ <;> rw [e]
  · exact h.raise (by decide) d.cnt pos d.hold
  · have hhv := h.hv_of_valid hs hsum
    exact {
      err_iff := by simpa [hs] using h.err_iff
      len_bounded := h.len_bounded
      ovf_full := h.ovf_full
      no_element := h.no_element
      start_clean := fun hc => nomatch hc
      done_valid := fun _ => ⟨hhv, ho, hsum.symm⟩
      hold_start := fun _ hc => by rcases hc with hc | hc <;> cases hc
      epos_error := fun _ => h.epos_error (by simp [hs])
      pbuf_wf := h.pbuf_wf }
  · exact h.raise (by decide) d.cnt pos d.hold

/-- Every frame byte keeps the decoder's invariant. -/
theorem Dec.Inv.decDataStep {v : Variant} {d : Dec} (h : d.Inv v) (b : Byte) : (decDataStep v b d).Inv v := by
  rcases decDataStep_cases v b d with ⟨hs, -, e⟩ | ⟨-, -, e⟩ | ⟨hs, -, e⟩ | ⟨-, -, e⟩ | ⟨hs, -, e⟩ | ⟨hs, -, e⟩ |
    ⟨-, -, e⟩ | ⟨hs, -, -, e⟩ | ⟨-, e⟩ <;> rw [e]
  · exact h.start hs
  · exact h.raise (by decide) _ _ d.rchk
  · exact (h.countByte (by simp [hs])).checkChecksum hs _
  · exact h.raise (by decide) _ _ d.rchk
  · exact (h.countByte (by simp [hs])).scan (.inl hs) (.inr rfl)
  · exact (h.countByte (by simp [hs])).accept (.inl hs) b
  · exact h.raise (by decide) _ _ d.rchk
  · exact ((h.countByte (by simp [hs])).accept (.inr hs) _).scan (.inr (by simpa using hs)) (.inl rfl)
  · exact h

theorem Dec.Inv.decEndStep {v : Variant} {d : Dec} (h : d.Inv v) : (decEndStep d).Inv v := by
  rcases decEndStep_cases d with ⟨-, e⟩ | ⟨-, e⟩ | ⟨-, e⟩ <;> rw [e]
  · exact h.raise (by decide) d.cnt d.cnt d.rchk
  · exact h.raise (by decide) d.cnt d.cnt d.rchk
  · exact h

/-- Every word keeps the decoder's invariant. -/
theorem Dec.Inv.decWord {v : Variant} {d : Dec} (h : d.Inv v) (w : Word32) : (decWord v d w).Inv v := by
  rcases decWord_cases v d w with ⟨-, e⟩ | ⟨-, e⟩ | ⟨b, -, e⟩ | ⟨-, e⟩ <;> rw [e]
  · exact h.with_cill true
  · exact h.restart
  · exact h.decDataStep b
  · exact h.decEndStep

theorem Dec.Inv.step {s t : State} (hinv : s.d.Inv s.build.variant) (h : step s = .next t) :
    t.d.Inv s.build.variant := by
  cases hr : t.host.rst with
  | true => exact (engines_of_step_reset h hr).2 ▸ Dec.inv_resetOver _ hinv.pbuf_wf
  | false =>
    rcases dec_of_step h hr with ⟨-, e⟩ | ⟨w, -, e⟩ <;> rw [e]
    · exact hinv
    · exact hinv.decWord w

/-- Settles O53: each engine's invariant over a step, the build being the same. -/
theorem everyStepKeepsTheInvariant : Obligations.EveryStepKeepsTheInvariant := fun s t hinv h => by
  have hb : t.build = s.build := (step_engines h).1
  exact ⟨hb ▸ hinv.enc.step h, hb ▸ hinv.dec.step h⟩

/-- Settles O54: the reset values meet each engine's invariant, whatever canonical contents PBUF has. -/
theorem resetMeetsTheInvariant : Obligations.ResetMeetsTheInvariant :=
  have hreset : ∀ (b : Build) (m : Memory), m.wf = true → (State.resetOf b m).Inv := fun _ _ hm =>
    ⟨Enc.inv_reset _, Dec.inv_resetOver _ hm⟩
  ⟨hreset _ _ rfl, hreset⟩

/-! ### A frame byte: what it stores, counts and records -/

/-- A byte that completes an element is counted, and Accept takes the element's value (R205, R209). -/
theorem decDataStep_of_completes {v : Variant} {b : Byte} {d : Dec} (h : completesElement v b d = true) :
    ∃ x, decDataStep v b d = { d.countByte.accept x with state := .scanBody } := by
  unfold completesElement at h
  cases hs : d.state with
  | scanBody =>
    rw [hs] at h
    have hstate : (d.countByte.accept b).state = .scanBody := by simpa using hs
    refine ⟨b, ?_⟩
    rw [decDataStep_literal v b d hs (by simpa using h), ← hstate]
  | escapePending =>
    rw [hs] at h
    simp only [Bool.and_eq_true, bne_iff_ne] at h
    exact ⟨masked v b, decDataStep_pair v b d hs h.1 h.2⟩
  | expectStart | done | error => simp [hs] at h

/-- The shapes a frame byte's effect on D can have: an element accepted, or START, TERM, ESCAPE, an error, or nothing
(R202 to R212). -/
theorem decDataStep_shapes (v : Variant) (b : Byte) (d : Dec) :
    (completesElement v b d = true ∧ ∃ x, decDataStep v b d = { d.countByte.accept x with state := .scanBody }) ∨
    (completesElement v b d = false ∧
      ((d.state = .expectStart ∧ decDataStep v b d = { d.countByte with hold := startByte v, state := .scanBody }) ∨
       (d.state = .scanBody ∧ b = termByte v ∧ decDataStep v b d = d.countByte.checkChecksum d.cnt) ∨
       (d.state = .scanBody ∧ decDataStep v b d = { d.countByte with state := .escapePending }) ∨
       (d.terminal = false ∧ ∃ k, decDataStep v b d = d.countByte.raise k d.cnt) ∨
       (d.terminal = true ∧ decDataStep v b d = d))) := by
  cases hc : completesElement v b d with
  | true => exact .inl ⟨rfl, decDataStep_of_completes hc⟩
  | false =>
    refine .inr ⟨rfl, ?_⟩
    rcases decDataStep_cases v b d with ⟨hs, -, e⟩ | ⟨hs, -, e⟩ | ⟨hs, hb, e⟩ | ⟨hs, -, e⟩ | ⟨hs, -, e⟩ | ⟨hs, hb, -⟩ |
      ⟨hs, -, e⟩ | ⟨hs, h1, h2, -⟩ | ⟨hs, e⟩
    · exact .inl ⟨hs, e⟩
    · exact .inr (.inr (.inr (.inl ⟨by simp [Dec.terminal, hs], _, e⟩)))
    · exact .inr (.inl ⟨hs, hb, e⟩)
    · exact .inr (.inr (.inr (.inl ⟨by simp [Dec.terminal, hs], _, e⟩)))
    · exact .inr (.inr (.inl ⟨hs, e⟩))
    · simp [completesElement, hs, hb] at hc
    · exact .inr (.inr (.inr (.inl ⟨by simp [Dec.terminal, hs], _, e⟩)))
    · simp [completesElement, hs, h1, h2] at hc
    · exact .inr (.inr (.inr (.inr ⟨d.terminal_iff.mpr hs, e⟩)))

/-- What the checksum validator never changes (R210). -/
theorem Dec.checkChecksum_keeps (d : Dec) (pos : BitVec 16) :
    (d.checkChecksum pos).pbuf = d.pbuf ∧ (d.checkChecksum pos).hv = d.hv ∧ (d.checkChecksum pos).len = d.len ∧
    (d.checkChecksum pos).ovf = d.ovf ∧ (d.checkChecksum pos).sum = d.sum ∧ (d.checkChecksum pos).hold = d.hold ∧
    (d.checkChecksum pos).cnt = d.cnt ∧ (d.checkChecksum pos).cill = d.cill := by
  rcases d.checkChecksum_cases pos with ⟨-, e⟩ | ⟨-, -, e⟩ | ⟨-, -, e⟩ <;> simp [e]

/-- A byte that completes no element stores nothing, and only START sets D.HOLD. -/
theorem decDataStep_of_not_completes {v : Variant} {b : Byte} {d : Dec} (h : completesElement v b d = false) :
    (decDataStep v b d).pbuf = d.pbuf ∧ (decDataStep v b d).hv = d.hv ∧ (decDataStep v b d).len = d.len ∧
    (decDataStep v b d).ovf = d.ovf ∧ (decDataStep v b d).sum = d.sum ∧
    (d.state ≠ .expectStart → (decDataStep v b d).hold = d.hold) := by
  rcases decDataStep_shapes v b d with ⟨hc, -⟩ | ⟨-, ⟨hs, e⟩ | ⟨-, -, e⟩ | ⟨-, e⟩ | ⟨-, k, e⟩ | ⟨-, e⟩⟩
  · simp [h] at hc
  · simp [e, hs]
  · obtain ⟨hp, hv, hl, ho, hsum, hh, -, -⟩ := d.countByte.checkChecksum_keeps d.cnt
    rw [e]
    exact ⟨hp, hv, hl, ho, hsum, fun _ => hh⟩
  · simp [e]
  · simp [e]
  · simp [e]

/-- An element stores at `pushIndex` or nowhere, and there the element held before (R211). -/
theorem decDataStep_read_of_completes {v : Variant} {b : Byte} {d : Dec} (h : completesElement v b d = true) :
    (∀ a, d.pushIndex ≠ some a → (decDataStep v b d).pbuf.read a = d.pbuf.read a) ∧
    (d.pbuf.wf = true → ∀ a, d.pushIndex = some a → (decDataStep v b d).pbuf.read a = d.hold) := by
  obtain ⟨x, e⟩ := decDataStep_of_completes h
  rw [e]
  exact ⟨fun a ha => d.countByte.accept_read_of_ne x ha, fun hw a ha => d.countByte.accept_read_pushed x hw ha⟩

/-- D.CNT counts a byte of a transaction that has not ended, and saturates (R43, R202). -/
theorem decDataStep_cnt {v : Variant} {b : Byte} {d : Dec} (h : d.terminal = false) :
    (decDataStep v b d).cnt = sat16 (d.cnt.toNat + 1) := by
  rcases decDataStep_shapes v b d with ⟨-, x, e⟩ | ⟨-, ⟨-, e⟩ | ⟨-, -, e⟩ | ⟨-, e⟩ | ⟨-, k, e⟩ | ⟨ht, -⟩⟩
  · simp [e]
  · simp [e]
  · obtain ⟨-, -, -, -, -, -, hcnt, -⟩ := d.countByte.checkChecksum_keeps d.cnt
    rw [e, hcnt, Dec.countByte_cnt]
  · simp [e]
  · simp [e]
  · simp [h] at ht

theorem decDataStep_cill (v : Variant) (b : Byte) (d : Dec) : (decDataStep v b d).cill = d.cill := by
  rcases decDataStep_shapes v b d with ⟨-, x, e⟩ | ⟨-, ⟨-, e⟩ | ⟨-, -, e⟩ | ⟨-, e⟩ | ⟨-, k, e⟩ | ⟨-, e⟩⟩
  · simp [e]
  · simp [e]
  · obtain ⟨-, -, -, -, -, -, -, hcill⟩ := d.countByte.checkChecksum_keeps d.cnt
    rw [e, hcill, Dec.countByte_cill]
  · simp [e]
  · simp [e]
  · rw [e]

/-- D.RCHK is written by TERM in SCAN_BODY alone (R42). -/
theorem decDataStep_rchk {v : Variant} {b : Byte} {d : Dec} (h : ¬ (d.state = .scanBody ∧ b = termByte v)) :
    (decDataStep v b d).rchk = d.rchk := by
  rcases decDataStep_shapes v b d with ⟨-, x, e⟩ | ⟨-, ⟨-, e⟩ | ⟨hs, hb, -⟩ | ⟨-, e⟩ | ⟨-, k, e⟩ | ⟨-, e⟩⟩
  · simp [e]
  · simp [e]
  · exact absurd ⟨hs, hb⟩ h
  · simp [e]
  · simp [e]
  · rw [e]

/-- The record of an error is written on entry to ERROR alone (R218). -/
theorem decDataStep_record {v : Variant} {b : Byte} {d : Dec}
    (h : (decDataStep v b d).state ≠ .error ∨ d.state = .error) :
    (decDataStep v b d).err = d.err ∧ (decDataStep v b d).epos = d.epos := by
  rcases decDataStep_shapes v b d with ⟨-, x, e⟩ | ⟨-, ⟨-, e⟩ | ⟨hs, -, e⟩ | ⟨-, e⟩ | ⟨ht, k, e⟩ | ⟨-, e⟩⟩
  · simp [e]
  · simp [e]
  · rcases d.countByte.checkChecksum_cases d.cnt with ⟨-, e'⟩ | ⟨-, -, e'⟩ | ⟨-, -, e'⟩
    · simp [e, e', hs] at h
    · simp [e, e']
    · simp [e, e', hs] at h
  · simp [e]
  · rcases h with h | h
    · simp [e] at h
    · simp [Dec.terminal, h] at ht
  · simp [e]

/-- DEC_END writes the record and the state alone (R213 to R216). -/
theorem decEndStep_keeps (d : Dec) :
    (decEndStep d).pbuf = d.pbuf ∧ (decEndStep d).hold = d.hold ∧ (decEndStep d).hv = d.hv ∧
    (decEndStep d).len = d.len ∧ (decEndStep d).ovf = d.ovf ∧ (decEndStep d).sum = d.sum ∧
    (decEndStep d).rchk = d.rchk ∧ (decEndStep d).cnt = d.cnt ∧ (decEndStep d).cill = d.cill := by
  rcases decEndStep_cases d with ⟨-, e⟩ | ⟨-, e⟩ | ⟨-, e⟩ <;> simp [e]

/-- Settles O21: each command answers the state with D replaced, and what is left is the frame of its effect on D. -/
theorem decoderCommandFrame : Obligations.DecoderCommandFrame := fun i s t hp h => by
  cases i with
  | decOpen =>
    cases h
    exact ⟨rfl, rfl, rfl, rfl, fun _ _ => rfl, fun hi => (nomatch hi), fun _ hi => (nomatch hi)⟩
  | decData b =>
    cases h
    refine ⟨rfl, rfl, rfl, decDataStep_cill _ b _, fun hi => ?_, fun hi => (nomatch hi), fun _ hi => ?_⟩
    · rcases hi with hi | hi <;> cases hi
    cases hi
    refine ⟨fun hc => ?_, fun hc => decDataStep_read_of_completes hc, decDataStep_rchk, decDataStep_record⟩
    obtain ⟨hpbuf, hrest⟩ := decDataStep_of_not_completes hc
    exact ⟨fun a => congrArg (Memory.read · a) hpbuf, hrest⟩
  | decEnd =>
    cases h
    obtain ⟨hpbuf, hhold, hhv, hlen, hovf, hsum, hrchk, hcnt, hcill⟩ := decEndStep_keeps s.d
    exact ⟨rfl, rfl, rfl, hcill, fun _ a => congrArg (Memory.read · a) hpbuf,
      fun _ => ⟨hhold, hhv, hlen, hovf, hsum, hrchk, hcnt⟩, fun _ hi => (nomatch hi)⟩
  | encOpen | encData | encAbort => cases hp

/-! ### D.SUM and the stored bytes (R41, R210, R219) -/

theorem Dec.sumInv_resetOver (m : Memory) : (Dec.resetOver m).SumInv := ⟨Nat.zero_le _, fun _ => rfl⟩

/-- The checksum invariant speaks of D.LEN, D.OVF, D.SUM and PBUF alone. -/
theorem Dec.SumInv.congr {d d' : Dec} (h : d.SumInv) (hpbuf : d'.pbuf = d.pbuf) (hlen : d'.len = d.len)
    (hovf : d'.ovf = d.ovf) (hsum : d'.sum = d.sum) : d'.SumInv := by
  simpa only [Dec.SumInv, Dec.payload, hpbuf, hlen, hovf, hsum] using h

/-- A push adds the same byte to D.SUM and to the stored bytes, or marks that one has been left out. -/
theorem Dec.SumInv.accept {v : Variant} {d : Dec} (hinv : d.Inv v) (h : d.SumInv) (x : Byte) : (d.accept x).SumInv := by
  refine ⟨(hinv.accept_len x).1, fun ho => ?_⟩
  rcases d.accept_cases x with ⟨-, e⟩ | ⟨hv, hl, e⟩ | ⟨-, -, e⟩
  · rw [e] at ho ⊢
    exact h.2 ho
  · have hsum : (d.accept x).sum = d.sum + d.hold := by rw [e]
    have hovf : d.ovf = false := by rw [e] at ho; exact ho
    rw [hsum, d.payload_accept x hinv.pbuf_wf hv hl, checksum_append_single, h.2 hovf]
  · rw [e] at ho
    cases ho

theorem Dec.SumInv.decDataStep {v : Variant} {d : Dec} (hinv : d.Inv v) (h : d.SumInv) (b : Byte) :
    (decDataStep v b d).SumInv := by
  cases hc : completesElement v b d with
  | true =>
    obtain ⟨x, e⟩ := decDataStep_of_completes hc
    have hs : d.state ≠ .expectStart := fun hs => by simp [completesElement, hs] at hc
    rw [e]
    exact (Dec.SumInv.accept (hinv.countByte hs) (h.congr rfl rfl rfl rfl) x).congr rfl rfl rfl rfl
  | false =>
    obtain ⟨hpbuf, -, hlen, hovf, hsum, -⟩ := decDataStep_of_not_completes hc
    exact h.congr hpbuf hlen hovf hsum

theorem Dec.SumInv.decWord {v : Variant} {d : Dec} (hinv : d.Inv v) (h : d.SumInv) (w : Word32) :
    (decWord v d w).SumInv := by
  rcases decWord_cases v d w with ⟨-, e⟩ | ⟨-, e⟩ | ⟨b, -, e⟩ | ⟨-, e⟩ <;> rw [e]
  · exact h.congr rfl rfl rfl rfl
  · exact (Dec.sumInv_resetOver d.pbuf).congr rfl rfl rfl rfl
  · exact h.decDataStep hinv b
  · obtain ⟨hpbuf, -, -, hlen, hovf, hsum, -⟩ := decEndStep_keeps d
    exact h.congr hpbuf hlen hovf hsum

theorem Dec.SumInv.step {s t : State} (hinv : s.Inv) (hd : s.d.SumInv) (h : step s = .next t) : t.d.SumInv := by
  cases hr : t.host.rst with
  | true => exact (engines_of_step_reset h hr).2 ▸ Dec.sumInv_resetOver _
  | false =>
    rcases dec_of_step h hr with ⟨-, e⟩ | ⟨w, -, e⟩ <;> rw [e]
    · exact hd
    · exact hd.decWord hinv.dec w

/-- Settles O55: the checksum invariant over a step and at reset; in DONE no byte is left out and D.RCHK is D.SUM. -/
theorem donePayloadSumsToReceivedChecksum : Obligations.DonePayloadSumsToReceivedChecksum := by
  refine ⟨fun s t hinv hd h => hd.step hinv h, fun s hinv hd hdone => ?_, fun _ m => Dec.sumInv_resetOver m⟩
  obtain ⟨-, hovf, hrchk⟩ := hinv.dec.done_valid hdone
  rw [hrchk, hd.2 hovf]

/-! ### The encoder's commands: what they leave unchanged -/

/-- ENC_OPEN emits behind what is queued and touches no sticky flag but E.CSEQ, in BODY (R151, R152). -/
theorem encOpenStep_frame (v : Variant) (len : BitVec 16) (e : Enc) :
    e.eoq <+: (encOpenStep v len e).eoq ∧ (encOpenStep v len e).cill = e.cill ∧
    ((encOpenStep v len e).cseq = true ↔ e.cseq = true ∨ e.state = .body) := by
  rcases encOpenStep_cases v len e with ⟨hs, h⟩ | ⟨hs, -, h⟩ | ⟨hs, -, h⟩ | ⟨hs, -, -, h⟩ <;> simp [h, hs]

/-- ENC_DATA emits behind what is queued, keeps E.ERR and touches no sticky flag but E.CSEQ, in IDLE (R155, R156). -/
theorem encDataStep_frame (v : Variant) (b : Byte) (e : Enc) :
    e.eoq <+: (encDataStep v b e).eoq ∧ (encDataStep v b e).cill = e.cill ∧ (encDataStep v b e).err = e.err ∧
    ((encDataStep v b e).cseq = true ↔ e.cseq = true ∨ e.state = .idle) := by
  rcases encDataStep_cases v b e with ⟨hs, h⟩ | ⟨hs, -, h⟩ | ⟨hs, -, h⟩ <;> simp [h, hs]

/-- ENC_ABORT changes E.STATE and E.REM alone (R161). -/
theorem encAbortStep_keeps (e : Enc) :
    (encAbortStep e).sum = e.sum ∧ (encAbortStep e).err = e.err ∧ (encAbortStep e).cill = e.cill ∧
    (encAbortStep e).cseq = e.cseq ∧ (encAbortStep e).eoq = e.eoq := by
  rcases e.idle_or_body with hs | hs
  · simp [encAbortStep_idle e hs]
  · simp [encAbortStep_body e hs]

/-- Settles O10: each command answers the state with E replaced, and what is left is the frame of its effect on E. -/
theorem encoderCommandFrame : Obligations.EncoderCommandFrame := fun i s t hp h => by
  cases i with
  | encOpen len =>
    cases h
    obtain ⟨heoq, hcill, hcseq⟩ := encOpenStep_frame s.build.variant len s.e
    exact ⟨rfl, fun _ => rfl, rfl, rfl, heoq, hcill, by simpa using hcseq, fun _ hi => (nomatch hi),
      fun hi => (nomatch hi)⟩
  | encData b =>
    cases h
    obtain ⟨heoq, hcill, herr, hcseq⟩ := encDataStep_frame s.build.variant b s.e
    exact ⟨rfl, fun _ => rfl, rfl, rfl, heoq, hcill, by simpa using hcseq, fun _ _ => herr, fun hi => (nomatch hi)⟩
  | encAbort =>
    cases h
    obtain ⟨hsum, herr, hcill, hcseq, heoq⟩ := encAbortStep_keeps s.e
    exact ⟨rfl, fun _ => rfl, rfl, rfl, by simp [heoq], hcill, by simp [hcseq], fun _ hi => (nomatch hi),
      fun _ => ⟨hsum, herr, hcseq, heoq⟩⟩
  | decOpen | decData | decEnd => cases hp

/-! ### The sticky flags over a word (R35, R44) -/

theorem encWord_cill (v : Variant) (e : Enc) (w : Word32) :
    (encWord v e w).cill = true ↔ e.cill = true ∨ legalOn .enc w = false := by
  rcases encWord_cases v e w with ⟨hl, h⟩ | ⟨len, rfl, h⟩ | ⟨b, rfl, h⟩ | ⟨rfl, h⟩ <;> rw [h]
  · simp [hl]
  · obtain ⟨-, hcill, -⟩ := encOpenStep_frame v len e
    have hlegal : legalOn .enc (encode (.encOpen len)) = true := legalOn_encode rfl
    simp [hcill, hlegal]
  · obtain ⟨-, hcill, -, -⟩ := encDataStep_frame v b e
    have hlegal : legalOn .enc (encode (.encData b)) = true := legalOn_encode rfl
    simp [hcill, hlegal]
  · obtain ⟨-, -, hcill, -, -⟩ := encAbortStep_keeps e
    have hlegal : legalOn .enc (encode .encAbort) = true := legalOn_encode rfl
    simp [hcill, hlegal]

theorem encWord_cseq (v : Variant) (e : Enc) (w : Word32) :
    (encWord v e w).cseq = true ↔ e.cseq = true ∨ (e.state = .body ∧ ∃ len, w = encode (.encOpen len)) ∨
      (e.state = .idle ∧ ∃ b, w = encode (.encData b)) := by
  rcases encWord_cases v e w with ⟨hl, h⟩ | ⟨len, rfl, h⟩ | ⟨b, rfl, h⟩ | ⟨rfl, h⟩ <;> rw [h]
  · have hopen : ∀ len, w ≠ encode (.encOpen len) := fun _ => ne_encode_of_illegal hl rfl
    have hdata : ∀ b, w ≠ encode (.encData b) := fun _ => ne_encode_of_illegal hl rfl
    simp [hopen, hdata]
  · obtain ⟨-, -, hcseq⟩ := encOpenStep_frame v len e
    simp [hcseq, encode_inj]
  · obtain ⟨-, -, -, hcseq⟩ := encDataStep_frame v b e
    simp [hcseq, encode_inj]
  · obtain ⟨-, -, -, hcseq, -⟩ := encAbortStep_keeps e
    simp [hcseq, encode_inj]

theorem decWord_cill (v : Variant) (d : Dec) (w : Word32) :
    (decWord v d w).cill = true ↔ d.cill = true ∨ legalOn .dec w = false := by
  rcases decWord_cases v d w with ⟨hl, h⟩ | ⟨rfl, h⟩ | ⟨b, rfl, h⟩ | ⟨rfl, h⟩ <;> rw [h]
  · simp [hl]
  · have hlegal : legalOn .dec (encode .decOpen) = true := legalOn_encode rfl
    simp [hlegal]
  · have hlegal : legalOn .dec (encode (.decData b)) = true := legalOn_encode rfl
    simp [decDataStep_cill, hlegal]
  · obtain ⟨-, -, -, -, -, -, -, -, hcill⟩ := decEndStep_keeps d
    have hlegal : legalOn .dec (encode .decEnd) = true := legalOn_encode rfl
    simp [hcill, hlegal]

/-- Settles O36: reset clears the flags; otherwise each engine took a word or kept its flags. -/
theorem stickyFlagsSetByErrorsClearedByReset : Obligations.StickyFlagsSetByErrorsClearedByReset := fun s t h => by
  refine ⟨fun hr => ?_, fun hr => ⟨?_, ?_, ?_⟩⟩
  · obtain ⟨he, hd⟩ := engines_of_step_reset h hr
    rw [he, hd]
    exact ⟨rfl, rfl, rfl⟩
  · rcases enc_of_step h hr with ⟨hn, q, -, he⟩ | ⟨w, hw, he⟩
    · simp [hn, he]
    · simp [hw, he, encWord_cill]
  · rcases enc_of_step h hr with ⟨hn, q, -, he⟩ | ⟨w, hw, he⟩
    · simp [hn, he]
    · simp [hw, he, encWord_cseq]
  · rcases dec_of_step h hr with ⟨hn, hd⟩ | ⟨w, hw, hd⟩
    · simp [hn, hd]
    · simp [hw, hd, decWord_cill]

/-! ### The counters over a word (R43, R47) -/

/-- In a state that meets the invariant E.REM counts down to 0 and stays there. -/
theorem Enc.Inv.encDataStep_rem {depth : Nat} {e : Enc} (h : e.Inv depth) (v : Variant) (b : Byte) :
    (Machine.encDataStep v b e).rem.toNat = e.rem.toNat - 1 := by
  rcases encDataStep_cases v b e with ⟨hs, he⟩ | ⟨hs, -, he⟩ | ⟨-, hr, he⟩ <;> rw [he]
  · simp [h.idle_rem hs]
  · exact rem_sub_one_toNat (h.body_rem hs).1
  · simp [hr]

/-- A word that neither starts a transaction nor is a byte of one that has not ended leaves D.CNT. -/
theorem decWord_cnt_of_not_counted {v : Variant} {d : Dec} {w : Word32} (hopen : w ≠ encode .decOpen)
    (hdata : ∀ b, w = encode (.decData b) → d.terminal = true) : (decWord v d w).cnt = d.cnt := by
  rcases decWord_cases v d w with ⟨-, e⟩ | ⟨hw, -⟩ | ⟨b, hw, e⟩ | ⟨-, e⟩
  · rw [e, Dec.illegalCommand_cnt]
  · exact absurd hw hopen
  · rw [e, decDataStep_terminal v b d (hdata b hw)]
  · obtain ⟨-, -, -, -, -, -, -, hcnt, -⟩ := decEndStep_keeps d
    rw [e, hcnt]

/-- Settles O38: D.CNT by the word `dec_cmd` accepted, E.REM by the byte `enc_cmd` accepted. -/
theorem countersCountAndDoNotWrap : Obligations.CountersCountAndDoNotWrap := fun s t hinv h hr => by
  have hdec : ∀ w, acceptedNext .dec s = some w → t.d = decWord s.build.variant s.d w := fun w hw => by
    rcases dec_of_step h hr with ⟨hn, -⟩ | ⟨w', hw', hd⟩
    · simp [hn] at hw
    · rw [hd, Option.some.inj (hw.symm.trans hw')]
  refine ⟨fun hw => ?_, fun b hw ht => ?_, fun hopen hdata => ?_, fun b hw => ?_⟩
  · rw [hdec _ hw, decWord_encode_decOpen, Dec.restart_cnt]
  · rw [hdec _ hw, decWord_encode_decData, decDataStep_cnt ht, sat16_toNat]
  · rcases dec_of_step h hr with ⟨-, hd⟩ | ⟨w, hw, hd⟩ <;> rw [hd]
    exact decWord_cnt_of_not_counted (fun hc => hopen (hc ▸ hw)) fun b hc => hdata b (hc ▸ hw)
  · rcases enc_of_step h hr with ⟨hn, -⟩ | ⟨w, hw', he⟩
    · simp [hn] at hw
    · rw [he, ← Option.some.inj (hw.symm.trans hw'), encWord_encode_encData, hinv.enc.encDataStep_rem]

/-! ### PBUF bytes that are never seen (R45, R84, U3) -/

/-- Two decoders that agree on everything except PBUF bytes from D.LEN on, each with PBUF in canonical form: the
decoder's part of `State.sameButUnseen`. -/
structure Dec.SeenAlike (d d' : Dec) : Prop where
  rest     : d' = { d with pbuf := d'.pbuf }
  stored   : ∀ i, i < d.len.toNat → d.pbuf.read i = d'.pbuf.read i
  wf_left  : d.pbuf.wf = true
  wf_right : d'.pbuf.wf = true

theorem Dec.seenAlike_of_len_zero {d : Dec} {m : Memory} (hlen : d.len = 0) (hd : d.pbuf.wf = true) (hm : m.wf = true) :
    d.SeenAlike { d with pbuf := m } :=
  ⟨rfl, fun i hi => by simp [hlen] at hi, hd, hm⟩

/-- A change of registers that looks at PBUF nowhere and keeps it and D.LEN. -/
theorem Dec.SeenAlike.of_registers {d d' : Dec} (h : d.SeenAlike d') {f : Dec → Dec}
    (hf : ∀ m, f { d with pbuf := m } = { f d with pbuf := m }) (hlen : (f d).len = d.len)
    (hpbuf : (f d).pbuf = d.pbuf) : (f d).SeenAlike (f d') := by
  have hrest : f d' = { f d with pbuf := d'.pbuf } := by rw [h.rest, hf]
  rw [hrest]
  exact ⟨rfl, by rw [hlen, hpbuf]; exact h.stored, hpbuf ▸ h.wf_left, h.wf_right⟩

/-- Accept stores the held element at D.LEN in both, so the index it brings into view reads the same. -/
theorem Dec.SeenAlike.accept {d d' : Dec} (h : d.SeenAlike d') (x : Byte) : (d.accept x).SeenAlike (d'.accept x) := by
  obtain ⟨hrest, hstored, hw, hw'⟩ := h
  generalize d'.pbuf = m at *
  subst hrest
  rcases d.accept_cases x with ⟨hv, e⟩ | ⟨hv, hl, e⟩ | ⟨hv, hl, e⟩ <;> rw [e]
  · rw [Dec.accept_first { d with pbuf := m } x hv]
    exact ⟨rfl, hstored, hw, hw'⟩
  · rw [Dec.accept_stores { d with pbuf := m } x hv hl]
    refine ⟨rfl, fun i hi => ?_, Memory.write_wf hw _ hl, Memory.write_wf hw' _ hl⟩
    by_cases hi' : i = d.len.toNat
    · subst hi'
      rw [Memory.read_write_same hw, Memory.read_write_same hw']
    · rw [Memory.read_write_of_ne _ _ (Ne.symm hi'), Memory.read_write_of_ne _ _ (Ne.symm hi')]
      refine hstored i ?_
      rw [len_add_one_toNat hl] at hi
      omega
  · rw [Dec.accept_overflows { d with pbuf := m } x hv hl]
    exact ⟨rfl, hstored, hw, hw'⟩

theorem Dec.SeenAlike.state_eq {d d' : Dec} (h : d.SeenAlike d') : d'.state = d.state := by rw [h.rest]

theorem Dec.SeenAlike.cnt_eq {d d' : Dec} (h : d.SeenAlike d') : d'.cnt = d.cnt := by rw [h.rest]

theorem Dec.SeenAlike.countByte {d d' : Dec} (h : d.SeenAlike d') : d.countByte.SeenAlike d'.countByte :=
  h.of_registers (fun _ => rfl) rfl rfl

theorem Dec.SeenAlike.with_state {d d' : Dec} (h : d.SeenAlike d') (st : DecState) :
    ({ d with state := st } : Dec).SeenAlike { d' with state := st } :=
  h.of_registers (f := fun c => { c with state := st }) (fun _ => rfl) rfl rfl

theorem Dec.SeenAlike.raise {d d' : Dec} (h : d.SeenAlike d') (k : DecErr) (pos : BitVec 16) :
    (d.raise k pos).SeenAlike (d'.raise k pos) :=
  h.of_registers (f := fun c => c.raise k pos) (fun _ => rfl) rfl rfl

/-- The checksum validator looks at PBUF nowhere (R210). -/
theorem Dec.SeenAlike.checkChecksum {d d' : Dec} (h : d.SeenAlike d') (pos : BitVec 16) :
    (d.checkChecksum pos).SeenAlike (d'.checkChecksum pos) := by
  obtain ⟨hpbuf, -, hlen, -⟩ := d.checkChecksum_keeps pos
  refine h.of_registers (f := fun c => c.checkChecksum pos) (fun m => ?_) hlen hpbuf
  simp only [Dec.checkChecksum]
  split_ifs <;> rfl

/-- Every frame byte takes two such decoders the same way (R202 to R212). -/
theorem Dec.SeenAlike.decDataStep {d d' : Dec} (h : d.SeenAlike d') (v : Variant) (b : Byte) :
    (decDataStep v b d).SeenAlike (decDataStep v b d') := by
  have hcount := h.countByte
  rcases decDataStep_cases v b d with ⟨hs, rfl, e⟩ | ⟨hs, hb, e⟩ | ⟨hs, rfl, e⟩ | ⟨hs, rfl, e⟩ | ⟨hs, rfl, e⟩ |
    ⟨hs, hb, e⟩ | ⟨hs, hb, e⟩ | ⟨hs, h1, h2, e⟩ | ⟨hs, e⟩ <;> rw [e] <;> rw [← h.state_eq] at hs
  · rw [decDataStep_start v d' hs]
    exact hcount.of_registers (f := fun c => { c with hold := startByte v, state := .scanBody }) (fun _ => rfl) rfl rfl
  · rw [decDataStep_missingStart v b d' hs hb, h.cnt_eq]
    exact hcount.raise _ _
  · rw [decDataStep_term v d' hs, h.cnt_eq]
    exact hcount.checkChecksum _
  · rw [decDataStep_illegalStart v d' hs, h.cnt_eq]
    exact hcount.raise _ _
  · rw [decDataStep_escape v d' hs]
    exact hcount.with_state _
  · rw [decDataStep_literal v b d' hs hb]
    exact hcount.accept _
  · rw [decDataStep_illegalEscaped v b d' hs hb, h.cnt_eq]
    exact hcount.raise _ _
  · rw [decDataStep_pair v b d' hs h1 h2]
    exact (hcount.accept _).with_state _
  · rw [decDataStep_terminal v b d' (d'.terminal_iff.mpr hs)]
    exact h

theorem Dec.SeenAlike.decEndStep {d d' : Dec} (h : d.SeenAlike d') : (decEndStep d).SeenAlike (decEndStep d') := by
  rcases decEndStep_cases d with ⟨hs, e⟩ | ⟨hs, e⟩ | ⟨hs, e⟩ <;> rw [e] <;> rw [← h.state_eq] at hs
  · rw [decEndStep_missingStart d' hs, h.cnt_eq]
    exact h.raise _ _
  · rw [decEndStep_unterminated d' hs, h.cnt_eq]
    exact h.raise _ _
  · rw [decEndStep_terminal d' (d'.terminal_iff.mpr hs)]
    exact h

theorem Dec.SeenAlike.resetOver {d d' : Dec} (h : d.SeenAlike d') :
    (Dec.resetOver d.pbuf).SeenAlike (Dec.resetOver d'.pbuf) :=
  Dec.seenAlike_of_len_zero (d := Dec.resetOver d.pbuf) rfl h.wf_left h.wf_right

theorem Dec.SeenAlike.restart {d d' : Dec} (h : d.SeenAlike d') : d.restart.SeenAlike d'.restart := by
  have hcill : d'.cill = d.cill := by rw [h.rest]
  unfold Dec.restart
  rw [hcill]
  exact h.resetOver.of_registers (f := fun c => { c with cill := d.cill }) (fun _ => rfl) rfl rfl

theorem Dec.SeenAlike.decWord {d d' : Dec} (h : d.SeenAlike d') (v : Variant) (w : Word32) :
    (decWord v d w).SeenAlike (decWord v d' w) := by
  unfold Machine.decWord
  cases decodeCmd .dec w with
  | illegal why => exact h.of_registers (f := Dec.illegalCommand) (fun _ => rfl) rfl rfl
  | cmd i =>
    cases i with
    | decOpen => exact h.restart
    | decData b => exact h.decDataStep v b
    | decEnd => exact h.decEndStep
    | encOpen | encData | encAbort => exact h

/-! ### Two states that differ only in such bytes -/

theorem State.sameButUnseen_setD {s : State} {d' : Dec} (h : s.d.SeenAlike d') : s.sameButUnseen (s.setD d') :=
  ⟨congrArg s.setD h.rest, h.stored⟩

theorem State.sameButUnseen.exists_setD {s t : State} (hs : s.d.pbuf.wf = true) (ht : t.d.pbuf.wf = true)
    (h : s.sameButUnseen t) : ∃ d', s.d.SeenAlike d' ∧ t = s.setD d' :=
  ⟨{ s.d with pbuf := t.d.pbuf }, ⟨rfl, h.2, hs, ht⟩, h.1⟩

theorem Dec.SeenAlike.view {d d' : Dec} (h : d.SeenAlike d') (i : Nat) : d'.view i = d.view i := by
  obtain ⟨hrest, hstored, -, -⟩ := h
  generalize d'.pbuf = m at *
  subst hrest
  unfold Dec.view
  split
  · next hi => exact (hstored i hi.2).symm
  · rfl

/-- No CSR tells the two apart (R84). -/
theorem Dec.SeenAlike.csrRead {s : State} {d' : Dec} (h : s.d.SeenAlike d') (addr : BitVec 10) :
    csrRead addr (s.setD d') = csrRead addr s := by
  have hview := h.view
  have hstatus : decStatus (s.setD d') = decStatus s := by rw [h.rest]; rfl
  have hchk : decChk (s.setD d') = decChk s := by rw [h.rest]; rfl
  have hpos : decPos (s.setD d') = decPos s := by rw [h.rest]; rfl
  have hpbuf : ∀ k, pbufWord (s.setD d') k = pbufWord s k := fun k => by simp only [pbufWord, State.setD_d, hview]
  simp only [Machine.csrRead, hstatus, hchk, hpos, hpbuf]
  rfl

/-- Two outcomes that go on with states that differ only in unseen bytes. -/
def GoOnSeenAlike (o o' : Host.Outcome State Fault Refusal) : Prop :=
  ∃ s d', o = .next s ∧ o' = .next (s.setD d') ∧ s.d.SeenAlike d'

theorem goOnSeenAlike_clockEdge {s : State} {d' : Dec} (h : s.d.SeenAlike d') :
    GoOnSeenAlike (.next s.clockEdge) (.next (s.setD d').clockEdge) := by
  cases hr : s.host.rst with
  | false =>
    rw [clockEdge_of_released s hr, clockEdge_of_released (s.setD d') hr]
    exact ⟨s, d', rfl, rfl, h⟩
  | true =>
    rw [clockEdge_of_reset s hr, clockEdge_of_reset (s.setD d') hr]
    exact ⟨s.resetRegisters, Dec.resetOver d'.pbuf, rfl, rfl, h.resetOver⟩

theorem goOnSeenAlike_acceptWord {s : State} {d' : Dec} (h : s.d.SeenAlike d') (p : Port) (w : Word32) :
    GoOnSeenAlike (acceptWord p w s) (acceptWord p w (s.setD d')) := by
  cases p with
  | enc => exact ⟨_, d', acceptWord_enc w s, acceptWord_enc w (s.setD d'), h⟩
  | dec => exact ⟨_, _, acceptWord_dec w s, acceptWord_dec w (s.setD d'), h.decWord _ w⟩

/-- Which word a port transfers does not depend on D. -/
theorem handshake_setD (p : Port) (s : State) (d' : Dec) :
    handshake p (s.setD d') = (handshake p s).map (Prod.map id (State.setD · d')) := by
  have hwords : portWords p (s.setD d') = portWords p s := by cases p <;> rfl
  have hready : cmdReady p (s.setD d') = cmdReady p s := by cases p <;> rfl
  have hset : ∀ ws, setPortWords p ws (s.setD d') = (setPortWords p ws s).setD d' := by cases p <;> exact fun _ => rfl
  simp only [handshake, hwords, hready, hset]
  cases portWords p s with
  | nil => rfl
  | cons w ws => split_ifs <;> rfl

theorem goOnSeenAlike_portStep {s : State} {d' : Dec} (h : s.d.SeenAlike d') (p : Port) :
    GoOnSeenAlike (portStep p s) (portStep p (s.setD d')) := by
  unfold portStep
  rw [handshake_setD]
  cases hh : handshake p s with
  | none => exact goOnSeenAlike_clockEdge h
  | some wu =>
    obtain ⟨w, u⟩ := wu
    obtain ⟨ws, -, -, rfl⟩ := handshake_eq_some.mp hh
    exact goOnSeenAlike_acceptWord (by simpa using h) p w

/-- An output transfer does not depend on D. -/
theorem encPop_setD (s : State) (d' : Dec) : encPop (s.setD d') = (encPop s).setD d' := by
  have hvalid : encOutValid (s.setD d') = encOutValid s := rfl
  simp only [encPop, State.setD_e, hvalid]
  cases s.e.eoq with
  | nil => rfl
  | cons b bs => cases encOutValid s <;> rfl

@[simp] theorem encPop_d (s : State) : (encPop s).d = s.d := by
  rcases encPop_cases s with h | ⟨b, bs, -, -, h⟩ <;> simp [h]

/-- Every move of the host (R271 to R275). -/
theorem goOnSeenAlike_hostStep {s : State} {d' : Dec} (h : s.d.SeenAlike d') (m : HostMove) :
    GoOnSeenAlike (hostStep m s) (hostStep m (s.setD d')) := by
  cases m with
  | encCmd => exact goOnSeenAlike_portStep h .enc
  | decCmd => exact goOnSeenAlike_portStep h .dec
  | encPop =>
    simp only [hostStep, encPop_setD]
    exact goOnSeenAlike_clockEdge (by simpa using h)
  | csrRead addr =>
    have hread : readCsr addr (s.setD d') = (readCsr addr s).setD d' := by
      simp only [readCsr, h.csrRead]
      rfl
    simp only [hostStep, hread]
    exact goOnSeenAlike_clockEdge h
  | rst level => exact goOnSeenAlike_clockEdge (s := driveRst level s) h

theorem goOnSeenAlike_step {s : State} {d' : Dec} (h : s.d.SeenAlike d') :
    GoOnSeenAlike (step s) (step (s.setD d')) := by
  simp only [step, runNextMove, State.setD_host]
  cases s.host.moves with
  | nil => exact goOnSeenAlike_clockEdge h
  | cons m ms => exact goOnSeenAlike_hostStep (s := setMoves ms s) h m

/-- Settles O56: the second state is the first with another decoder seen alike; every operation keeps two decoders seen
alike, a push storing the same element at the same index in both. -/
theorem unseenPbufBytesNeverMatter : Obligations.UnseenPbufBytesNeverMatter := by
  have hempty : ∀ (s : State) (m : Memory), s.d.len = 0 → s.sameButUnseen (s.setD { s.d with pbuf := m }) :=
    fun s m hlen => ⟨rfl, fun i hi => by simp [hlen] at hi⟩
  refine ⟨fun s t hs ht h => ?_, hempty, fun b m n => hempty (State.resetOf b m) n rfl⟩
  obtain ⟨d', hd, rfl⟩ := h.exists_setD hs ht
  obtain ⟨s', d'', hs', ht', hd'⟩ := goOnSeenAlike_step hd
  exact ⟨fun addr => (hd.csrRead addr).symm, s', s'.setD d'', hs', ht', State.sameButUnseen_setD hd', hd'.wf_left,
    hd'.wf_right⟩

/-! ### The CSR words and their fields (R50 to R56) -/

@[simp] theorem csrRead_cfg0 (s : State) : csrRead 0 s = cfg0 s := rfl
@[simp] theorem csrRead_cfg1 (s : State) : csrRead 1 s = cfg1 s := rfl
@[simp] theorem csrRead_encStatus (s : State) : csrRead 2 s = encStatus s := rfl
@[simp] theorem csrRead_encOq (s : State) : csrRead 3 s = encOq s := rfl
@[simp] theorem csrRead_decStatus (s : State) : csrRead 4 s = decStatus s := rfl
@[simp] theorem csrRead_decChk (s : State) : csrRead 5 s = decChk s := rfl
@[simp] theorem csrRead_decPos (s : State) : csrRead 6 s = decPos s := rfl

theorem cfg0_eq (s : State) :
    cfg0 s = (match s.build.variant with | .A => 0x20256556 | .B => 0x205E5D5B) := by
  unfold cfg0
  cases s.build.variant <;> rfl

/-- The fields of CFG1 (R51). -/
theorem cfg1_fields (s : State) :
    (cfg1 s).extractLsb' 0 16 = 0x0100#16 ∧
    (cfg1 s).getLsbD 16 = (match s.build.variant with | .A => false | .B => true) ∧
    (cfg1 s).extractLsb' 17 7 = 0#7 ∧ (cfg1 s).extractLsb' 24 8 = BitVec.ofNat 8 s.build.oqDepth.val := by
  unfold cfg1
  refine ⟨?_, ?_, ?_, ?_⟩
  · exact BitVec.extractLsb'_append_eq_right
  · simp only [BitVec.getLsbD_append]
    cases s.build.variant <;> rfl
  · simp (disch := decide) only [BitVec.extractLsb'_append_eq_of_add_le, BitVec.extractLsb'_append_eq_of_le,
      Nat.reduceSub, BitVec.extractLsb'_eq_self]
  · simp (disch := decide) only [BitVec.extractLsb'_append_eq_of_le, Nat.reduceSub, BitVec.extractLsb'_eq_self]

/-- ENC_OQ_DEPTH fits the 8 bits CFG1 gives it (R11). -/
theorem oqDepth_toNat (n : OqDepth) : (BitVec.ofNat 8 n.val).toNat = n.val := by
  have := n.high
  simp only [BitVec.toNat_ofNat]
  omega

/-- CFG1 of a core of the reference depth (R51). -/
theorem cfg1_reference (s : State) (h : s.build.oqDepth.val = 8) :
    cfg1 s = match s.build.variant with | .A => 0x08000100 | .B => 0x08010100 := by
  unfold cfg1
  rw [h]
  cases s.build.variant <;> rfl

/-- Settles O39: the two words by variant, the fields of CFG1 by slicing. -/
theorem configurationWordsAreConstant : Obligations.ConfigurationWordsAreConstant := fun s => by
  obtain ⟨hmax, hvariant, hreserved, hdepth⟩ := cfg1_fields s
  exact ⟨cfg0_eq s, hmax, hvariant, hreserved, hdepth ▸ oqDepth_toNat _, cfg1_reference s⟩

/-- The flags of ENC_STATUS (R52). -/
theorem encStatus_flags (s : State) :
    (encStatus s).getLsbD 0 = encBusy s ∧ (encStatus s).getLsbD 1 = s.e.err ∧ (encStatus s).getLsbD 2 = s.e.cill ∧
    (encStatus s).getLsbD 3 = s.e.cseq := by
  unfold encStatus
  simp only [BitVec.getLsbD_append]
  simp

/-- The fields of ENC_STATUS (R52). -/
theorem encStatus_fields (s : State) :
    (encStatus s).extractLsb' 4 4 = 0#4 ∧ (encStatus s).extractLsb' 8 8 = s.e.sum ∧
    (encStatus s).extractLsb' 16 9 = s.e.rem ∧ (encStatus s).extractLsb' 25 7 = 0#7 := by
  unfold encStatus
  refine ⟨?_, ?_, ?_, ?_⟩ <;>
    simp (disch := decide) only [BitVec.extractLsb'_append_eq_of_add_le, BitVec.extractLsb'_append_eq_of_le,
      Nat.reduceSub, BitVec.extractLsb'_eq_self]

theorem encBusy_iff (s : State) : encBusy s = true ↔ s.e.state = .body := by simp [encBusy]
theorem decDone_iff (s : State) : decDone s = true ↔ s.d.state = .done := by simp [decDone]
theorem decErr_iff (s : State) : decErr s = true ↔ s.d.state = .error := by simp [decErr]

/-- The fields of ENC_OQ when EOQ is within the largest depth a core can have (R53). -/
theorem encOq_fields (s : State) (h : s.e.eoq.length ≤ 255) :
    ((encOq s).extractLsb' 0 8).toNat = s.e.eoq.length ∧ (encOq s).extractLsb' 8 24 = 0#24 := by
  constructor
  · simp only [encOq, BitVec.extractLsb'_toNat, BitVec.toNat_ofNat]
    omega
  · apply BitVec.eq_of_toNat_eq
    simp only [encOq, BitVec.extractLsb'_toNat, BitVec.toNat_ofNat]
    omega

theorem encStatus_resetOf (b : Build) (m : Memory) : encStatus (State.resetOf b m) = 0 := by
  simp only [encStatus, encBusy, State.resetOf, Enc.reset]
  rfl

theorem encOq_resetOf (b : Build) (m : Memory) : encOq (State.resetOf b m) = 0 := rfl

/-- Settles O40: the fields by slicing; the invariant bounds EOQ by the depth, which is at most 255. -/
theorem encoderStatusFields : Obligations.EncoderStatusFields := fun s hinv => by
  obtain ⟨hbusy, herr, hcill, hcseq⟩ := encStatus_flags s
  obtain ⟨hreserved, hsum, hrem, hhigh⟩ := encStatus_fields s
  obtain ⟨hoq, hoqHigh⟩ := encOq_fields s (hinv.enc.eoq_bounded.trans s.build.oqDepth.high)
  exact ⟨by rw [csrRead_encStatus, hbusy, encBusy_iff], hbusy.symm, herr, hcill, hcseq, hreserved, hsum, hrem, hhigh,
    hoq, hoqHigh, fun b m => ⟨encStatus_resetOf b m, encOq_resetOf b m⟩⟩

/-- The flags of DEC_STATUS (R54). -/
theorem decStatus_flags (s : State) :
    (decStatus s).getLsbD 3 = false ∧ (decStatus s).getLsbD 7 = s.d.cill ∧ (decStatus s).getLsbD 8 = s.d.hv ∧
    (decStatus s).getLsbD 9 = s.d.ovf := by
  unfold decStatus
  simp only [BitVec.getLsbD_append]
  simp

/-- The fields of DEC_STATUS (R54). -/
theorem decStatus_fields (s : State) :
    (decStatus s).extractLsb' 0 3 = s.d.state.code ∧ (decStatus s).extractLsb' 4 3 = s.d.err.code ∧
    (decStatus s).extractLsb' 10 6 = 0#6 ∧ (decStatus s).extractLsb' 16 9 = s.d.len ∧
    (decStatus s).extractLsb' 25 7 = 0#7 := by
  unfold decStatus
  refine ⟨?_, ?_, ?_, ?_, ?_⟩ <;>
    simp (disch := decide) only [BitVec.extractLsb'_append_eq_of_add_le, BitVec.extractLsb'_append_eq_of_le,
      Nat.reduceSub, BitVec.extractLsb'_eq_self]

/-- The fields of DEC_CHK (R55). -/
theorem decChk_fields (s : State) :
    (decChk s).extractLsb' 0 8 = s.d.rchk ∧ (decChk s).extractLsb' 8 8 = s.d.sum ∧
    (decChk s).extractLsb' 16 8 = s.d.hold ∧ (decChk s).extractLsb' 24 8 = 0#8 := by
  unfold decChk
  refine ⟨?_, ?_, ?_, ?_⟩ <;>
    simp (disch := decide) only [BitVec.extractLsb'_append_eq_of_add_le, BitVec.extractLsb'_append_eq_of_le,
      Nat.reduceSub, BitVec.extractLsb'_eq_self]

/-- The fields of DEC_POS (R56). -/
theorem decPos_fields (s : State) :
    (decPos s).extractLsb' 0 16 = s.d.cnt ∧ (decPos s).extractLsb' 16 16 = s.d.epos :=
  ⟨BitVec.extractLsb'_append_eq_right, BitVec.extractLsb'_append_eq_left⟩

theorem decStatus_resetOf (b : Build) (m : Memory) : decStatus (State.resetOf b m) = 0 := by
  simp only [decStatus, State.resetOf, Dec.resetOver]
  rfl

theorem decChk_resetOf (b : Build) (m : Memory) : decChk (State.resetOf b m) = 0 := by
  simp only [decChk, State.resetOf, Dec.resetOver]
  rfl

theorem decPos_resetOf (b : Build) (m : Memory) : decPos (State.resetOf b m) = 0 := by
  simp only [decPos, State.resetOf, Dec.resetOver]
  rfl

/-- Settles O41: the fields by slicing, the codes by the state and the error kind. -/
theorem decoderStatusFields : Obligations.DecoderStatusFields := fun s => by
  obtain ⟨hbit3, hcill, hhv, hovf⟩ := decStatus_flags s
  obtain ⟨hstate, herr, hreserved, hlen, hhigh⟩ := decStatus_fields s
  obtain ⟨hrchk, hsum, hhold, hchkHigh⟩ := decChk_fields s
  obtain ⟨hcnt, hepos⟩ := decPos_fields s
  refine ⟨?_, hbit3, ?_, hcill, hhv, hovf, hreserved, hlen, hhigh, hrchk, hsum, hhold, hchkHigh, hcnt, hepos,
    decDone_iff s, decErr_iff s, fun b m => ⟨decStatus_resetOf b m, decChk_resetOf b m, decPos_resetOf b m⟩⟩
  · rw [csrRead_decStatus, hstate]
    cases s.d.state <;> rfl
  · rw [csrRead_decStatus, herr]
    cases s.d.err <;> rfl

end Sys2Proof.Machine
end

-- Proofs: memory and the CSR space (spec/20_memory.md)
section
/-! PROOFS. What spec/20_memory.md says of the words on the ports and of the CSR space: a port runs the command of the word it
transfers, a placed word is run by the next step, and what the PBUF window, the reserved offsets and the status words show. -/

namespace Sys2Proof.Machine

/-! ### A transfer on a port (R91, R97, R120, R273) -/

theorem acceptWord_encode (i : Instr) (s : State) : acceptWord i.port (encode i) s = exec i s := by
  rw [acceptWord, decodeCmd_encode]

/-- A ready port transfers the word at its head: the step accepts it, with the move and the word used up. -/
theorem step_of_transfer {p : Port} {s : State} {w : Word32} {ws : List Word32} {ms : List HostMove}
    (hm : s.host.moves = moveFor p :: ms) (hw : portWords p s = w :: ws) (hr : cmdReady p s = true) :
    step s = acceptWord p w (setPortWords p ws (setMoves ms s)) := by
  have htransfer : handshake p (setMoves ms s) = some (w, setPortWords p ws (setMoves ms s)) :=
    handshake_eq_some.mpr ⟨ws, by rw [portWords_setMoves, hw], by rw [cmdReady_setMoves, hr], rfl⟩
  have hport : step s = portStep p (setMoves ms s) := by
    rw [step, runNextMove, hm]
    cases p <;> rfl
  rw [hport, portStep, htransfer]

/-- Settles O25: the port transfers the word, and decoding gives back the command that was encoded. -/
theorem stepRunsTheDecodedCommand : Obligations.StepRunsTheDecodedCommand := fun p i s ws ms hwf hm hw hr => by
  obtain rfl : i.port = p := by simpa [Instr.wf] using hwf
  rw [step_of_transfer hm hw hr, acceptWord_encode]

/-! ### A placed word (log entry 3) -/

/-- The host presents the word of a command on the command's own port (R119). -/
theorem portFor_encode (i : Instr) : portFor (encode i) = i.port := by
  unfold portFor
  split
  · next hlegal =>
    obtain ⟨j, hj⟩ := (legalOn_iff _ _).mp hlegal
    rw [encode_inj.mp (encode_of_decodeCmd hj), port_of_decode hj]
  · next hillegal =>
    cases hp : i.port with
    | enc => rfl
    | dec => exact absurd (legalOn_encode hp) hillegal

/-- The state at which `presentWord` has a word run: `rst` released, and EOQ delivered if the word would wait. -/
def State.readied (p : Port) (s : State) : State :=
  if cmdReady p (driveRst false s) then driveRst false s else drainAll (driveRst false s)

/-- With EOQ empty every queue depth leaves room for the four bytes of one command (R11, R150). -/
theorem cmdReady_drainAll {s : State} (hr : s.host.rst = false) (p : Port) : cmdReady p (drainAll s) = true := by
  cases p with
  | enc => simpa [cmdReady, encCmdReady, drainAll, hr] using s.build.oqDepth.low
  | dec => simp [cmdReady, decCmdReady, drainAll, hr]

theorem cmdReady_readied (p : Port) (s : State) : cmdReady p (s.readied p) = true := by
  unfold State.readied
  split
  · assumption
  · exact cmdReady_drainAll rfl p

theorem driveRst_of_released {s : State} (hr : s.host.rst = false) : driveRst false s = s := by
  rw [driveRst, ← hr]
  rfl

/-- A state whose port is ready is left as it is. -/
theorem readied_of_cmdReady {p : Port} {s : State} (h : cmdReady p s = true) : s.readied p = s := by
  rw [State.readied, driveRst_of_released (rst_of_cmdReady h), if_pos h]

/-- Readying a port releases `rst` and at most moves bytes from EOQ to OUT, in order. -/
theorem readied_keeps (p : Port) (s : State) :
    (s.readied p).build = s.build ∧ (s.readied p).d = s.d ∧
    (s.readied p).encWithDelivered = s.encWithDelivered ∧
    (s.readied p).host = { s.host with rst := false, out := (s.readied p).host.out } := by
  unfold State.readied
  split
  · exact ⟨rfl, rfl, rfl, rfl⟩
  · exact ⟨rfl, rfl, by simp [State.encWithDelivered, drainAll], rfl⟩

theorem presentWord_eq (w : Word32) (s : State) :
    presentWord w s =
      setMoves (moveFor (portFor w) :: (s.readied (portFor w)).host.moves)
        (setPortWords (portFor w) (w :: portWords (portFor w) (s.readied (portFor w))) (s.readied (portFor w))) := rfl

/-- Taking a placed word and its move away again gives back the state it was placed in. -/
theorem unplace (p : Port) (ws : List Word32) (ms : List HostMove) (s : State) :
    setPortWords p (portWords p s) (setMoves s.host.moves (setMoves ms (setPortWords p ws s))) = s := by
  cases p <;> rfl

theorem cmdReady_setPortWords (p : Port) (ws : List Word32) (s : State) :
    cmdReady p (setPortWords p ws s) = cmdReady p s := by cases p <;> rfl

/-- The step after placing a word accepts it in the readied state. -/
theorem step_presentWord (w : Word32) (s : State) :
    step (presentWord w s) = acceptWord (portFor w) w (s.readied (portFor w)) := by
  have hready := cmdReady_readied (portFor w) s
  rw [presentWord_eq, step_of_transfer (setMoves_moves _ _) (by rw [portWords_setMoves, portWords_setPortWords])
    (by rw [cmdReady_setMoves, cmdReady_setPortWords, hready]), unplace]

theorem step_withFetchWord_encode (i : Instr) (s : State) :
    step (s.withFetchWord 32 (encode i).toNat) = exec i (s.readied i.port) := by
  rw [State.withFetchWord, BitVec.ofNat_toNat, BitVec.setWidth_eq, step_presentWord, portFor_encode, acceptWord_encode]

/-- Settles O26: the placed word is run in the readied state, which is `s` itself when the port is ready. -/
theorem placedWordRunsNext : Obligations.PlacedWordRunsNext := fun i s =>
  ⟨fun h => by rw [step_withFetchWord_encode, readied_of_cmdReady h],
    s.readied i.port, step_withFetchWord_encode i s, readied_keeps i.port s⟩

/-! ### A CSR read (R87, R271) -/

theorem step_of_csrRead {s : State} {addr : BitVec 10} {ms : List HostMove} (hm : s.host.moves = .csrRead addr :: ms) :
    step s = .next (readCsr addr (setMoves ms s)).clockEdge := by
  rw [step, runNextMove, hm]
  rfl

/-- Outside reset a step that accepts no word and transfers no output byte leaves both engines as they are. -/
theorem engines_of_quiet_step {s t : State} (h : step s = .next t) (hr : t.host.rst = false)
    (hnone : ∀ p, acceptedNext p s = none) (hpop : ∀ ms, s.host.moves ≠ .encPop :: ms) : t.e = s.e ∧ t.d = s.d := by
  rcases (step_engines h).2 with ⟨hr', -⟩ | ⟨-, -, -, he, -, hd⟩ | ⟨-, -, -, -, ⟨ms, hm⟩, -⟩
  · simp [hr] at hr'
  · exact ⟨he (hnone .enc), hd (hnone .dec)⟩
  · exact absurd hm (hpop ms)

/-- Settles O31: the read goes to the host's record alone, and `rst` = 0 makes its clock edge do nothing. -/
theorem csrReadHasNoSideEffect : Obligations.CsrReadHasNoSideEffect :=
  ⟨fun s addr ms hm hr => by
    rw [step_of_csrRead hm, clockEdge_of_released (readCsr addr (setMoves ms s)) hr]
    rfl,
   fun _ _ h hr hnone hpop => engines_of_quiet_step h hr hnone hpop⟩

/-! ### The CSR words from index 7 on (R82 to R85, R88) -/

/-- Past the registers a word is one of the PBUF window, or reserved. -/
theorem csrRead_past_registers {addr : BitVec 10} (h : 7 ≤ addr.toNat) (s : State) :
    csrRead addr s =
      if 0x040 ≤ addr.toNat ∧ addr.toNat < 0x080 then pbufWord s (addr.toNat - 0x040) else 0x00000000#32 := by
  have hne : ∀ k : BitVec 10, k.toNat < 7 → addr ≠ k := fun k hk hk' => by
    subst hk'
    omega
  simp only [csrRead, hne 0x000#10 (by decide), hne 0x001#10 (by decide), hne 0x002#10 (by decide),
    hne 0x003#10 (by decide), hne 0x004#10 (by decide), hne 0x005#10 (by decide), hne 0x006#10 (by decide), if_false]

theorem csrRead_window (s : State) {k : Nat} (hk : k < 64) : csrRead (BitVec.ofNat 10 (0x40 + k)) s = pbufWord s k := by
  have haddr : (BitVec.ofNat 10 (0x40 + k)).toNat = 0x40 + k := by
    rw [BitVec.toNat_ofNat]
    omega
  rw [csrRead_past_registers (by omega), haddr, if_pos (by omega), Nat.add_sub_cancel_left]

/-- Byte lane j of window word k shows View(4k + j) (R83). -/
theorem pbufWord_lane (s : State) (k : Nat) {j : Nat} (hj : j < 4) :
    (pbufWord s k).extractLsb' (8 * j) 8 = s.d.view (4 * k + j) := by
  unfold pbufWord
  interval_cases j <;>
    simp (disch := decide) only [BitVec.extractLsb'_append_eq_of_add_le, BitVec.extractLsb'_append_eq_of_le,
      Nat.reduceSub, Nat.reduceMul, BitVec.extractLsb'_eq_self, Nat.add_zero]

/-- Settles O42: index i is lane i mod 4 of window word i div 4, which shows it through the gate. -/
theorem pbufWindowShowsOnlyADonePayload : Obligations.PbufWindowShowsOnlyADonePayload := fun s i hi => by
  rw [csrRead_window s (by omega), pbufWord_lane s _ (Nat.mod_lt i (by decide)), Nat.div_add_mod, Dec.view]
  rfl

theorem csrIndex_toNat (off : BitVec 12) : (csrIndex off).toNat = off.toNat / 4 := by
  have := off.isLt
  simp only [csrIndex, BitVec.extractLsb'_toNat, Nat.shiftRight_eq_div_pow]
  omega

/-- Settles O43: a reserved offset lies past the registers and outside the window. -/
theorem reservedOffsetsReadZero : Obligations.ReservedOffsetsReadZero := fun s off h => by
  have hindex := csrIndex_toNat off
  rw [csrRead_past_registers (by omega), if_neg (by omega)]
  rfl

/-! ### The end of a transaction in the status words (R95, R277) -/

theorem encBusy_eq_false_iff (s : State) : encBusy s = false ↔ s.e.state = .idle := by
  unfold encBusy
  cases s.e.state <;> decide

/-- ENC_OQ tells an empty EOQ exactly, since its length does not wrap (R53, R58 item 2). -/
theorem encOq_eq_zero_iff {s : State} (h : s.e.eoq.length ≤ 255) : encOq s = 0 ↔ s.e.eoq = [] := by
  rw [← List.length_eq_zero_iff, ← BitVec.toNat_inj, encOq, BitVec.toNat_ofNat]
  change _ = 0 ↔ _
  omega

theorem decState_code_done_or_error (st : DecState) : st.code = 3#3 ∨ st.code = 4#3 ↔ st = .done ∨ st = .error := by
  cases st <;> decide

/-- Settles O44: BUSY and STATE are fields of the status words, and the invariant bounds EOQ by the depth. -/
theorem statusWordsTellTheEndOfATransaction : Obligations.StatusWordsTellTheEndOfATransaction := fun s hinv => by
  obtain ⟨hbusy, -⟩ := encStatus_flags s
  obtain ⟨hstate, -⟩ := decStatus_fields s
  have hbound : s.e.eoq.length ≤ 255 := hinv.enc.eoq_bounded.trans s.build.oqDepth.high
  constructor
  · rw [csrRead_encStatus, csrRead_encOq, hbusy, encBusy_eq_false_iff, encOq_eq_zero_iff hbound]
    rfl
  · rw [csrRead_decStatus, hstate]
    exact decState_code_done_or_error s.d.state

end Sys2Proof.Machine
end

-- Proofs: command words and the assembler (spec/30_encoding.md)
section
/-! PROOFS. What spec/30_encoding.md says of command words: decoding and encoding are inverse on each port, the rows of the
opcode map and the illegal words are told by the fields of a word, an illegal word only sets its sticky flag, and what
the assembler emits and refuses. -/

namespace Sys2Proof.Machine

/-! ### Decode and encode agree (R116 to R120) -/

theorem instr_wf_iff {p : Port} {i : Instr} : i.wf p = true ↔ i.port = p := beq_iff_eq

theorem decodeCmd_eq_cmd_iff {p : Port} {w : Word32} {i : Instr} :
    decodeCmd p w = .cmd i ↔ i.port = p ∧ encode i = w := by
  constructor
  · intro h
    exact ⟨port_of_decode h, (encode_of_decodeCmd h).symm⟩
  · rintro ⟨rfl, rfl⟩
    exact decodeCmd_encode i

/-- Settles O3: being well formed on a port is being a command of the port, and those decode exactly from their encodings. -/
theorem portDecodesExactlyItsEncodedCommands : Obligations.PortDecodesExactlyItsEncodedCommands := fun p w i => by
  rw [decodeCmd_eq_cmd_iff, instr_wf_iff]

/-! ### The rows of the opcode map (R118) -/

/-- Form L leaves IMM free, and RSV is 0x00. -/
theorem eq_fields_of_mask_formL {w : Word32} {o : BitVec 8} (h : w &&& 0xFFFF0000#32 = o ++ 0x00#8 ++ 0x0000#16) :
    o ++ 0x00#8 ++ immOf w = w := by
  rw [← word_eq_fields w, Laws.EncodesInItsRow.mask_formL] at h
  have ho : opcOf w = o := by simpa only [opcOf_fields] using congrArg opcOf h
  have hr : rsvOf w = 0x00#8 := by simpa only [rsvOf_fields] using congrArg rsvOf h
  rw [← ho, ← hr, word_eq_fields]

/-- A word is {OPC, RSV, IMM[15:8], IMM[7:0]} (R116, R117). -/
theorem word_eq_bytes (w : Word32) : opcOf w ++ rsvOf w ++ immHighOf w ++ immByteOf w = w := by
  rw [formB_eq_fields, imm_eq_bytes, word_eq_fields]

theorem opcOf_bytes (o r z b : BitVec 8) : opcOf (o ++ r ++ z ++ b : Word32) = o := by
  rw [formB_eq_fields]
  exact opcOf_fields o r (z ++ b)

theorem rsvOf_bytes (o r z b : BitVec 8) : rsvOf (o ++ r ++ z ++ b : Word32) = r := by
  rw [formB_eq_fields]
  exact rsvOf_fields o r (z ++ b)

/-- Form B leaves the byte free; RSV and IMM[15:8] are 0x00. -/
theorem eq_fields_of_mask_formB {w : Word32} {o : BitVec 8}
    (h : w &&& 0xFFFFFF00#32 = o ++ 0x00#8 ++ 0x00#8 ++ 0x00#8) : o ++ 0x00#8 ++ 0x00#8 ++ immByteOf w = w := by
  rw [← word_eq_bytes w, Laws.EncodesInItsRow.mask_formB] at h
  have ho : opcOf w = o := by simpa only [opcOf_bytes] using congrArg opcOf h
  have hr : rsvOf w = 0x00#8 := by simpa only [rsvOf_bytes] using congrArg rsvOf h
  have hz : immHighOf w = 0x00#8 := by simpa only [immHigh_of_bytes] using congrArg immHighOf h
  calc o ++ 0x00#8 ++ 0x00#8 ++ immByteOf w
      = opcOf w ++ rsvOf w ++ immHighOf w ++ immByteOf w := by rw [ho, hr, hz]
    _ = w := word_eq_bytes w

/-- Every command's word selects the command's own row. -/
theorem encode_selects_row (i : Instr) : encode i &&& i.row.mask = i.row.value := by
  have hrow : Laws.EncodesInItsRow.Statement i := by
    cases i with
    | encOpen len => exact Laws.EncodesInItsRow.encOpen len
    | encData b => exact Laws.EncodesInItsRow.encData b
    | encAbort => exact Laws.EncodesInItsRow.encAbort
    | decOpen => exact Laws.EncodesInItsRow.decOpen
    | decData b => exact Laws.EncodesInItsRow.decData b
    | decEnd => exact Laws.EncodesInItsRow.decEnd
  obtain ⟨-, -, hsel⟩ := hrow
  simp only [OpRow.selects, Bool.and_eq_true, beq_iff_eq] at hsel
  exact hsel.2

theorem row_port (i : Instr) : i.row.port = i.port := by cases i <;> rfl

/-- Form N leaves nothing free. -/
theorem eq_of_mask_formN {w v : Word32} (h : w &&& 0xFFFFFFFF#32 = v) : v = w := by
  rw [← h, show 0xFFFFFFFF#32 = BitVec.allOnes 32 from rfl, BitVec.and_allOnes]

/-- The words that a row's mask and match value pick out are the encodings of the row's commands. -/
theorem mask_eq_value_iff (i : Instr) (w : Word32) :
    w &&& i.row.mask = i.row.value ↔ ∃ j : Instr, j.row = i.row ∧ encode j = w := by
  constructor
  · intro h
    cases i with
    | encOpen len =>
      have hvalue : 0x01000000#32 = encode (.encOpen 0) := by decide
      exact ⟨.encOpen (immOf w), rfl, eq_fields_of_mask_formL (h.trans hvalue)⟩
    | encData b =>
      have hvalue : 0x02000000#32 = encode (.encData 0) := by decide
      exact ⟨.encData (immByteOf w), rfl, eq_fields_of_mask_formB (h.trans hvalue)⟩
    | encAbort => exact ⟨.encAbort, rfl, eq_of_mask_formN h⟩
    | decOpen => exact ⟨.decOpen, rfl, eq_of_mask_formN h⟩
    | decData b =>
      have hvalue : 0x12000000#32 = encode (.decData 0) := by decide
      exact ⟨.decData (immByteOf w), rfl, eq_fields_of_mask_formB (h.trans hvalue)⟩
    | decEnd => exact ⟨.decEnd, rfl, eq_of_mask_formN h⟩
  · rintro ⟨j, hrow, rfl⟩
    rw [← hrow, encode_selects_row]

theorem exists_row_of_mem_opcodeTable {r : OpRow} (h : r ∈ opcodeTable) : ∃ i : Instr, i.row = r := by
  have hmap : r ∈ [Instr.encOpen 0, .encData 0, .encAbort, .decOpen, .decData 0, .decEnd].map Instr.row := h
  obtain ⟨i, -, hi⟩ := List.mem_map.mp hmap
  exact ⟨i, hi⟩

/-- Settles O4: a row selects the encodings of its commands, and these are what the row's port decodes to them. -/
theorem wordSelectsRowExactlyWhenDecodedToIt : Obligations.WordSelectsRowExactlyWhenDecodedToIt := by
  refine ⟨rfl, fun r hr p w => ?_⟩
  obtain ⟨i, rfl⟩ := exists_row_of_mem_opcodeTable hr
  rw [mask_eq_value_iff, row_port]
  constructor
  · rintro ⟨rfl, j, hrow, hw⟩
    have hport : j.port = i.port := by rw [← row_port, hrow, row_port]
    exact ⟨j, decodeCmd_eq_cmd_iff.mpr ⟨hport, hw⟩, hrow⟩
  · rintro ⟨j, hdec, hrow⟩
    obtain ⟨hport, hw⟩ := decodeCmd_eq_cmd_iff.mp hdec
    exact ⟨by rw [← hport, ← row_port, hrow, row_port], j, hrow, hw⟩

/-! ### The illegal words (R119, R121, R125) -/

/-- The legal words of `enc_cmd`, by their fields: RSV = 0x00 and an opcode of the port with its form's IMM. -/
theorem legalOn_enc_iff (w : Word32) :
    legalOn .enc w = true ↔ rsvOf w = 0x00#8 ∧
      (opcOf w = 0x01#8 ∨ (opcOf w = 0x02#8 ∧ immHighOf w = 0x00#8) ∨ (opcOf w = 0x03#8 ∧ immOf w = 0x0000#16)) := by
  rw [legalOn_iff]
  constructor
  · rintro ⟨i, h⟩
    obtain ⟨hp, rfl⟩ := decodeCmd_eq_cmd_iff.mp h
    cases i with
    | encOpen | encData | encAbort => simp
    | decOpen | decData | decEnd => cases hp
  · rintro ⟨hr, ho | ⟨ho, hz⟩ | ⟨ho, hm⟩⟩
    · exact ⟨.encOpen (immOf w), by simp [decodeCmd, decodeEnc, hr, ho]⟩
    · exact ⟨.encData (immByteOf w), by simp [decodeCmd, decodeEnc, hr, ho, hz]⟩
    · exact ⟨.encAbort, by simp [decodeCmd, decodeEnc, hr, ho, hm]⟩

/-- The legal words of `dec_cmd`, by their fields. -/
theorem legalOn_dec_iff (w : Word32) :
    legalOn .dec w = true ↔ rsvOf w = 0x00#8 ∧
      ((opcOf w = 0x11#8 ∧ immOf w = 0x0000#16) ∨ (opcOf w = 0x12#8 ∧ immHighOf w = 0x00#8) ∨
        (opcOf w = 0x13#8 ∧ immOf w = 0x0000#16)) := by
  rw [legalOn_iff]
  constructor
  · rintro ⟨i, h⟩
    obtain ⟨hp, rfl⟩ := decodeCmd_eq_cmd_iff.mp h
    cases i with
    | encOpen | encData | encAbort => cases hp
    | decOpen | decData | decEnd => simp
  · rintro ⟨hr, ⟨ho, hm⟩ | ⟨ho, hz⟩ | ⟨ho, hm⟩⟩
    · exact ⟨.decOpen, by simp [decodeCmd, decodeDec, hr, ho, hm]⟩
    · exact ⟨.decData (immByteOf w), by simp [decodeCmd, decodeDec, hr, ho, hz]⟩
    · exact ⟨.decEnd, by simp [decodeCmd, decodeDec, hr, ho, hm]⟩

/-- The alternatives of R121 are what is left when the fields are those of no legal word of the port. -/
theorem legalOn_eq_false_iff (p : Port) (w : Word32) :
    legalOn p w = false ↔
      rsvOf w ≠ 0 ∨
      opcOf w ∉ [0x01#8, 0x02#8, 0x03#8, 0x11#8, 0x12#8, 0x13#8] ∨
      (opcOf w ∈ [0x02#8, 0x12#8] ∧ immHighOf w ≠ 0) ∨
      (opcOf w ∈ [0x03#8, 0x11#8, 0x13#8] ∧ immOf w ≠ 0) ∨
      (p = .enc ∧ opcOf w ∈ [0x11#8, 0x12#8, 0x13#8]) ∨
      (p = .dec ∧ opcOf w ∈ [0x01#8, 0x02#8, 0x03#8]) := by
  rw [Bool.eq_false_iff, ne_eq]
  by_cases hlisted : opcOf w ∈ [0x01#8, 0x02#8, 0x03#8, 0x11#8, 0x12#8, 0x13#8]
  · have hsix : opcOf w = 0x01#8 ∨ opcOf w = 0x02#8 ∨ opcOf w = 0x03#8 ∨ opcOf w = 0x11#8 ∨ opcOf w = 0x12#8 ∨
        opcOf w = 0x13#8 := by simpa using hlisted
    cases p with
    | enc =>
      rw [legalOn_enc_iff]
      rcases hsix with ho | ho | ho | ho | ho | ho <;> simp [ho, imp_iff_not_or]
    | dec =>
      rw [legalOn_dec_iff]
      rcases hsix with ho | ho | ho | ho | ho | ho <;> simp [ho, imp_iff_not_or]
  · refine iff_of_true ?_ (.inr (.inl hlisted))
    simp only [List.mem_cons, List.not_mem_nil, or_false, not_or] at hlisted
    cases p with
    | enc => simp [legalOn_enc_iff, hlisted]
    | dec => simp [legalOn_dec_iff, hlisted]

/-- No word is legal on both ports: it would encode a command of each (R118). -/
theorem not_legalOn_dec_of_legalOn_enc {w : Word32} (h : legalOn .enc w = true) : legalOn .dec w = false := by
  obtain ⟨i, hi⟩ := (legalOn_iff _ _).mp h
  obtain ⟨hport, rfl⟩ := decodeCmd_eq_cmd_iff.mp hi
  refine Bool.eq_false_iff.mpr fun hdec => ?_
  obtain ⟨j, hj⟩ := (legalOn_iff _ _).mp hdec
  obtain ⟨hport', heq⟩ := decodeCmd_eq_cmd_iff.mp hj
  rw [encode_inj.mp heq, hport] at hport'
  cases hport'

theorem acceptWord_of_illegal {p : Port} {w : Word32} (h : legalOn p w = false) (s : State) :
    acceptWord p w s = .next (s.illegalCommand p) := by
  rcases word_cases p w with ⟨-, why, hw⟩ | ⟨i, hp, hw⟩
  · rw [acceptWord, hw]
  · exact absurd hw (ne_encode_of_illegal h hp)

/-- Settles O5: the alternatives by the fields, the two ports by the encodings, the effect by what an accepted word does. -/
theorem illegalWordsAreExactlyThoseListed : Obligations.IllegalWordsAreExactlyThoseListed :=
  ⟨legalOn_eq_false_iff, fun _ => not_legalOn_dec_of_legalOn_enc, fun _ _ s h => acceptWord_of_illegal h s⟩

/-- Settles O27: the port transfers the word, and an accepted illegal word sets the flag of its port. -/
theorem illegalWordOnlySetsItsStickyFlag : Obligations.IllegalWordOnlySetsItsStickyFlag := by
  intro s w ws ms
  constructor
  · intro hm hw hr hl
    rw [step_of_transfer (p := .enc) hm hw hr, acceptWord_of_illegal hl]
    rfl
  · intro hm hw hr hl
    rw [step_of_transfer (p := .dec) hm hw hr, acceptWord_of_illegal hl]
    rfl

/-- Settles O2: the legal words are encodings, and the fields of the others are evaluated. -/
theorem exampleWordsDecodeAsGiven : Obligations.ExampleWordsDecodeAsGiven := by
  refine ⟨decodeCmd_encode (.encOpen 4), decodeCmd_encode (.encOpen 261), decodeCmd_encode (.encData 0x25),
    decodeCmd_encode .encAbort, decodeCmd_encode .decOpen, decodeCmd_encode (.decData 0x5B), decodeCmd_encode .decEnd,
    fun p => ?_, fun p => ?_, fun p => ?_, by decide⟩ <;> cases p <;> decide

/-! ### The assembler (R124, R126) -/

theorem assembleCmd_of_not_wf {c : AsmCmd} (h : c.wf = false) : assembleCmd c = none := by
  simp [assembleCmd, h]

/-- Bytes are operands in range (R124). -/
theorem all_byteInRange_bytes (p : List Byte) : (p.map BitVec.toNat).all AsmCmd.byteInRange = true := by
  simp only [List.all_map, List.all_eq_true, Function.comp_apply, AsmCmd.byteInRange, decide_eq_true_eq]
  intro b _
  exact Nat.le_of_lt_succ b.isLt

/-- Byte operands assemble to the commands of the bytes. -/
theorem map_byte_operands (mk : Byte → Instr) (p : List Byte) :
    (p.map BitVec.toNat).map (fun n => mk (BitVec.ofNat 8 n)) = p.map mk := by
  simp [Function.comp_def]

theorem assembleCmd_encOpen (n : Nat) :
    assembleCmd ⟨.encOpen, [n]⟩ = if n ≤ 65535 then some [.encOpen (BitVec.ofNat 16 n)] else none := by
  simp [assembleCmd, AsmCmd.wf, AsmCmd.lengthInRange]

theorem assembleCmd_encData (n : Nat) :
    assembleCmd ⟨.encData, [n]⟩ = if n ≤ 255 then some [.encData (BitVec.ofNat 8 n)] else none := by
  simp [assembleCmd, AsmCmd.wf, AsmCmd.byteInRange]

theorem assembleCmd_decData (n : Nat) :
    assembleCmd ⟨.decData, [n]⟩ = if n ≤ 255 then some [.decData (BitVec.ofNat 8 n)] else none := by
  simp [assembleCmd, AsmCmd.wf, AsmCmd.byteInRange]

/-- ENCODE of a payload that ENC_OPEN can announce: the bytes follow unless there are more than 256 (R126). -/
theorem assembleCmd_encode (p : List Byte) (h : p.length ≤ 65535) :
    assembleCmd ⟨.encodePseudo, p.map BitVec.toNat⟩ =
      some (.encOpen (BitVec.ofNat 16 p.length) :: if p.length ≤ 256 then p.map Instr.encData else []) := by
  have hwf : AsmCmd.wf ⟨.encodePseudo, p.map BitVec.toNat⟩ = true := by
    simp [AsmCmd.wf, AsmCmd.lengthInRange, h, all_byteInRange_bytes, -List.all_map]
  simp only [assembleCmd, hwf, if_true, List.length_map, map_byte_operands]
  split <;> rfl

/-- ENCODE of more bytes than any ENC_OPEN can announce is refused (R126). -/
theorem assembleCmd_encode_tooLong {ns : List Nat} (h : 65535 < ns.length) :
    assembleCmd ⟨.encodePseudo, ns⟩ = none :=
  assembleCmd_of_not_wf (by simp [AsmCmd.wf, AsmCmd.lengthInRange, Nat.not_le.mpr h])

theorem assembleCmd_decode (f : List Byte) :
    assembleCmd ⟨.decodePseudo, f.map BitVec.toNat⟩ = some (.decOpen :: f.map Instr.decData ++ [.decEnd]) := by
  have hwf : AsmCmd.wf ⟨.decodePseudo, f.map BitVec.toNat⟩ = true := all_byteInRange_bytes f
  simp only [assembleCmd, hwf, if_true, map_byte_operands]

/-- Every word of a line is the encoding of one of its commands, so its port decodes it. -/
theorem decode_of_mem_assembleWords {line : List Char} {ws : List Word32} (h : assembleWords line = some ws)
    {w : Word32} (hw : w ∈ ws) : ∃ i : Instr, encode i = w ∧ decodeCmd i.port w = .cmd i := by
  obtain ⟨is, -, rfl⟩ := Option.map_eq_some_iff.mp h
  obtain ⟨i, -, rfl⟩ := List.mem_map.mp hw
  exact ⟨i, rfl, decodeCmd_encode i⟩

/-- Settles O45: each form of line by the check of its operands, the words by decoding what was encoded. -/
theorem assemblerExpandsAndRefuses : Obligations.AssemblerExpandsAndRefuses := by
  refine ⟨assembleCmd_encOpen, assembleCmd_encData, assembleCmd_decData, rfl, rfl, rfl, fun p hp => ?_,
    fun p hlong hp => ?_, fun _ => assembleCmd_encode_tooLong, assembleCmd_decode,
    fun _ _ h _ => decode_of_mem_assembleWords h⟩
  · rw [assembleCmd_encode p (by omega), if_pos hp]
  · rw [assembleCmd_encode p hp, if_neg (by omega)]

end Sys2Proof.Machine
end

-- Proofs: the encoder (spec/40_encoder.md)
section
/-! PROOFS. What spec/40_encoder.md says of the encoder: the effect of each command and the bytes it emits, the room a word
waits for, the stray reserved bytes of a frame, an encode transaction against Encode, and each engine as a function of the
words it accepted. -/

namespace Sys2Proof.Machine

/-! ### The effect of each command (R151 to R161) -/

/-- A word with RSV = 0x00 is its opcode's word with IMM put in (R116). -/
theorem fields_eq_or (o : BitVec 8) (m : BitVec 16) :
    (o ++ 0x00#8 ++ m : Word32) = (o ++ 0x00#8 ++ 0x0000#16) ||| m.setWidth 32 := by
  apply BitVec.eq_of_getLsbD_eq
  intro i hi
  rw [BitVec.getLsbD_or, getLsbD_fields, getLsbD_fields, BitVec.getLsbD_setWidth]
  split_ifs <;> simp_all [BitVec.getLsbD_of_ge]

theorem encode_encOpen_eq_or (len : BitVec 16) : encode (.encOpen len) = 0x01000000 ||| len.setWidth 32 :=
  fields_eq_or 0x01#8 len

theorem encode_encData_eq_or (b : Byte) : encode (.encData b) = 0x02000000 ||| b.setWidth 32 := by
  have himm : (0x00#8 ++ b : BitVec 16).setWidth 32 = b.setWidth 32 := by
    apply BitVec.eq_of_getLsbD_eq
    intro i hi
    rw [BitVec.getLsbD_setWidth, BitVec.getLsbD_setWidth, getLsbD_bytes]
    split_ifs <;> simp_all [BitVec.getLsbD_of_ge]
  rw [encode, formB_eq_fields, fields_eq_or, himm]
  rfl

/-- The element of a byte, by the three values of the reserved set (R157). -/
theorem bodyElement_eq_ite (v : Variant) (b : Byte) :
    bodyElement v b = if b = startByte v ∨ b = termByte v ∨ b = escapeByte v then [escapeByte v, b ^^^ maskByte v]
      else [b] := by
  simp only [bodyElement, reserved_iff, masked]

/-- Settles O6, one case of ENC_OPEN after the other. -/
theorem encOpenOpensFrameOrRecordsWhyNot : Obligations.EncOpenOpensFrameOrRecordsWhyNot := fun len s => by
  refine ⟨encode_encOpen_eq_or len, fun hs => ?_, fun hs hl => ?_, fun hs hl => ?_, fun hs h1 h2 => ?_⟩
  · rw [exec_encOpen, encOpenStep_body _ _ _ hs]
    rfl
  · rw [exec_encOpen, encOpenStep_tooLong _ _ _ hs hl]
    rfl
  · rw [exec_encOpen, encOpenStep_empty _ _ _ hs hl]
    rfl
  · rw [exec_encOpen, encOpenStep_opens _ _ _ hs h1 h2, BitVec.ofNat_toNat]
    rfl

/-- Settles O7: a sequence error in IDLE, a byte in the middle of a frame, and the last byte of a frame. -/
theorem encDataEmitsElementAndClosesFrame : Obligations.EncDataEmitsElementAndClosesFrame := fun b s => by
  refine ⟨encode_encData_eq_or b, fun hs => ?_, fun element hs hel => ?_⟩
  · rw [exec_encData, encDataStep_idle _ _ _ hs]
    rfl
  · obtain rfl : element = bodyElement s.build.variant b := hel.trans (bodyElement_eq_ite _ b).symm
    exact ⟨fun hr => by rw [exec_encData, encDataStep_middle _ _ _ hs hr],
      fun hr => by rw [exec_encData, encDataStep_last _ _ _ hs hr]⟩

/-- Settles O8, in BODY and in IDLE. -/
theorem encAbortClosesFrameWithoutBytes : Obligations.EncAbortClosesFrameWithoutBytes := fun s => by
  refine ⟨by decide, fun hs => ?_, fun hs => ?_⟩
  · rw [exec_encAbort, encAbortStep_body _ hs]
  · rw [exec_encAbort, encAbortStep_idle _ hs]
    rfl

/-! ### The bytes a word emits (R172) -/

theorem encOpenStep_eoq_of_refused {v : Variant} {len : BitVec 16} {e : Enc} (h : e.state = .body ∨ 256 < len.toNat) :
    (encOpenStep v len e).eoq = e.eoq := by
  rcases e.idle_or_body with hs | hs
  · have hl : 256 < len.toNat := h.resolve_left (by simp [hs])
    rw [encOpenStep_tooLong v len e hs hl, Enc.invalidInput_eoq]
  · rw [encOpenStep_body v len e hs, Enc.sequenceError_eoq]

theorem encWord_of_illegal {w : Word32} (h : legalOn .enc w = false) (v : Variant) (e : Enc) :
    encWord v e w = e.illegalCommand := by
  rcases word_cases .enc w with ⟨-, why, hw⟩ | ⟨i, hp, hw⟩
  · rw [encWord, hw]
  · exact absurd hw (ne_encode_of_illegal h hp)

/-- Every word emits at most four bytes, behind what is queued (R150, R172). -/
theorem encWord_emits (v : Variant) (e : Enc) (w : Word32) :
    ∃ bs, (encWord v e w).eoq = e.eoq ++ bs ∧ bs.length ≤ 4 := by
  rcases encWord_cases v e w with ⟨-, h⟩ | ⟨len, -, h⟩ | ⟨b, -, h⟩ | ⟨-, h⟩ <;> rw [h]
  · exact ⟨[], by simp, by simp⟩
  · rcases encOpenStep_cases v len e with ⟨-, he⟩ | ⟨-, -, he⟩ | ⟨-, -, he⟩ | ⟨-, -, -, he⟩ <;> rw [he]
    · exact ⟨[], by simp, by simp⟩
    · exact ⟨[], by simp, by simp⟩
    · exact ⟨_, rfl, by simp⟩
    · exact ⟨_, rfl, by simp⟩
  · have hel := bodyElement_length_le v b
    rcases encDataStep_cases v b e with ⟨-, he⟩ | ⟨-, -, he⟩ | ⟨-, -, he⟩ <;> rw [he]
    · exact ⟨[], by simp, by simp⟩
    · exact ⟨_, rfl, by omega⟩
    · exact ⟨_, List.append_assoc _ _ _, by simpa using hel⟩
  · obtain ⟨-, -, -, -, heoq⟩ := encAbortStep_keeps e
    exact ⟨[], by simp [heoq], by simp⟩

/-- Settles O9: the bytes emitted are what the command's case puts behind the queue. -/
theorem emittedByteCountsByCase : Obligations.EmittedByteCountsByCase := fun w s => by
  obtain ⟨bs, hbs, hle⟩ := encWord_emits s.build.variant s.e w
  refine ⟨_, bs, acceptWord_enc w s, hbs, hle, fun hl => ?_, ?_, ?_, ?_⟩
  · rw [encWord_of_illegal hl] at hbs
    simpa using hbs
  · rintro len rfl
    rw [encWord_encode_encOpen] at hbs
    refine ⟨fun h => ?_, fun hs h0 => ?_, fun hs h1 h2 => ?_⟩
    · rw [encOpenStep_eoq_of_refused h] at hbs
      simpa using hbs
    · rw [encOpenStep_empty _ _ _ hs h0] at hbs
      simp [← List.append_cancel_left hbs]
    · rw [encOpenStep_opens _ _ _ hs h1 h2] at hbs
      simp [← List.append_cancel_left hbs]
  · rintro b rfl
    rw [encWord_encode_encData] at hbs
    have hel := bodyElement_length s.build.variant b
    refine ⟨fun hs => ?_, fun hs hr => ?_, fun hs hr => ?_⟩
    · rw [encDataStep_idle _ _ _ hs] at hbs
      simpa using hbs
    · rw [encDataStep_middle _ _ _ hs hr] at hbs
      rw [← List.append_cancel_left hbs, hel]
    · rw [encDataStep_last _ _ _ hs hr, List.append_assoc] at hbs
      rw [← List.append_cancel_left hbs, List.length_append, hel]
      split <;> rfl
  · rintro rfl
    obtain ⟨-, -, -, -, heoq⟩ := encAbortStep_keeps s.e
    rw [encWord_encode_encAbort, heoq] at hbs
    simpa using hbs

/-! ### The stray reserved bytes of a frame (R163) -/

/-- The byte after index 0 of a frame is a byte of the body, the checksum, or TERM. -/
theorem frameOf_getElem?_succ (v : Variant) (p : List Byte) (i : Nat) :
    (frameOf v p)[i + 1]? = (escapedBody v p ++ [checksum p, termByte v])[i]? := by
  simp [frameOf_eq]

/-- An ESCAPE in a frame opens a pair of the body, or it is the checksum byte, right behind the body. -/
theorem frameOf_escape_cases {v : Variant} {p : List Byte} {i : Nat} (h : (frameOf v p)[i]? = some (escapeByte v)) :
    (∃ r, reserved v r = true ∧ (frameOf v p)[i + 1]? = some (masked v r)) ∨
    (i = (escapedBody v p).length + 1 ∧ checksum p = escapeByte v) := by
  cases i with
  | zero => exact absurd (Option.some.inj h) (startByte_ne_escapeByte v)
  | succ i =>
    rw [frameOf_getElem?_succ] at h ⊢
    rcases Nat.lt_trichotomy i (escapedBody v p).length with hi | rfl | hi
    · rw [List.getElem?_append_left hi] at h
      obtain ⟨r, hr, hnext⟩ := escapedBody_escape_followed v p i h
      obtain ⟨hi', -⟩ := List.getElem?_eq_some_iff.mp hnext
      exact .inl ⟨r, hr, by rw [List.getElem?_append_left hi', hnext]⟩
    · exact .inr ⟨rfl, by simpa using h⟩
    · obtain ⟨k, rfl⟩ := Nat.exists_eq_add_of_lt hi
      rw [List.getElem?_append_right (by omega), Nat.add_assoc, Nat.add_sub_cancel_left] at h
      cases k with
      | zero => exact absurd (Option.some.inj h) (termByte_ne_escapeByte v)
      | succ k => simp at h

/-- TERM follows the checksum byte. -/
theorem frameOf_after_checksum (v : Variant) (p : List Byte) :
    (frameOf v p)[(escapedBody v p).length + 1]? = some (checksum p) ∧
    (frameOf v p)[(escapedBody v p).length + 2]? = some (termByte v) := by
  simp [frameOf_getElem?_succ]

/-- TERM is no masked reserved value (R9). -/
theorem termByte_ne_masked {v : Variant} {r : Byte} (h : reserved v r = true) : termByte v ≠ masked v r := fun hc => by
  have hr := reserved_masked_of_reserved h
  rw [← hc, reserved_termByte] at hr
  cases hr

theorem startByte_mem_frameOf_tail_iff (v : Variant) (p : List Byte) :
    startByte v ∈ (frameOf v p).tail ↔ checksum p = startByte v := by
  simp [frameOf_eq, startByte_notMem_escapedBody, startByte_ne_termByte, eq_comm]

theorem termByte_mem_frameOf_dropLast_iff (v : Variant) (p : List Byte) :
    termByte v ∈ (frameOf v p).dropLast ↔ checksum p = termByte v := by
  have hlast : (frameOf v p).dropLast = [startByte v] ++ escapedBody v p ++ [checksum p] := by
    rw [frameOf_eq, List.append_cons _ _ [termByte v], List.dropLast_concat]
  simp [hlast, termByte_notMem_escapedBody, (startByte_ne_termByte v).symm, eq_comm]

/-- Settles O52: outside the delimiters and the checksum byte every reserved value of a frame is an ESCAPE of a pair. -/
theorem rawChecksumIsTheOnlyStrayReservedByte : Obligations.RawChecksumIsTheOnlyStrayReservedByte := fun v p f hf => by
  obtain ⟨-, rfl⟩ := encodeRef_eq_some.mp hf
  obtain ⟨hsum, hterm⟩ := frameOf_after_checksum v p
  refine ⟨startByte_mem_frameOf_tail_iff v p, termByte_mem_frameOf_dropLast_iff v p, ⟨?_, fun hc => ?_⟩, ?_⟩
  · rintro ⟨i, hi, hstray⟩
    exact ((frameOf_escape_cases hi).resolve_left hstray).2
  · refine ⟨(escapedBody v p).length + 1, by rw [hsum, hc], ?_⟩
    rintro ⟨r, hr, hnext⟩
    exact termByte_ne_masked hr (Option.some.inj (hterm.symm.trans hnext))
  · intro i hi hstray
    obtain ⟨rfl, -⟩ := (frameOf_escape_cases hi).resolve_left hstray
    exact hterm

/-! ### The room a word waits for (R150) -/

/-- Outside reset `enc_cmd` is ready exactly when EOQ has room for the four bytes a command can emit. -/
theorem cmdReady_enc_iff {s : State} (hr : s.host.rst = false) :
    cmdReady .enc s = true ↔ s.e.eoq.length ≤ s.build.oqDepth.val - 4 := by
  have hlow := s.build.oqDepth.low
  simp only [cmdReady, encCmdReady, hr, Bool.not_false, Bool.true_and, decide_eq_true_eq]
  omega

/-- A step is the host's next move, with the move used up (R272 to R275). -/
theorem step_of_move {s : State} {m : HostMove} {ms : List HostMove} (hm : s.host.moves = m :: ms) :
    step s = hostStep m (setMoves ms s) := by
  rw [step, runNextMove, hm]

theorem hostStep_moveFor (p : Port) (s : State) : hostStep (moveFor p) s = portStep p s := by cases p <;> rfl

theorem handshake_of_not_ready {p : Port} {s : State} (h : cmdReady p s = false) : handshake p s = none := by
  unfold handshake
  split <;> simp [h]

/-- At a port's own move the word accepted is that of its handshake, whatever moves come after. -/
theorem acceptedNext_of_move {p : Port} {s : State} {ms : List HostMove} (hm : s.host.moves = moveFor p :: ms) :
    acceptedNext p s = (handshake p (setMoves ms s)).map Prod.fst := by
  simp only [acceptedNext, hm, if_true, handshake, portWords_setMoves, cmdReady_setMoves]
  cases portWords p s with
  | nil => rfl
  | cons w ws => cases cmdReady p s <;> rfl

/-- A word whose port is not ready waits: the step uses up the move and, outside reset, changes nothing else (R346). -/
theorem step_of_waiting {p : Port} {s : State} {ms : List HostMove} (hm : s.host.moves = moveFor p :: ms)
    (hr : s.host.rst = false) (hready : cmdReady p s = false) :
    acceptedNext p s = none ∧ step s = .next (setMoves ms s) := by
  have hwait : handshake p (setMoves ms s) = none := handshake_of_not_ready (by rw [cmdReady_setMoves, hready])
  constructor
  · rw [acceptedNext_of_move hm, hwait, Option.map_none]
  · rw [step_of_move hm, hostStep_moveFor, portStep, hwait]
    exact congrArg Host.Outcome.next (clockEdge_of_released (setMoves ms s) hr)

/-- Settles O28: the room decides a handshake, and over a step EOQ loses bytes only by a transfer or a reset and gains at most
four, when there was room for them. -/
theorem encoderWordWaitsForRoom : Obligations.EncoderWordWaitsForRoom := by
  refine ⟨fun s w ws ms hm hw hr => ⟨fun hroom => ?_, fun hroom => ?_⟩, fun s t h hfull hroom => ?_, fun s t h hle => ?_⟩
  · have hready := (cmdReady_enc_iff hr).mpr hroom
    exact ⟨acceptedNext_eq_some.mpr ⟨ms, ws, hm, hw, hready⟩, step_of_transfer (p := .enc) hm hw hready⟩
  · have hready := Bool.eq_false_iff.mpr (mt (cmdReady_enc_iff hr).mp hroom)
    exact step_of_waiting (p := .enc) hm hr hready
  · obtain ⟨hb, hreset | ⟨-, -, -, hnone, -⟩ | ⟨-, -, -, -, hpop, -⟩⟩ := step_engines h
    · exact .inl hreset.1
    · cases hw : acceptedNext .enc s with
      | none =>
        rw [hnone hw, hb] at hroom
        exact absurd hroom hfull
      | some w =>
        have := room_of_acceptedNext hw
        omega
    · exact .inr hpop
  · rw [(step_engines h).1]
    cases hr : t.host.rst with
    | true =>
      rw [(engines_of_step_reset h hr).1]
      exact Nat.zero_le _
    | false =>
      rcases enc_of_step h hr with ⟨-, q, hq, he⟩ | ⟨w, hw, he⟩
      · rw [he]
        exact hq.length_le.trans hle
      · obtain ⟨bs, hbs, hlen⟩ := encWord_emits s.build.variant s.e w
        have hroom := room_of_acceptedNext hw
        rw [he, hbs, List.length_append]
        omega

/-! ### A host that drains `enc_out` (R272, R353) -/

/-- What a run accepts goes on from what its first step answers. -/
theorem acceptedIn_succ {s t : State} (p : Port) (k : Nat) (h : step s = .next t) :
    acceptedIn p (k + 1) s = (acceptedNext p s).toList ++ acceptedIn p k t := by
  rw [acceptedIn, h]

/-- The word accepted on a port is that of the port's own move. -/
theorem acceptedNext_eq_none_of_move {p : Port} {s : State} {m : HostMove} {ms : List HostMove}
    (hm : s.host.moves = m :: ms) (h : m ≠ moveFor p) : acceptedNext p s = none := by
  simp [acceptedNext, hm, h]

/-- An output transfer outside reset: the head of EOQ goes to OUT (R272). -/
theorem step_of_transferred_byte {s : State} {b : Byte} {bs : List Byte} {ms : List HostMove}
    (hm : s.host.moves = .encPop :: ms) (hr : s.host.rst = false) (hq : s.e.eoq = b :: bs) :
    step s = .next ((s.setE { s.e with eoq := bs }).setHost
      { s.host with moves := ms, out := s.host.out ++ [b] }) := by
  have hvalid : encOutValid (setMoves ms s) = true := by simp [encOutValid, hr, hq]
  have hpop : encPop (setMoves ms s) = (s.setE { s.e with eoq := bs }).setHost
      { s.host with moves := ms, out := s.host.out ++ [b] } := by
    simp only [encPop, setMoves_e, hq, hvalid, if_true]
    rfl
  rw [step_of_move hm, hostStep, hpop]
  exact congrArg Host.Outcome.next (clockEdge_of_released _ hr)

theorem setMoves_self (s : State) : setMoves s.host.moves s = s := rfl

theorem drainAll_of_empty {s : State} (h : s.e.eoq = []) : drainAll s = s := by
  have he : ({ s.e with eoq := [] } : Enc) = s.e := by rw [← h]
  simp only [drainAll, h, List.append_nil, he]
  rfl

/-- As many transfers as EOQ holds bytes deliver them all, in order, and accept no word. -/
theorem run_drains (k : Nat) (ms : List HostMove) (s : State) (hr : s.host.rst = false)
    (hm : s.host.moves = List.replicate s.e.eoq.length .encPop ++ ms) :
    Host.Core.run Sys2Proof.core (s.e.eoq.length + k) s = Host.Core.run Sys2Proof.core k (setMoves ms (drainAll s)) ∧
    acceptedIn .enc (s.e.eoq.length + k) s = acceptedIn .enc k (setMoves ms (drainAll s)) := by
  induction hq : s.e.eoq generalizing s with
  | nil =>
    rw [hq] at hm
    obtain rfl : s.host.moves = ms := hm
    rw [drainAll_of_empty hq, setMoves_self]
    simp
  | cons b bs ih =>
    rw [hq, List.length_cons, List.replicate_succ, List.cons_append] at hm
    have hstep := step_of_transferred_byte hm hr hq
    have hnone : acceptedNext .enc s = none := acceptedNext_eq_none_of_move hm nofun
    obtain ⟨hrun, hacc⟩ := ih ((s.setE { s.e with eoq := bs }).setHost
      { s.host with moves := List.replicate bs.length .encPop ++ ms, out := s.host.out ++ [b] }) hr rfl rfl
    rw [List.length_cons, Nat.add_right_comm, core_run_succ _ hstep, acceptedIn_succ _ _ hstep, hnone, hrun, hacc]
    simp [drainAll, setMoves, State.setHost, State.setE, hq]

/-- Settles O58: after the transfers EOQ is empty, so the next handshake is ready. -/
theorem drainingHostGetsItsWordAccepted : Obligations.DrainingHostGetsItsWordAccepted := fun s w ws ms hr hw hm => by
  obtain ⟨hrun, hacc⟩ := run_drains 1 (.encCmd :: ms) s hr hm
  have hready : cmdReady .enc (setMoves (.encCmd :: ms) (drainAll s)) = true := by
    rw [cmdReady_setMoves, cmdReady_drainAll hr]
  have hnext : acceptedNext .enc (setMoves (.encCmd :: ms) (drainAll s)) = some w :=
    acceptedNext_eq_some.mpr ⟨ms, ws, rfl, hw, hready⟩
  have hstep := step_of_transfer (p := .enc) (s := setMoves (.encCmd :: ms) (drainAll s)) (ms := ms) rfl hw hready
  rw [acceptWord_enc] at hstep
  refine ⟨_, hrun.trans (core_run_succ 0 hstep), ?_, rfl, rfl, rfl, rfl⟩
  rw [hacc, acceptedIn_succ _ _ hstep, hnext]
  rfl

/-! ### An engine over a run (R91, R92, R94, R171) -/

theorem acceptWord_host {p : Port} {w : Word32} {s t : State} (h : acceptWord p w s = .next t) : t.host = s.host := by
  cases p with
  | enc =>
    rw [acceptWord_enc] at h
    cases h
    rfl
  | dec =>
    rw [acceptWord_dec] at h
    cases h
    rfl

theorem setPortWords_portWords (p : Port) (s : State) : setPortWords p (portWords p s) s = s := by cases p <;> rfl

theorem portWords_congr {s t : State} (h : t.host = s.host) (p : Port) : portWords p t = portWords p s := by
  cases p <;> simp [portWords, h]

theorem portWords_setPortWords_of_ne {p q : Port} (h : q ≠ p) (ws : List Word32) (s : State) :
    portWords q (setPortWords p ws s) = portWords q s := by
  cases p with
  | enc =>
    cases q with
    | enc => exact absurd rfl h
    | dec => rfl
  | dec =>
    cases q with
    | enc => rfl
    | dec => exact absurd rfl h

/-- A handshake takes the transferred word, if any, from the head of the port's words, and is all that the host's side
sees (R273). -/
theorem portStep_host {p : Port} {s t : State} (h : portStep p s = .next t) :
    ∃ ws, ((handshake p s).map Prod.fst).toList ++ ws = portWords p s ∧ t.host = (setPortWords p ws s).host := by
  unfold portStep at h
  cases hh : handshake p s with
  | none =>
    rw [hh] at h
    cases h
    exact ⟨portWords p s, rfl, by rw [clockEdge_host, setPortWords_portWords]⟩
  | some wu =>
    obtain ⟨w, u⟩ := wu
    rw [hh] at h
    obtain ⟨ws, hw, -, rfl⟩ := handshake_eq_some.mp hh
    exact ⟨ws, hw.symm, acceptWord_host h⟩

/-- What a move leaves of the host's side: the coming moves, `rst` released unless the move drives it, and the words of
every port whose handshake it is not. -/
structure HostKept (m : HostMove) (s t : State) : Prop where
  moves : t.host.moves = s.host.moves
  rst   : m ≠ .rst true → s.host.rst = false → t.host.rst = false
  words : ∀ q, m ≠ moveFor q → portWords q t = portWords q s

theorem hostKept_portStep {p : Port} {s t : State} (h : portStep p s = .next t) : HostKept (moveFor p) s t := by
  obtain ⟨ws, -, ht⟩ := portStep_host h
  refine ⟨by rw [ht, setPortWords_moves], fun _ hr => by rw [ht, setPortWords_rst, hr], fun q hq => ?_⟩
  have hqp : q ≠ p := fun hc => hq (congrArg moveFor hc.symm)
  rw [portWords_congr ht, portWords_setPortWords_of_ne hqp]

theorem hostKept_encPop (s : State) : HostKept .encPop s (encPop s) := by
  rcases encPop_cases s with h | ⟨b, bs, -, -, h⟩ <;> rw [h]
  · exact ⟨rfl, fun _ hr => hr, fun _ _ => rfl⟩
  · exact ⟨rfl, fun _ hr => hr, fun q _ => by cases q <;> rfl⟩

/-- A clock edge leaves the host's side (R343). -/
theorem HostKept.clockEdge {m : HostMove} {s t : State} (h : HostKept m s t) : HostKept m s t.clockEdge :=
  ⟨by rw [clockEdge_host, h.moves], fun hm hr => by rw [clockEdge_host, h.rst hm hr],
    fun q hq => by rw [portWords_congr (clockEdge_host t), h.words q hq]⟩

theorem hostKept_hostStep {m : HostMove} {s t : State} (h : hostStep m s = .next t) : HostKept m s t := by
  cases m with
  | encCmd => exact hostKept_portStep (p := .enc) h
  | decCmd => exact hostKept_portStep (p := .dec) h
  | encPop =>
    cases h
    exact (hostKept_encPop s).clockEdge
  | csrRead addr =>
    cases h
    exact HostKept.clockEdge ⟨rfl, fun _ hr => hr, fun q _ => by cases q <;> rfl⟩
  | rst level =>
    cases h
    refine HostKept.clockEdge ⟨rfl, fun hm _ => ?_, fun q _ => by cases q <;> rfl⟩
    cases level with
    | false => rfl
    | true => exact absurd rfl hm

/-- A run without reset has none in its first step and none after it. -/
theorem noReset_succ {k : Nat} {s t : State} (hn : noReset (k + 1) s) (h : step s = .next t) : noReset k t := by
  obtain ⟨hr, hmem⟩ := hn
  cases hm : s.host.moves with
  | nil =>
    rw [step, runNextMove, hm] at h
    cases h
    exact ⟨by rw [clockEdge_host, hr], by simp [clockEdge_host, hm]⟩
  | cons m ms =>
    rw [step_of_move hm] at h
    have hkept := hostKept_hostStep h
    rw [hm, List.take_succ_cons, List.mem_cons, not_or] at hmem
    refine ⟨hkept.rst (Ne.symm hmem.1) hr, ?_⟩
    rw [hkept.moves]
    exact hmem.2

/-- A step takes the word a port accepts, if any, from the head of the port's words (R273). -/
theorem acceptedNext_append_portWords {s t : State} (p : Port) (h : step s = .next t) :
    (acceptedNext p s).toList ++ portWords p t = portWords p s := by
  cases hm : s.host.moves with
  | nil =>
    have hnone : acceptedNext p s = none := by simp [acceptedNext, hm]
    rw [step, runNextMove, hm] at h
    cases h
    rw [hnone, portWords_congr (clockEdge_host s)]
    rfl
  | cons m ms =>
    rw [step_of_move hm] at h
    by_cases hp : m = moveFor p
    · subst hp
      rw [hostStep_moveFor] at h
      obtain ⟨ws, hws, ht⟩ := portStep_host h
      rw [acceptedNext_of_move hm, portWords_congr ht, portWords_setPortWords, hws, portWords_setMoves]
    · rw [acceptedNext_eq_none_of_move hm hp, (hostKept_hostStep h).words p hp, portWords_setMoves]
      rfl

/-- Outside reset what E has emitted grows by what the accepted word, if any, emits; a transfer only moves a byte (R94). -/
theorem encWithDelivered_of_step {s t : State} (h : step s = .next t) (hr : t.host.rst = false) :
    t.encWithDelivered = (acceptedNext .enc s).toList.foldl (encWord s.build.variant) s.encWithDelivered := by
  rcases (step_engines h).2 with ⟨hr', -⟩ | ⟨-, hout, hword, hnone, -⟩ | ⟨-, hnone, -, -, -, b, bs, hq, he, hout⟩
  · simp [hr] at hr'
  · cases hw : acceptedNext .enc s with
    | none => rw [State.encWithDelivered, hout, hnone hw]; rfl
    | some w =>
      rw [State.encWithDelivered, hout, hword w hw]
      exact (encWord_prepend _ _ _ _).symm
  · rw [hnone, State.encWithDelivered, hout, he]
    simp [State.encWithDelivered, hq]

theorem dec_foldl_of_step {s t : State} (h : step s = .next t) (hr : t.host.rst = false) :
    t.d = (acceptedNext .dec s).toList.foldl (decWord s.build.variant) s.d := by
  rcases dec_of_step h hr with ⟨hn, hd⟩ | ⟨w, hw, hd⟩
  · rw [hn, hd]
    rfl
  · rw [hw, hd]
    rfl

/-- Settles O57, by induction on the number of steps. -/
theorem enginesDependOnlyOnTheirAcceptedWords : Obligations.EnginesDependOnlyOnTheirAcceptedWords := fun k => by
  induction k with
  | zero => exact fun s _ => ⟨s, rfl, rfl, rfl, rfl, rfl⟩
  | succ k ih =>
    intro s hn
    obtain ⟨u, hu⟩ := step_answers_next s
    have hn' := noReset_succ hn hu
    obtain ⟨t, hrun, henc, hdec, he, hd⟩ := ih u hn'
    refine ⟨t, (core_run_succ k hu).trans hrun, ?_, ?_, ?_, ?_⟩
    · rw [acceptedIn_succ _ _ hu, List.append_assoc, henc]
      exact acceptedNext_append_portWords .enc hu
    · rw [acceptedIn_succ _ _ hu, List.append_assoc, hdec]
      exact acceptedNext_append_portWords .dec hu
    · rw [acceptedIn_succ _ _ hu, List.foldl_append, ← encWithDelivered_of_step hu hn'.1, he, (step_engines hu).1]
    · rw [acceptedIn_succ _ _ hu, List.foldl_append, ← dec_foldl_of_step hu hn'.1, hd, (step_engines hu).1]

/-! ### What a payload makes of E (R170) -/

/-- E while the frame of an n-byte payload is open and the bytes q of the payload have come, started from `e` in IDLE. -/
def Enc.inFrame (v : Variant) (n : Nat) (q : List Byte) (e : Enc) : Enc :=
  { e with
    state := .body, rem := BitVec.ofNat 9 (n - q.length), sum := checksum q, err := false,
    eoq := e.eoq ++ startByte v :: escapedBody v q }

/-- E after the whole frame of the payload p, started from `e` in IDLE. -/
def Enc.afterFrame (v : Variant) (p : List Byte) (e : Enc) : Enc :=
  { e with state := .idle, rem := 0, sum := checksum p, err := false, eoq := e.eoq ++ frameOf v p }

theorem escapedBody_append_single (v : Variant) (q : List Byte) (b : Byte) :
    escapedBody v (q ++ [b]) = escapedBody v q ++ bodyElement v b := by
  simp [escapedBody]

/-- ENC_OPEN of a payload that is not empty opens its frame (R154). -/
theorem encOpenStep_inFrame {v : Variant} {n : Nat} {e : Enc} (hs : e.state = .idle) (h1 : 1 ≤ n) (h2 : n ≤ 256) :
    encOpenStep v (BitVec.ofNat 16 n) e = e.inFrame v n [] := by
  have hn : (BitVec.ofNat 16 n).toNat = n := Nat.mod_eq_of_lt (by omega)
  rw [encOpenStep_opens v _ e hs (by omega) (by omega), hn]
  rfl

/-- ENC_OPEN of the empty payload emits its whole frame (R153). -/
theorem encOpenStep_afterFrame {v : Variant} {e : Enc} (hs : e.state = .idle) (hrem : e.rem = 0) :
    encOpenStep v (BitVec.ofNat 16 0) e = e.afterFrame v [] := by
  rw [encOpenStep_empty v _ e hs rfl]
  obtain ⟨⟩ := e
  cases hs
  cases hrem
  rfl

theorem inFrame_rem_toNat {n : Nat} (v : Variant) (q : List Byte) (e : Enc) (h : n ≤ 256) :
    (e.inFrame v n q).rem.toNat = n - q.length :=
  Nat.mod_eq_of_lt (by omega)

/-- A byte of the payload that is not the last one leaves the frame open (R157, R158). -/
theorem encDataStep_inFrame {v : Variant} {n : Nat} {q : List Byte} {b : Byte} (e : Enc) (h1 : q.length + 1 < n)
    (h2 : n ≤ 256) : encDataStep v b (e.inFrame v n q) = e.inFrame v n (q ++ [b]) := by
  have hrem := inFrame_rem_toNat v q e h2
  have hnext : (e.inFrame v n q).rem - 1 = BitVec.ofNat 9 (n - (q ++ [b]).length) := by
    apply BitVec.eq_of_toNat_eq
    rw [rem_sub_one_toNat (by omega), hrem, BitVec.toNat_ofNat, Nat.mod_eq_of_lt (by omega), List.length_append]
    rfl
  have hne : (e.inFrame v n q).rem ≠ 1 := fun hc => by
    rw [hc] at hrem
    change 1 = _ at hrem
    omega
  rw [encDataStep_middle v b _ rfl hne, hnext]
  simp [Enc.inFrame, checksum_append_single, escapedBody_append_single]

/-- The last byte of the payload closes the frame (R159). -/
theorem encDataStep_afterFrame {v : Variant} {n : Nat} {q : List Byte} {b : Byte} (e : Enc) (h1 : q.length + 1 = n)
    (h2 : n ≤ 256) : encDataStep v b (e.inFrame v n q) = e.afterFrame v (q ++ [b]) := by
  have hlast : (e.inFrame v n q).rem = 1 := by
    apply BitVec.eq_of_toNat_eq
    rw [inFrame_rem_toNat v q e h2]
    change _ = 1
    omega
  rw [encDataStep_last v b _ rfl hlast]
  simp [Enc.inFrame, Enc.afterFrame, frameOf_eq, checksum_append_single, escapedBody_append_single]

/-! ### The words of a transaction (R170) -/

/-- The words of ENC_OPEN n and of the payload bytes q. -/
def transactionWords (n : Nat) (q : List Byte) : List Word32 :=
  (Instr.encOpen (BitVec.ofNat 16 n) :: q.map Instr.encData).map encode

theorem foldl_transactionWords_nil (v : Variant) (n : Nat) (e : Enc) :
    (transactionWords n []).foldl (encWord v) e = encOpenStep v (BitVec.ofNat 16 n) e :=
  encWord_encode_encOpen v e _

theorem foldl_transactionWords_append_single (v : Variant) (n : Nat) (q : List Byte) (b : Byte) (e : Enc) :
    (transactionWords n (q ++ [b])).foldl (encWord v) e =
      encDataStep v b ((transactionWords n q).foldl (encWord v) e) := by
  have hwords : transactionWords n (q ++ [b]) = transactionWords n q ++ [encode (.encData b)] := by
    simp [transactionWords]
  rw [hwords, List.foldl_append, List.foldl_cons, List.foldl_nil, encWord_encode_encData]

/-- Before the last byte of the payload the frame is open. -/
theorem foldl_transactionWords_inFrame {v : Variant} {n : Nat} {q : List Byte} {e : Enc} (hs : e.state = .idle)
    (h1 : q.length < n) (h2 : n ≤ 256) : (transactionWords n q).foldl (encWord v) e = e.inFrame v n q := by
  induction q using List.reverseRecOn with
  | nil => rw [foldl_transactionWords_nil, encOpenStep_inFrame hs h1 h2]
  | append_singleton q b ih =>
    rw [List.length_append, List.length_singleton] at h1
    rw [foldl_transactionWords_append_single, ih (by omega), encDataStep_inFrame e h1 h2]

/-- The words of a whole payload give its frame. -/
theorem foldl_transactionWords_afterFrame {v : Variant} {p : List Byte} {e : Enc} (hs : e.state = .idle)
    (hrem : e.rem = 0) (h : p.length ≤ 256) :
    (transactionWords p.length p).foldl (encWord v) e = e.afterFrame v p := by
  rcases List.eq_nil_or_concat' p with rfl | ⟨q, b, rfl⟩
  · rw [foldl_transactionWords_nil]
    exact encOpenStep_afterFrame hs hrem
  · rw [foldl_transactionWords_append_single,
      foldl_transactionWords_inFrame hs (by simp) h, encDataStep_afterFrame e (by simp) h]

/-- A payload too long is refused, and each of its bytes is a sequence error (R153, R156). -/
theorem foldl_transactionWords_tooLong {v : Variant} {n : Nat} {e : Enc} (hs : e.state = .idle) (h1 : 256 < n)
    (h2 : n ≤ 65535) (q : List Byte) :
    (transactionWords n q).foldl (encWord v) e = { e with err := true, cseq := e.cseq || !q.isEmpty } := by
  have hn : (BitVec.ofNat 16 n).toNat = n := Nat.mod_eq_of_lt (by omega)
  induction q using List.reverseRecOn with
  | nil =>
    rw [foldl_transactionWords_nil, encOpenStep_tooLong v _ e hs (by omega)]
    simp [Enc.invalidInput]
  | append_singleton q b ih =>
    rw [foldl_transactionWords_append_single, ih, encDataStep_idle v b { e with err := true, cseq := _ } hs]
    simp [Enc.sequenceError]

/-! ### Illegal words among the commands (R125) -/

/-- A legal word neither reads nor changes E.CILL. -/
theorem encWord_with_cill {v : Variant} {e : Enc} {w : Word32} (h : legalOn .enc w = true) (c : Bool) :
    encWord v { e with cill := c } w = { encWord v e w with cill := c } := by
  rcases encWord_cases v e w with ⟨hl, -⟩ | ⟨len, rfl, -⟩ | ⟨b, rfl, -⟩ | ⟨rfl, -⟩
  · simp [hl] at h
  · rw [encWord_encode_encOpen, encWord_encode_encOpen]
    rcases encOpenStep_cases v len e with ⟨hs, he⟩ | ⟨hs, hl, he⟩ | ⟨hs, hl, he⟩ | ⟨hs, hl, hl', he⟩ <;> rw [he]
    · exact encOpenStep_body v len { e with cill := c } hs
    · exact encOpenStep_tooLong v len { e with cill := c } hs hl
    · exact encOpenStep_empty v len { e with cill := c } hs hl
    · exact encOpenStep_opens v len { e with cill := c } hs hl hl'
  · rw [encWord_encode_encData, encWord_encode_encData]
    rcases encDataStep_cases v b e with ⟨hs, he⟩ | ⟨hs, hr, he⟩ | ⟨hs, hr, he⟩ <;> rw [he]
    · exact encDataStep_idle v b { e with cill := c } hs
    · exact encDataStep_middle v b { e with cill := c } hs hr
    · exact encDataStep_last v b { e with cill := c } hs hr
  · rw [encWord_encode_encAbort, encWord_encode_encAbort]
    rcases e.idle_or_body with hs | hs
    · rw [encAbortStep_idle e hs, encAbortStep_idle { e with cill := c } hs]
    · rw [encAbortStep_body e hs, encAbortStep_body { e with cill := c } hs]

/-- Illegal words among others set E.CILL and do nothing else, whatever E.CILL was. -/
theorem foldl_encWord_with_cill (v : Variant) (ws : List Word32) (e : Enc) (c : Bool) :
    ws.foldl (encWord v) { e with cill := c } =
      { (legalWords .enc ws).foldl (encWord v) e with cill := c || ws.any (fun w => !legalOn .enc w) } := by
  induction ws generalizing e c with
  | nil => simp
  | cons w ws ih =>
    rw [List.foldl_cons, legalWords_cons, List.any_cons]
    cases hl : legalOn .enc w with
    | true =>
      rw [encWord_with_cill hl, ih]
      simp
    | false =>
      have hw : encWord v { e with cill := c } w = { e with cill := true } := encWord_of_illegal hl v _
      rw [hw, ih]
      simp

/-- What `enc_cmd` makes of a sequence of words: its legal words act, and E.CILL tells of the others. -/
theorem acceptWords_enc_legalWords (ws : List Word32) (s : State) :
    acceptWords .enc ws s = .next (s.setE
      { (legalWords .enc ws).foldl (encWord s.build.variant) s.e with
        cill := s.e.cill || ws.any (fun w => !legalOn .enc w) }) := by
  rw [acceptWords_enc]
  exact congrArg (fun e => Host.Outcome.next (s.setE e)) (foldl_encWord_with_cill _ ws s.e s.e.cill)

/-- Settles O46: the legal words fold to the frame of the payload by induction over it, and illegal words add E.CILL. -/
theorem encodeTransactionMatchesReference : Obligations.EncodeTransactionMatchesReference := fun s p hinv hs => by
  refine ⟨fun ws (hws : legalWords .enc ws = transactionWords p.length p) =>
    ⟨fun hp => ⟨frameOf s.build.variant p, encodeRef_eq_some.mpr ⟨hp, rfl⟩, ?_⟩, fun hlong hp => ⟨if_pos hlong, ?_⟩⟩,
    fun ws j hj hp (hws : legalWords .enc ws = transactionWords p.length (p.take j)) => ?_⟩
  · rw [acceptWords_enc_legalWords, hws, foldl_transactionWords_afterFrame hs (hinv.enc.idle_rem hs) hp]
    rfl
  · have hne : p.isEmpty = false := List.isEmpty_eq_false_iff.mpr (List.ne_nil_of_length_pos (by omega))
    rw [acceptWords_enc_legalWords, hws, foldl_transactionWords_tooLong hs hlong hp, hne, Bool.not_false, Bool.or_true]
  · have hlen : (p.take j).length = j := List.length_take_of_le hj.le
    rw [acceptWords_enc_legalWords, hws, foldl_transactionWords_inFrame hs (hlen.trans_lt hj) hp]
    exact ⟨_, rfl, rfl, (inFrame_rem_toNat s.build.variant (p.take j) s.e hp).trans (by rw [hlen])⟩

end Sys2Proof.Machine
end

-- Proofs: the decoder (spec/41_decoder.md)
section
/-! PROOFS. What spec/41_decoder.md says of the decoder: Decode reads a frame as elements and judges what is left,
which decides the round trip, canonical frames and a corrupted checksum; a decode transaction follows Decode byte for
byte; and the effect of each command. -/

namespace Sys2Proof.Machine

/-! ### A body byte by byte (R115, R229) -/

/-- What a body can begin with, in the order the decoder looks: nothing, TERM, START, a literal, or an ESCAPE with
nothing, an illegal byte or an element behind it. Decode, the element grammar and the FSM all recurse so. -/
theorem bodyInduction (v : Variant) {motive : List Byte → Prop} (nil : motive [])
    (term : ∀ bs, motive (termByte v :: bs)) (start : ∀ bs, motive (startByte v :: bs))
    (literal : ∀ b bs, reserved v b = false → motive bs → motive (b :: bs))
    (escapeLast : motive [escapeByte v])
    (illegal : ∀ y bs, y = startByte v ∨ y = escapeByte v → motive (escapeByte v :: y :: bs))
    (pair : ∀ y bs, y ≠ startByte v → y ≠ escapeByte v → motive bs → motive (escapeByte v :: y :: bs)) :
    ∀ bs, motive bs
  | [] => nil
  | b :: bs => by
    cases hb : reserved v b with
    | false => exact literal b bs hb (bodyInduction v nil term start literal escapeLast illegal pair bs)
    | true =>
      rcases (reserved_iff v b).mp hb with rfl | rfl | rfl
      · exact start bs
      · exact term bs
      · match bs with
        | [] => exact escapeLast
        | y :: rest =>
          by_cases hy : y = startByte v ∨ y = escapeByte v
          · exact illegal y rest hy
          · obtain ⟨h1, h2⟩ := not_or.mp hy
            exact pair y rest h1 h2 (bodyInduction v nil term start literal escapeLast illegal pair rest)

section Scan
variable (v : Variant) (i : Nat) (l : ScanLocals) (bs : List Byte)

@[simp] theorem scanFrom_nil : scanFrom v [] i l = (.err .unterminatedPacket i none, none) := rfl

@[simp] theorem scanFrom_term : scanFrom v (termByte v :: bs) i l = (l.finish i, some i) := by
  cases bs <;> simp [scanFrom]

@[simp] theorem scanFrom_start :
    scanFrom v (startByte v :: bs) i l = (.err .illegalStartByte i none, some i) := by
  cases bs <;> simp [scanFrom, startByte_ne_termByte]

theorem scanFrom_literal {b : Byte} (hb : reserved v b = false) :
    scanFrom v (b :: bs) i l = scanFrom v bs (i + 1) (l.take b) := by
  obtain ⟨h1, h2, h3⟩ := (reserved_false_iff v b).mp hb
  cases bs <;> simp [scanFrom, h1, h2, h3]

@[simp] theorem scanFrom_escapeLast :
    scanFrom v [escapeByte v] i l = (.err .unterminatedPacket (i + 1) none, none) := by
  simp [scanFrom, (termByte_ne_escapeByte v).symm, (startByte_ne_escapeByte v).symm]

theorem scanFrom_illegal {y : Byte} (hy : y = startByte v ∨ y = escapeByte v) :
    scanFrom v (escapeByte v :: y :: bs) i l = (.err .illegalEscapedByte (i + 1) none, some (i + 1)) := by
  simp [scanFrom, (termByte_ne_escapeByte v).symm, (startByte_ne_escapeByte v).symm, hy]

theorem scanFrom_pair {y : Byte} (h1 : y ≠ startByte v) (h2 : y ≠ escapeByte v) :
    scanFrom v (escapeByte v :: y :: bs) i l = scanFrom v bs (i + 2) (l.take (masked v y)) := by
  simp [scanFrom, (termByte_ne_escapeByte v).symm, (startByte_ne_escapeByte v).symm, h1, h2]

@[simp] theorem readElements_nil : readElements v [] = ([], []) := rfl

@[simp] theorem readElements_term : readElements v (termByte v :: bs) = ([], termByte v :: bs) := by
  cases bs <;> simp [readElements]

@[simp] theorem readElements_start : readElements v (startByte v :: bs) = ([], startByte v :: bs) := by
  cases bs <;> simp [readElements]

theorem readElements_literal {b : Byte} (hb : reserved v b = false) :
    readElements v (b :: bs) = (.literal b :: (readElements v bs).1, (readElements v bs).2) := by
  obtain ⟨h1, h2, h3⟩ := (reserved_false_iff v b).mp hb
  cases bs <;> simp [readElements, h1, h2, h3]

@[simp] theorem readElements_escapeLast : readElements v [escapeByte v] = ([], [escapeByte v]) := by
  simp [readElements]

theorem readElements_illegal {y : Byte} (hy : y = startByte v ∨ y = escapeByte v) :
    readElements v (escapeByte v :: y :: bs) = ([], escapeByte v :: y :: bs) := by
  simp [readElements, (termByte_ne_escapeByte v).symm, (startByte_ne_escapeByte v).symm, hy]

theorem readElements_pair {y : Byte} (h1 : y ≠ startByte v) (h2 : y ≠ escapeByte v) :
    readElements v (escapeByte v :: y :: bs) = (.pair y :: (readElements v bs).1, (readElements v bs).2) := by
  simp [readElements, (termByte_ne_escapeByte v).symm, (startByte_ne_escapeByte v).symm, h1, h2]

end Scan

/-! ### Elements (R111, R115) -/

/-- The value of an element (R115, R209). -/
def Element.value (v : Variant) : Element → Byte
  | .literal b => b
  | .pair y => masked v y

/-- The bytes an element was read from (R115). -/
def Element.bytes (v : Variant) : Element → List Byte
  | .literal b => [b]
  | .pair y => [escapeByte v, y]

/-- The element the encoder writes for a payload byte (R111). -/
def elementOf (v : Variant) (b : Byte) : Element := if reserved v b then .pair (masked v b) else .literal b

theorem elementOf_of_reserved {v : Variant} {b : Byte} (h : reserved v b = true) :
    elementOf v b = .pair (masked v b) := if_pos h

theorem elementOf_of_not_reserved {v : Variant} {b : Byte} (h : reserved v b = false) : elementOf v b = .literal b := by
  simp [elementOf, h]

@[simp] theorem value_elementOf (v : Variant) (b : Byte) : (elementOf v b).value v = b := by
  unfold elementOf
  split <;> simp [Element.value]

/-- The elements of a payload have its bytes as values. -/
theorem map_value_elementOf (v : Variant) (p : List Byte) : (p.map (elementOf v)).map (Element.value v) = p := by
  simp [Function.comp_def]

/-- A body is the bytes of its elements and what is left. -/
theorem bytes_readElements (v : Variant) (bs : List Byte) :
    (readElements v bs).1.flatMap (Element.bytes v) ++ (readElements v bs).2 = bs := by
  induction bs using bodyInduction v with
  | nil => rfl
  | term bs => simp
  | start bs => simp
  | literal b bs hb ih => simp [readElements_literal v bs hb, Element.bytes, ih]
  | escapeLast => simp
  | illegal y bs hy => simp [readElements_illegal v bs hy]
  | pair y bs h1 h2 ih => simp [readElements_pair v bs h1 h2, Element.bytes, ih]

/-- No reserved byte is read as a literal (R115). -/
theorem not_reserved_of_literal_mem {v : Variant} {bs : List Byte} {b : Byte}
    (h : Element.literal b ∈ (readElements v bs).1) : reserved v b = false := by
  induction bs using bodyInduction v with
  | nil => cases h
  | term bs => simp at h
  | start bs => simp at h
  | literal c bs hc ih =>
    rw [readElements_literal v bs hc, List.mem_cons, Element.literal.injEq] at h
    exact h.elim (fun hbc => hbc ▸ hc) ih
  | escapeLast => simp at h
  | illegal y bs hy => simp [readElements_illegal v bs hy] at h
  | pair y bs h1 h2 ih => exact ih (by simpa [readElements_pair v bs h1 h2] using h)

/-- Decode reads a body as its elements, then judges what is left (R229). -/
theorem scanFrom_readElements (v : Variant) (bs : List Byte) (i : Nat) (l : ScanLocals) :
    scanFrom v bs i l =
      scanFrom v (readElements v bs).2 (i + ((readElements v bs).1.flatMap (Element.bytes v)).length)
        (((readElements v bs).1.map (Element.value v)).foldl ScanLocals.take l) := by
  induction bs using bodyInduction v generalizing i l with
  | nil => rfl
  | term bs => simp
  | start bs => simp
  | literal b bs hb ih =>
    rw [scanFrom_literal v i l bs hb, ih, readElements_literal v bs hb]
    simp [Element.bytes, Element.value, Nat.add_assoc, Nat.add_comm 1]
  | escapeLast => simp
  | illegal y bs hy => simp [readElements_illegal v bs hy]
  | pair y bs h1 h2 ih =>
    rw [scanFrom_pair v i l bs h1 h2, ih, readElements_pair v bs h1 h2]
    simp [Element.bytes, Element.value, Nat.add_assoc, Nat.add_comm 2]

/-- The second byte of a pair the encoder writes is no START and no ESCAPE, so the decoder reads it as a pair (R9). -/
theorem masked_ne_of_reserved {v : Variant} {b : Byte} (h : reserved v b = true) :
    masked v b ≠ startByte v ∧ masked v b ≠ escapeByte v := by
  obtain ⟨h1, -, h3⟩ := (reserved_false_iff v _).mp (reserved_masked_of_reserved h)
  exact ⟨h1, h3⟩

/-- The decoder reads an escaped body as the elements of its payload, whatever follows (R111, R115). -/
theorem readElements_escapedBody_append (v : Variant) (p tail : List Byte) :
    readElements v (escapedBody v p ++ tail) =
      (p.map (elementOf v) ++ (readElements v tail).1, (readElements v tail).2) := by
  induction p with
  | nil => rfl
  | cons b p ih =>
    rw [escapedBody_cons, List.append_assoc, List.map_cons, List.cons_append]
    cases hb : reserved v b with
    | true =>
      obtain ⟨h1, h2⟩ := masked_ne_of_reserved hb
      rw [bodyElement_of_reserved hb, elementOf_of_reserved hb]
      simp [readElements_pair v _ h1 h2, ih]
    | false =>
      rw [bodyElement_of_not_reserved hb, elementOf_of_not_reserved hb]
      simp [readElements_literal v _ hb, ih]

/-- The bytes of elements the encoder writes are the escaped body of their values (R111). -/
theorem flatMap_bytes_of_canonical {v : Variant} {es : List Element}
    (hlit : ∀ b, Element.literal b ∈ es → reserved v b = false)
    (hpair : ∀ y, Element.pair y ∈ es → reserved v (masked v y) = true) :
    es.flatMap (Element.bytes v) = escapedBody v (es.map (Element.value v)) := by
  rw [escapedBody, List.flatMap_map]
  refine List.flatMap_congr fun e he => ?_
  cases e with
  | literal b => exact (bodyElement_of_not_reserved (hlit b he)).symm
  | pair y => simp [Element.bytes, Element.value, bodyElement_of_reserved (hpair y he)]

/-! ### What Decode holds after some elements (R211, R229) -/

theorem ScanLocals.take_first {l : ScanLocals} (h : l.hv = false) (x : Byte) :
    l.take x = { l with hold := x, hv := true } := by
  simp [ScanLocals.take, h]

theorem ScanLocals.take_stores {l : ScanLocals} (h : l.hv = true) (hl : l.pay.length < maxPacket) (x : Byte) :
    l.take x = { l with hold := x, pay := l.pay ++ [l.hold], sum := l.sum + l.hold } := by
  simp [ScanLocals.take, h, hl.ne]

theorem ScanLocals.take_overflows {l : ScanLocals} (h : l.hv = true) (hl : l.pay.length = maxPacket) (x : Byte) :
    l.take x = { l with hold := x, ovf := true, sum := l.sum + l.hold } := by
  simp [ScanLocals.take, h, hl]

/-- The locals after the values q and x: x is held, the first 256 of q are stored, and all of q is summed. -/
theorem foldl_take_append_single (v : Variant) (q : List Byte) (x : Byte) :
    (q ++ [x]).foldl ScanLocals.take (ScanLocals.start v) =
      { hold := x, hv := true, pay := q.take maxPacket, sum := checksum q, ovf := decide (maxPacket < q.length) } := by
  induction q using List.reverseRecOn generalizing x with
  | nil => exact ScanLocals.take_first (l := .start v) rfl x
  | append_singleton q b ih =>
    rw [List.foldl_append, ih, List.foldl_cons, List.foldl_nil, checksum_append_single]
    by_cases hq : q.length < maxPacket
    · have hall : q.take maxPacket = q := List.take_of_length_le hq.le
      have hall' : (q ++ [b]).take maxPacket = q ++ [b] := List.take_of_length_le (by simpa using hq)
      rw [ScanLocals.take_stores rfl (by simpa [hall] using hq), hall, hall']
      simp [Nat.not_lt.mpr hq.le, Nat.not_lt.mpr (Nat.succ_le_of_lt hq)]
    · have hfull : (q.take maxPacket).length = maxPacket := List.length_take_of_le (Nat.not_lt.mp hq)
      rw [ScanLocals.take_overflows rfl hfull, List.take_append_of_le_length (Nat.not_lt.mp hq)]
      simp [Nat.lt_succ_of_le (Nat.not_lt.mp hq)]

/-- TERM after the values q and x, when q fits PBUF: x is compared with the checksum of q (R210). -/
theorem finish_append_single (v : Variant) {q : List Byte} (hq : q.length ≤ maxPacket) (x : Byte) (i : Nat) :
    ((q ++ [x]).foldl ScanLocals.take (ScanLocals.start v)).finish i =
      if checksum q = x then .ok q else .err .checksumMismatch i (some (x, checksum q)) := by
  rw [foldl_take_append_single, List.take_of_length_le hq]
  simp [ScanLocals.finish, Nat.not_lt.mpr hq]

/-- TERM right after START is never valid: START is compared with 0x00 (R222). -/
theorem finish_start (v : Variant) (i : Nat) :
    (ScanLocals.start v).finish i = .err .checksumMismatch i (some (startByte v, 0x00#8)) := by
  simp [ScanLocals.finish, ScanLocals.start, (startByte_ne_zero v).symm]

/-! ### A frame of the encoder with any byte in the place of its checksum (R231, R233) -/

@[simp] theorem bytes_elementOf (v : Variant) (b : Byte) : (elementOf v b).bytes v = bodyElement v b := by
  unfold elementOf bodyElement
  split <;> rfl

/-- Decode reads an escaped body as its payload and goes on with what follows. -/
theorem scanFrom_escapedBody_append (v : Variant) (p tail : List Byte) (i : Nat) (l : ScanLocals) :
    scanFrom v (escapedBody v p ++ tail) i l =
      scanFrom v tail (i + (escapedBody v p).length) (p.foldl ScanLocals.take l) := by
  have hbytes : (p.map (elementOf v)).flatMap (Element.bytes v) = escapedBody v p := by
    simp only [List.flatMap_map, bytes_elementOf, escapedBody]
  rw [scanFrom_readElements v tail, scanFrom_readElements, readElements_escapedBody_append, List.flatMap_append,
    List.map_append, map_value_elementOf, List.foldl_append, hbytes, List.length_append, Nat.add_assoc]

/-- The frame of a payload with the byte c in the place of its checksum. -/
def frameWith (v : Variant) (p : List Byte) (c : Byte) : List Byte :=
  startByte v :: (escapedBody v p ++ [c, termByte v])

theorem frameOf_eq_frameWith (v : Variant) (p : List Byte) : frameOf v p = frameWith v p (checksum p) := rfl

theorem frameWith_length (v : Variant) (p : List Byte) (c : Byte) :
    (frameWith v p c).length = (escapedBody v p).length + 3 := by
  simp [frameWith]

theorem frameWith_set (v : Variant) (p : List Byte) (c c' : Byte) :
    (frameWith v p c).set ((frameWith v p c).length - 2) c' = frameWith v p c' := by
  rw [frameWith_length, Nat.add_sub_assoc (by decide), frameWith, List.set_cons_succ, List.set_append_right _ _ le_rfl]
  simp [frameWith]

theorem decodeRef_frameWith (v : Variant) (p : List Byte) (c : Byte) :
    decodeRef v (frameWith v p c) =
      (scanFrom v [c, termByte v] (1 + (escapedBody v p).length) (p.foldl ScanLocals.take (.start v))).1 := by
  rw [← scanFrom_escapedBody_append]
  simp [decodeRef, decodeScan, frameWith]

section FrameWith
variable {v : Variant} {p : List Byte}

/-- A byte that is not reserved is taken as the checksum element. -/
theorem decodeRef_frameWith_literal {c : Byte} (hp : p.length ≤ 256) (hc : reserved v c = false) :
    decodeRef v (frameWith v p c) =
      if checksum p = c then .ok p
      else .err .checksumMismatch ((frameWith v p c).length - 1) (some (c, checksum p)) := by
  have hpos : 1 + (escapedBody v p).length + 1 = (frameWith v p c).length - 1 := by rw [frameWith_length]; omega
  have hlocals : (p.foldl ScanLocals.take (.start v)).take c = (p ++ [c]).foldl ScanLocals.take (.start v) := by
    rw [List.foldl_append]
    rfl
  rw [decodeRef_frameWith, scanFrom_literal v _ _ _ hc, scanFrom_term, hlocals, finish_append_single v hp, hpos]

/-- START is illegal inside a body (R206). -/
theorem decodeRef_frameWith_start (v : Variant) (p : List Byte) :
    decodeRef v (frameWith v p (startByte v)) =
      .err .illegalStartByte ((frameWith v p (startByte v)).length - 2) none := by
  have hpos : 1 + (escapedBody v p).length = (frameWith v p (startByte v)).length - 2 := by
    rw [frameWith_length]; omega
  rw [decodeRef_frameWith, scanFrom_start, hpos]

/-- ESCAPE makes data of the TERM behind it (R223), and the frame does not end. -/
theorem decodeRef_frameWith_escape (v : Variant) (p : List Byte) :
    decodeRef v (frameWith v p (escapeByte v)) =
      .err .unterminatedPacket (frameWith v p (escapeByte v)).length none := by
  have hpos : 1 + (escapedBody v p).length + 2 = (frameWith v p (escapeByte v)).length := by
    rw [frameWith_length]; omega
  rw [decodeRef_frameWith, scanFrom_pair v _ _ _ (startByte_ne_termByte v).symm (termByte_ne_escapeByte v),
    scanFrom_nil, hpos]

/-- TERM ends the frame one byte early, and the last payload byte is taken as the checksum. -/
theorem decodeRef_frameWith_term {q : List Byte} {b : Byte} (hp : (q ++ [b]).length ≤ 256) :
    decodeRef v (frameWith v (q ++ [b]) (termByte v)) =
      if checksum q = b then .ok q
      else .err .checksumMismatch ((frameWith v (q ++ [b]) (termByte v)).length - 2) (some (b, checksum q)) := by
  have hq : q.length ≤ 256 := by rw [List.length_append] at hp; omega
  have hpos : 1 + (escapedBody v (q ++ [b])).length = (frameWith v (q ++ [b]) (termByte v)).length - 2 := by
    rw [frameWith_length]; omega
  rw [decodeRef_frameWith, scanFrom_term, finish_append_single v hq, hpos]

end FrameWith

/-- The checksum of a payload without its last byte. -/
theorem checksum_eq_sub_of_append_single (q : List Byte) (b : Byte) : checksum q = checksum (q ++ [b]) - b :=
  eq_sub_of_add_eq (checksum_append_single q b).symm

/-- TERM is odd (R9), so no byte counted twice gives it. -/
theorem add_self_ne_termByte (v : Variant) (b : Byte) : b + b ≠ termByte v := by
  cases v <;> simp only [termByte] <;> bv_omega

/-- Only a payload with a last byte has a checksum other than 0x00. -/
theorem exists_append_single_of_checksum {p : List Byte} (h : checksum p ≠ 0x00#8) : ∃ q b, p = q ++ [b] :=
  (List.eq_nil_or_concat' p).resolve_left fun hp => h (congrArg checksum hp)

/-- Settles O48: the frame is `frameWith` its own checksum, whose class decides what Decode makes of it. -/
theorem roundTripByChecksumClass : Obligations.RoundTripByChecksumClass := fun v p f hp hf => by
  obtain ⟨-, rfl⟩ := encodeRef_eq_some.mp hf
  rw [frameOf_eq_frameWith]
  refine ⟨fun hc => ?_, fun hc => ?_, fun hc => ?_, fun hc => ?_⟩
  · rw [decodeRef_frameWith_literal hp hc, if_pos rfl]
  · rw [hc, decodeRef_frameWith_start]
  · obtain ⟨q, b, rfl⟩ := exists_append_single_of_checksum (p := p) (by rw [hc]; cases v <;> decide)
    have hodd : checksum q ≠ b := fun hqb =>
      add_self_ne_termByte v b (by rw [← hc, checksum_append_single, hqb])
    refine ⟨q, b, rfl, ?_⟩
    rw [← checksum_eq_sub_of_append_single, hc, decodeRef_frameWith_term hp, if_neg hodd]
  · rw [hc, decodeRef_frameWith_escape]

/-- Settles O50: the corrupted frame is `frameWith` the raised byte; TERM gives a valid frame exactly when the last
payload byte is the checksum of those before it. -/
theorem corruptedChecksumByClass : Obligations.CorruptedChecksumByClass := fun v p f g c' hp _ hf hc' hg => by
  obtain ⟨-, rfl⟩ := encodeRef_eq_some.mp hf
  rw [frameOf_eq_frameWith, frameWith_set] at hg
  have hlen : (frameOf v p).length = (frameWith v p c').length := by
    rw [frameOf_eq_frameWith, frameWith_length, frameWith_length]
  rw [hg, hlen]
  refine ⟨fun hc => ?_, ?_, ?_, fun hterm => ?_⟩
  · have hne : checksum p ≠ c' := fun h => by
      rw [← h] at hc'
      exact absurd hc' (by bv_omega)
    rw [decodeRef_frameWith_literal hp hc, if_neg hne]
  · rintro rfl
    exact decodeRef_frameWith_start v p
  · rintro rfl
    exact decodeRef_frameWith_escape v p
  · have hne : checksum p ≠ 0x00#8 := fun h => by
      rw [h, hterm] at hc'
      cases v <;> exact absurd hc' (by decide)
    obtain ⟨q, b, rfl⟩ := exists_append_single_of_checksum hne
    have hlast : b + b = checksum (q ++ [b]) ↔ checksum q = b := by
      rw [checksum_append_single, add_left_inj, eq_comm]
    refine ⟨q, b, rfl, ?_⟩
    rw [← checksum_eq_sub_of_append_single, hterm, decodeRef_frameWith_term hp]
    exact ⟨fun h => if_pos (hlast.mp h), fun h => if_neg (mt hlast.mpr h)⟩

/-! ### Canonical frames (R232) -/

/-- Decode answers Ok at a TERM alone, with the locals the elements before it give. -/
theorem finish_of_scanFrom_ok {v : Variant} {bs p : List Byte} {i : Nat} {l : ScanLocals}
    (h : (scanFrom v bs i l).1 = .ok p) :
    ∃ k trailing, (readElements v bs).2 = termByte v :: trailing ∧
      (((readElements v bs).1.map (Element.value v)).foldl ScanLocals.take l).finish k = .ok p := by
  induction bs using bodyInduction v generalizing i l with
  | nil => cases h
  | term bs =>
    rw [scanFrom_term] at h
    rw [readElements_term]
    exact ⟨i, bs, rfl, h⟩
  | start bs => rw [scanFrom_start] at h; cases h
  | literal b bs hb ih =>
    rw [scanFrom_literal v i l bs hb] at h
    rw [readElements_literal v bs hb]
    exact ih h
  | escapeLast => rw [scanFrom_escapeLast] at h; cases h
  | illegal y bs hy => rw [scanFrom_illegal v i l bs hy] at h; cases h
  | pair y bs h1 h2 ih =>
    rw [scanFrom_pair v i l bs h1 h2] at h
    rw [readElements_pair v bs h1 h2]
    exact ih h

/-- The values of a body that TERM finds valid are the payload and its checksum (R210, R229). -/
theorem values_of_finish_ok {v : Variant} {xs p : List Byte} {k : Nat}
    (h : (xs.foldl ScanLocals.take (.start v)).finish k = .ok p) : p.length ≤ 256 ∧ xs = p ++ [checksum p] := by
  rcases List.eq_nil_or_concat' xs with rfl | ⟨q, x, rfl⟩
  · rw [List.foldl_nil, finish_start] at h
    cases h
  · by_cases hq : q.length ≤ maxPacket
    · rw [finish_append_single v hq] at h
      split at h
      case isTrue hsum =>
        cases h
        exact ⟨hq, by rw [hsum]⟩
      case isFalse => cases h
    · rw [foldl_take_append_single, ScanLocals.finish, if_pos (by simpa using hq)] at h
      cases h

/-- What a frame that decodes consists of: START, elements with the payload as values and then its checksum, and TERM
with anything behind it. -/
theorem elements_of_decodeRef_ok {v : Variant} {f p : List Byte} (h : decodeRef v f = .ok p) :
    ∃ bs trailing, f = startByte v :: bs ∧ (readElements v bs).2 = termByte v :: trailing ∧ p.length ≤ 256 ∧
      (readElements v bs).1.map (Element.value v) = p ++ [checksum p] := by
  cases f with
  | nil => cases h
  | cons b bs =>
    simp only [decodeRef, decodeScan] at h
    split at h
    case isTrue hb =>
      obtain ⟨k, trailing, hrest, hfinish⟩ := finish_of_scanFrom_ok h
      obtain ⟨hp, hvalues⟩ := values_of_finish_ok hfinish
      exact ⟨bs, trailing, by rw [hb], hrest, hp, hvalues⟩
    case isFalse => cases h

/-- A frame of the encoder decodes to its payload only when its checksum is not reserved (R231). -/
theorem not_reserved_checksum_of_decodes {v : Variant} {p : List Byte} (hp : p.length ≤ 256)
    (h : decodeRef v (frameOf v p) = .ok p) : reserved v (checksum p) = false := by
  obtain ⟨-, hstart, hterm, hescape⟩ := roundTripByChecksumClass v p _ hp (encodeRef_eq_some.mpr ⟨hp, rfl⟩)
  rw [reserved_false_iff]
  refine ⟨fun hc => ?_, fun hc => ?_, fun hc => ?_⟩
  · cases h.symm.trans (hstart hc)
  · obtain ⟨q, b, -, herr⟩ := hterm hc
    cases h.symm.trans herr
  · cases h.symm.trans (hescape hc)

/-- The elements of a frame of the encoder whose checksum is not reserved (R111, R112). -/
theorem readElements_frame {v : Variant} {p : List Byte} {c : Byte} (hc : reserved v c = false) :
    readElements v (escapedBody v p ++ [c, termByte v]) =
      (p.map (elementOf v) ++ [.literal c], [termByte v]) := by
  rw [readElements_escapedBody_append, readElements_literal v _ hc, readElements_term]

/-- The encoder writes a pair for a reserved byte alone (R111). -/
theorem reserved_of_pair_mem {v : Variant} {p : List Byte} {y : Byte} (h : Element.pair y ∈ p.map (elementOf v)) :
    reserved v (masked v y) = true := by
  obtain ⟨b, -, hb⟩ := List.mem_map.mp h
  cases hr : reserved v b with
  | true =>
    rw [elementOf_of_reserved hr, Element.pair.injEq] at hb
    rw [← hb, masked_masked, hr]
  | false =>
    rw [elementOf_of_not_reserved hr] at hb
    cases hb

/-- Settles O49: Encode and Decode agree on the elements, so the frame is canonical exactly when the elements are those
of the payload, a literal checksum follows, and TERM is the last byte. -/
theorem decodedFrameIsCanonicalUnderThreeConditions :
    Obligations.DecodedFrameIsCanonicalUnderThreeConditions := fun v f p h => by
  obtain ⟨bs, trailing, rfl, -, hp, hvalues⟩ := elements_of_decodeRef_ok h
  rw [encodeRef_eq_some, List.tail_cons]
  constructor
  · rintro ⟨-, hf⟩
    have hc := not_reserved_checksum_of_decodes hp (hf ▸ h)
    obtain rfl : bs = escapedBody v p ++ [checksum p, termByte v] := (List.cons.inj hf).2
    rw [readElements_frame hc]
    refine ⟨rfl, fun y hy => ?_, checksum p, List.getLast?_concat⟩
    exact reserved_of_pair_mem (p := p) (by simpa using hy)
  · rintro ⟨hterm, hpair, b, hlast⟩
    obtain ⟨es, hes⟩ := List.getLast?_eq_some_iff.mp hlast
    rw [hes, List.map_append] at hvalues
    obtain ⟨hpayload, hsum⟩ := List.append_inj' hvalues rfl
    have hbody : es.flatMap (Element.bytes v) = escapedBody v (es.map (Element.value v)) :=
      flatMap_bytes_of_canonical
        (fun c hmem => not_reserved_of_literal_mem (bs := bs) (by rw [hes]; exact List.mem_append_left _ hmem))
        (fun y hmem => hpair y (by rw [hes]; exact List.mem_append_left _ hmem))
    have hb : b = checksum p := (List.cons.inj hsum).1
    have hbs := bytes_readElements v bs
    rw [hes, hterm, List.flatMap_append, hbody, hpayload] at hbs
    refine ⟨hp, ?_⟩
    rw [← hbs, hb]
    simp [Element.bytes, frameOf_eq]

/-! ### Bytes behind a frame (R229, R230) -/

/-- The byte that decides lies in the body. -/
theorem scanFrom_end_bounds {v : Variant} {bs : List Byte} {i k : Nat} {l : ScanLocals}
    (h : (scanFrom v bs i l).2 = some k) : i ≤ k ∧ k < i + bs.length := by
  induction bs using bodyInduction v generalizing i l with
  | nil => cases h
  | term bs =>
    rw [scanFrom_term, Option.some.injEq] at h
    simp [h]
  | start bs =>
    rw [scanFrom_start, Option.some.injEq] at h
    simp [h]
  | literal b bs hb ih =>
    rw [scanFrom_literal v i l bs hb] at h
    have := ih h
    rw [List.length_cons]
    omega
  | escapeLast => rw [scanFrom_escapeLast] at h; cases h
  | illegal y bs hy =>
    rw [scanFrom_illegal v i l bs hy, Option.some.injEq] at h
    simp [← h]
  | pair y bs h1 h2 ih =>
    rw [scanFrom_pair v i l bs h1 h2] at h
    have := ih h
    rw [List.length_cons, List.length_cons]
    omega

/-- Bytes behind a body neither undo what it decided nor decide before their own place. -/
theorem scanFrom_append (v : Variant) (bs g : List Byte) (i : Nat) (l : ScanLocals) :
    (∀ k, (scanFrom v bs i l).2 = some k → scanFrom v (bs ++ g) i l = scanFrom v bs i l) ∧
    (∀ k, (scanFrom v bs i l).2 = none → (scanFrom v (bs ++ g) i l).2 = some k → i + bs.length ≤ k) := by
  induction bs using bodyInduction v generalizing i l with
  | nil => exact ⟨fun k hk => (nomatch hk), fun k _ hk => (scanFrom_end_bounds hk).1⟩
  | term bs => simp
  | start bs => simp
  | literal b bs hb ih =>
    rw [List.cons_append, scanFrom_literal v i l _ hb, scanFrom_literal v i l _ hb, List.length_cons,
      Nat.add_comm bs.length, ← Nat.add_assoc]
    exact ih (i + 1) (l.take b)
  | escapeLast =>
    refine ⟨fun k hk => by simp at hk, fun k _ hk => ?_⟩
    cases g with
    | nil => simp at hk
    | cons y g =>
      rw [List.singleton_append] at hk
      by_cases hy : y = startByte v ∨ y = escapeByte v
      · rw [scanFrom_illegal v i l g hy, Option.some.injEq] at hk
        exact hk.le
      · obtain ⟨h1, h2⟩ := not_or.mp hy
        rw [scanFrom_pair v i l g h1 h2] at hk
        exact Nat.le_of_succ_le (scanFrom_end_bounds hk).1
  | illegal y bs hy =>
    simp [scanFrom_illegal v i l _ hy]
  | pair y bs h1 h2 ih =>
    rw [List.cons_append, List.cons_append, scanFrom_pair v i l _ h1 h2, scanFrom_pair v i l _ h1 h2, List.length_cons,
      List.length_cons, Nat.add_assoc, Nat.add_comm bs.length, ← Nat.add_assoc]
    exact ih (i + 2) (l.take (masked v y))

theorem decodeScan_missingStart {v : Variant} {b : Byte} (hb : b ≠ startByte v) (bs : List Byte) :
    decodeScan v (b :: bs) = (.err .missingStartByte 0 none, some 0) := if_neg hb

@[simp] theorem decodeScan_start (v : Variant) (bs : List Byte) :
    decodeScan v (startByte v :: bs) = scanFrom v bs 1 (.start v) := if_pos rfl

/-- The byte that decides lies in the frame (R230). -/
theorem decodeEnd_lt {v : Variant} {f : List Byte} {k : Nat} (h : decodeEnd v f = some k) : k < f.length := by
  cases f with
  | nil => cases h
  | cons b bs =>
    by_cases hb : b = startByte v
    · subst hb
      rw [decodeEnd, decodeScan_start] at h
      have := (scanFrom_end_bounds h).2
      rw [List.length_cons]
      omega
    · rw [decodeEnd, decodeScan_missingStart hb, Option.some.injEq] at h
      simp [← h]

/-- Bytes behind the one that decides do not change Decode (R230). -/
theorem decodeScan_append {v : Variant} {f : List Byte} {k : Nat} (h : decodeEnd v f = some k) (g : List Byte) :
    decodeScan v (f ++ g) = decodeScan v f := by
  cases f with
  | nil => cases h
  | cons b bs =>
    rw [List.cons_append]
    by_cases hb : b = startByte v
    · subst hb
      rw [decodeEnd, decodeScan_start] at h
      simpa using (scanFrom_append v bs g 1 _).1 k h
    · rw [decodeScan_missingStart hb, decodeScan_missingStart hb]

/-- A frame cut short before a decision is decided, if at all, behind the cut. -/
theorem le_decodeEnd_append {v : Variant} {f g : List Byte} {k : Nat} (h : decodeEnd v f = none)
    (hk : decodeEnd v (f ++ g) = some k) : f.length ≤ k := by
  cases f with
  | nil => exact Nat.zero_le k
  | cons b bs =>
    by_cases hb : b = startByte v
    · subst hb
      rw [decodeEnd, decodeScan_start] at h
      rw [decodeEnd, List.cons_append, decodeScan_start] at hk
      rw [List.length_cons, Nat.add_comm]
      exact (scanFrom_append v bs g 1 _).2 k h hk
    · rw [decodeEnd, decodeScan_missingStart hb] at h
      cases h

/-- The first j bytes of a frame decide exactly when the byte that decides is one of them. -/
theorem decodeEnd_take_isSome_iff (v : Variant) (f : List Byte) {j : Nat} (hj : j ≤ f.length) :
    (decodeEnd v (f.take j)).isSome = true ↔ ∃ k, decodeEnd v f = some k ∧ k < j := by
  have hlen : (f.take j).length = j := List.length_take_of_le hj
  have hsplit : f.take j ++ f.drop j = f := List.take_append_drop j f
  constructor
  · intro h
    obtain ⟨k, hk⟩ := Option.isSome_iff_exists.mp h
    have hsame := decodeScan_append hk (f.drop j)
    rw [hsplit] at hsame
    exact ⟨k, (congrArg Prod.snd hsame).trans hk, hlen ▸ decodeEnd_lt hk⟩
  · rintro ⟨k, hk, hkj⟩
    rw [Option.isSome_iff_ne_none]
    intro hnone
    have := le_decodeEnd_append (g := f.drop j) hnone (by rw [hsplit, hk])
    omega

/-! ### A decoder that follows Decode byte by byte (R230) -/

/-- D after some frame bytes. -/
def feed (v : Variant) (d : Dec) (bs : List Byte) : Dec := bs.foldl (fun d b => decDataStep v b d) d

@[simp] theorem feed_nil (v : Variant) (d : Dec) : feed v d [] = d := rfl

theorem feed_cons (v : Variant) (d : Dec) (b : Byte) (bs : List Byte) :
    feed v d (b :: bs) = feed v (decDataStep v b d) bs := rfl

theorem feed_terminal {v : Variant} {d : Dec} (h : d.terminal = true) (bs : List Byte) : feed v d bs = d := by
  induction bs with
  | nil => rfl
  | cons b bs ih => rw [feed_cons, decDataStep_terminal v b d h, ih]

/-- D agrees with the locals of Decode's loop before the byte at index i. `m` is what PBUF held when the transaction
began: only over canonical contents does a read give back the byte written. -/
structure Dec.Scans (m : Memory) (l : ScanLocals) (i : Nat) (d : Dec) : Prop where
  hold    : d.hold = l.hold
  hv      : d.hv = l.hv
  sum     : d.sum = l.sum
  ovf     : d.ovf = l.ovf
  len     : d.len.toNat = l.pay.length
  bounded : l.pay.length ≤ maxPacket
  cnt     : d.cnt = sat16 i
  stored  : m.wf = true → d.pbuf.wf = true ∧ d.payload = l.pay

/-- D has ended as Decode answers (R230). -/
def Dec.Shows (m : Memory) (d : Dec) : DecodeResult → Prop
  | .ok pay => d.state = .done ∧ d.len.toNat = pay.length ∧ (m.wf = true → d.payload = pay)
  | .err kind pos chk => d.state = .error ∧ d.err = kind ∧ d.epos = sat16 pos ∧
      (kind = .checksumMismatch → chk = some (d.rchk, d.sum))

/-- After n frame bytes D is where Decode's scan of them is: ended when a byte has decided, counted up to that byte,
and with DEC_END it shows what Decode answers (R230). -/
structure Dec.Follows (m : Memory) (r : DecodeResult × Option Nat) (n : Nat) (d : Dec) : Prop where
  terminal : d.terminal = r.2.isSome
  cnt      : d.cnt = sat16 (r.2.elim n (· + 1))
  shows    : (decEndStep d).Shows m r.1

section Scans
variable {v : Variant} {m : Memory} {l : ScanLocals} {i : Nat} {d : Dec}

theorem Dec.Scans.countByte (h : d.Scans m l i) : d.countByte.Scans m l (i + 1) :=
  ⟨h.hold, h.hv, h.sum, h.ovf, h.len, h.bounded, by rw [Dec.countByte_cnt, h.cnt, sat16_succ], h.stored⟩

theorem Dec.Scans.withState (h : d.Scans m l i) (st : DecState) : ({ d with state := st } : Dec).Scans m l i :=
  ⟨h.hold, h.hv, h.sum, h.ovf, h.len, h.bounded, h.cnt, h.stored⟩

/-- Accept does to D what an element does to the locals (R211). -/
theorem Dec.Scans.accept (h : d.Scans m l i) (x : Byte) : (d.accept x).Scans m (l.take x) i := by
  have hcnt : (d.accept x).cnt = sat16 i := by rw [Dec.accept_cnt, h.cnt]
  have hwf := fun hm => d.accept_pbuf_wf x (h.stored hm).1
  cases hv : d.hv with
  | false =>
    rw [ScanLocals.take_first (h.hv ▸ hv), d.accept_first x hv]
    exact ⟨rfl, rfl, h.sum, h.ovf, h.len, h.bounded, h.cnt, h.stored⟩
  | true =>
    have hv' : l.hv = true := h.hv ▸ hv
    by_cases hl : d.len.toNat < maxPacket
    · have hl' : l.pay.length < maxPacket := h.len ▸ hl
      have hpay := fun hm => d.payload_accept x (h.stored hm).1 hv hl
      rw [d.accept_stores x hv hl] at hcnt hwf hpay ⊢
      rw [ScanLocals.take_stores hv' hl']
      exact {
        hold := rfl
        hv := hv'.symm
        sum := by rw [h.sum, h.hold]
        ovf := h.ovf
        len := by rw [len_add_one_toNat hl, h.len, List.length_append, List.length_singleton]
        bounded := by rw [List.length_append]; exact hl'
        cnt := hcnt
        stored := fun hm => ⟨hwf hm, by rw [hpay hm, (h.stored hm).2, h.hold]⟩ }
    · have hl' : l.pay.length = maxPacket := le_antisymm h.bounded (Nat.not_lt.mp (h.len ▸ hl))
      rw [ScanLocals.take_overflows hv' hl', d.accept_overflows x hv hl]
      exact ⟨rfl, hv'.symm, by rw [h.sum, h.hold], rfl, h.len, h.bounded, h.cnt, h.stored⟩

/-- The entry into ERROR at the byte with index i (R218). -/
theorem Dec.Scans.raise_shows (h : d.Scans m l i) {kind : DecErr} (hk : kind ≠ .checksumMismatch) :
    (d.countByte.raise kind d.cnt).Shows m (.err kind i none) :=
  ⟨rfl, rfl, h.cnt, fun hc => absurd hc hk⟩

/-- TERM at index i ends D as Decode's answer says (R210). -/
theorem Dec.Scans.checkChecksum_shows (h : d.Scans m l i) :
    (d.countByte.checkChecksum d.cnt).Shows m (l.finish i) := by
  rcases d.countByte.checkChecksum_cases d.cnt with ⟨ho, e⟩ | ⟨ho, hs, e⟩ | ⟨ho, hs, e⟩ <;> rw [e, ScanLocals.finish]
  · rw [if_pos (h.ovf ▸ ho)]
    exact ⟨rfl, rfl, h.cnt, fun hc => nomatch hc⟩
  · rw [if_neg (by simp [← h.ovf, ← ho]), if_pos (by rw [← h.sum, ← h.hold]; exact hs)]
    exact ⟨rfl, h.len, fun hm => (h.stored hm).2⟩
  · rw [if_neg (by simp [← h.ovf, ← ho]), if_neg (by rw [← h.sum, ← h.hold]; exact hs)]
    exact ⟨rfl, rfl, h.cnt, fun _ => by rw [← h.sum, ← h.hold]; rfl⟩

/-- A decoder that has ended stays as it is, whatever follows (R212, R216). -/
theorem Dec.Shows.follows {r : DecodeResult} (h : d.Shows m r) (hcnt : d.cnt = sat16 (i + 1)) (bs : List Byte)
    (n : Nat) : (feed v d bs).Follows m (r, some i) n := by
  have ht : d.terminal = true := by
    rw [Dec.terminal_iff]
    cases r with
    | ok pay => exact .inl h.1
    | err kind pos chk => exact .inr h.1
  rw [feed_terminal ht]
  exact ⟨ht, hcnt, by rwa [decEndStep_terminal d ht]⟩

/-- DEC_END inside a body (R215). -/
theorem Dec.follows_unterminated {n : Nat} (hs : d.state = .scanBody ∨ d.state = .escapePending)
    (hcnt : d.cnt = sat16 n) :
    d.Follows m (.err .unterminatedPacket n none, none) n where
  terminal := by
    rcases hs with hs | hs <;> simp [Dec.terminal, hs]
  cnt := hcnt
  shows := by
    rw [decEndStep_unterminated d hs]
    exact ⟨rfl, rfl, hcnt, fun hc => nomatch hc⟩

/-- The simulation: from agreement in SCAN_BODY on, D follows Decode's loop. -/
theorem Dec.Scans.follows (bs : List Byte) (h : d.Scans m l i) (hs : d.state = .scanBody) :
    (feed v d bs).Follows m (scanFrom v bs i l) (i + bs.length) := by
  induction bs using bodyInduction v generalizing i l d with
  | nil => exact Dec.follows_unterminated (.inl hs) h.cnt
  | term bs =>
    obtain ⟨-, -, -, -, -, -, hcnt, -⟩ := d.countByte.checkChecksum_keeps d.cnt
    rw [feed_cons, decDataStep_term v d hs, scanFrom_term]
    exact h.checkChecksum_shows.follows (hcnt.trans h.countByte.cnt) bs _
  | start bs =>
    rw [feed_cons, decDataStep_illegalStart v d hs, scanFrom_start]
    exact (h.raise_shows (by decide)).follows h.countByte.cnt bs _
  | literal b bs hb ih =>
    rw [feed_cons, decDataStep_literal v b d hs hb, scanFrom_literal v i l bs hb, List.length_cons,
      Nat.add_comm bs.length, ← Nat.add_assoc]
    exact ih (h.countByte.accept b) (by simpa using hs)
  | escapeLast =>
    rw [feed_cons, decDataStep_escape v d hs, scanFrom_escapeLast]
    exact Dec.follows_unterminated (.inr rfl) h.countByte.cnt
  | illegal y bs hy =>
    have hpending := h.countByte.withState .escapePending
    rw [feed_cons, decDataStep_escape v d hs, feed_cons, decDataStep_illegalEscaped v y _ rfl hy,
      scanFrom_illegal v i l bs hy]
    exact (hpending.raise_shows (by decide)).follows hpending.countByte.cnt bs _
  | pair y bs h1 h2 ih =>
    have hpending := h.countByte.withState .escapePending
    rw [feed_cons, decDataStep_escape v d hs, feed_cons, decDataStep_pair v y _ rfl h1 h2,
      scanFrom_pair v i l bs h1 h2, List.length_cons, List.length_cons, Nat.add_assoc, Nat.add_comm bs.length,
      ← Nat.add_assoc]
    exact ih ((hpending.countByte.accept (masked v y)).withState .scanBody) rfl

/-- D after DEC_OPEN and START. -/
def Dec.opened (v : Variant) (d : Dec) : Dec :=
  { d.restart.countByte with hold := startByte v, state := .scanBody }

theorem decDataStep_opened (v : Variant) (d : Dec) : decDataStep v (startByte v) d.restart = d.opened v :=
  decDataStep_start v _ d.restart_state

/-- START begins the scan with Decode's first locals (R203). -/
theorem Dec.scans_opened (v : Variant) (d : Dec) : (d.opened v).Scans d.pbuf (.start v) 1 :=
  ⟨rfl, rfl, rfl, rfl, rfl, Nat.zero_le _, rfl, fun hm => ⟨hm, rfl⟩⟩

/-- From DEC_OPEN on, D follows Decode. -/
theorem Dec.restart_follows (v : Variant) (d : Dec) (f : List Byte) :
    (feed v d.restart f).Follows d.pbuf (decodeScan v f) f.length := by
  cases f with
  | nil => exact ⟨rfl, rfl, rfl, rfl, rfl, fun hc => nomatch hc⟩
  | cons b bs =>
    rw [feed_cons]
    by_cases hb : b = startByte v
    · subst hb
      rw [decDataStep_opened, decodeScan_start, List.length_cons, Nat.add_comm]
      exact (d.scans_opened v).follows bs rfl
    · rw [decDataStep_missingStart v b _ d.restart_state hb, decodeScan_missingStart hb]
      have hshows : (d.restart.countByte.raise .missingStartByte 0).Shows d.pbuf (.err .missingStartByte 0 none) :=
        ⟨rfl, rfl, rfl, fun hc => nomatch hc⟩
      exact hshows.follows rfl bs _

end Scans

/-! ### The words of a decode transaction, with illegal words among them (R125, R230) -/

theorem Dec.accept_with_cill (d : Dec) (x : Byte) (c : Bool) :
    ({ d with cill := c } : Dec).accept x = { d.accept x with cill := c } := by
  rcases d.accept_cases x with ⟨hv, e⟩ | ⟨hv, hl, e⟩ | ⟨hv, hl, e⟩ <;> rw [e]
  · exact Dec.accept_first { d with cill := c } x hv
  · exact Dec.accept_stores { d with cill := c } x hv hl
  · exact Dec.accept_overflows { d with cill := c } x hv hl

theorem Dec.checkChecksum_with_cill (d : Dec) (pos : BitVec 16) (c : Bool) :
    ({ d with cill := c } : Dec).checkChecksum pos = { d.checkChecksum pos with cill := c } := by
  simp only [Dec.checkChecksum]
  split_ifs <;> rfl

/-- A frame byte neither reads nor changes D.CILL. -/
theorem decDataStep_with_cill (v : Variant) (b : Byte) (d : Dec) (c : Bool) :
    decDataStep v b { d with cill := c } = { decDataStep v b d with cill := c } := by
  rcases decDataStep_cases v b d with ⟨hs, rfl, e⟩ | ⟨hs, hb, e⟩ | ⟨hs, rfl, e⟩ | ⟨hs, rfl, e⟩ | ⟨hs, rfl, e⟩ |
    ⟨hs, hb, e⟩ | ⟨hs, hb, e⟩ | ⟨hs, h1, h2, e⟩ | ⟨hs, e⟩ <;> rw [e]
  · exact decDataStep_start v { d with cill := c } hs
  · exact decDataStep_missingStart v b { d with cill := c } hs hb
  · exact (decDataStep_term v { d with cill := c } hs).trans (d.countByte.checkChecksum_with_cill d.cnt c)
  · exact decDataStep_illegalStart v { d with cill := c } hs
  · exact decDataStep_escape v { d with cill := c } hs
  · exact (decDataStep_literal v b { d with cill := c } hs hb).trans (d.countByte.accept_with_cill b c)
  · exact decDataStep_illegalEscaped v b { d with cill := c } hs hb
  · exact (decDataStep_pair v b { d with cill := c } hs h1 h2).trans
      (congrArg (fun d : Dec => { d with state := .scanBody }) (d.countByte.accept_with_cill (masked v b) c))
  · exact decDataStep_terminal v b { d with cill := c } ((Dec.terminal_iff _).mpr hs)

theorem decEndStep_with_cill (d : Dec) (c : Bool) :
    decEndStep { d with cill := c } = { decEndStep d with cill := c } := by
  rcases decEndStep_cases d with ⟨hs, e⟩ | ⟨hs, e⟩ | ⟨hs, e⟩ <;> rw [e]
  · exact decEndStep_missingStart { d with cill := c } hs
  · exact decEndStep_unterminated { d with cill := c } hs
  · exact decEndStep_terminal { d with cill := c } ((Dec.terminal_iff _).mpr hs)

/-- A legal word neither reads nor changes D.CILL. -/
theorem decWord_with_cill {v : Variant} {d : Dec} {w : Word32} (h : legalOn .dec w = true) (c : Bool) :
    decWord v { d with cill := c } w = { decWord v d w with cill := c } := by
  rcases decWord_cases v d w with ⟨hl, -⟩ | ⟨rfl, -⟩ | ⟨b, rfl, -⟩ | ⟨rfl, -⟩
  · simp [hl] at h
  · rw [decWord_encode_decOpen, decWord_encode_decOpen]
    rfl
  · rw [decWord_encode_decData, decWord_encode_decData, decDataStep_with_cill]
  · rw [decWord_encode_decEnd, decWord_encode_decEnd, decEndStep_with_cill]

theorem decWord_of_illegal {w : Word32} (h : legalOn .dec w = false) (v : Variant) (d : Dec) :
    decWord v d w = d.illegalCommand := by
  rcases word_cases .dec w with ⟨-, why, hw⟩ | ⟨i, hp, hw⟩
  · rw [decWord, hw]
  · exact absurd hw (ne_encode_of_illegal h hp)

/-- Illegal words among others can change D.CILL and nothing else. -/
theorem foldl_decWord_legalWords (v : Variant) (ws : List Word32) (d : Dec) (c : Bool) :
    ∃ c', ws.foldl (decWord v) { d with cill := c } = { (legalWords .dec ws).foldl (decWord v) d with cill := c' } := by
  induction ws generalizing d c with
  | nil => exact ⟨c, rfl⟩
  | cons w ws ih =>
    rw [List.foldl_cons, legalWords_cons]
    cases hl : legalOn .dec w with
    | true =>
      rw [decWord_with_cill hl]
      exact ih (decWord v d w) c
    | false =>
      rw [decWord_of_illegal hl]
      exact ih d true

/-- What `dec_cmd` makes of a sequence of words is what its legal words make of D, up to D.CILL. -/
theorem acceptWords_dec_legalWords (ws : List Word32) (s : State) :
    ∃ c, acceptWords .dec ws s =
      .next (s.setD { (legalWords .dec ws).foldl (decWord s.build.variant) s.d with cill := c }) := by
  obtain ⟨c, hc⟩ := foldl_decWord_legalWords s.build.variant ws s.d s.d.cill
  exact ⟨c, by rw [acceptWords_dec]; exact congrArg (fun d => Host.Outcome.next (s.setD d)) hc⟩

/-- The words of DEC_OPEN and of frame bytes. -/
def openAndFeed (f : List Byte) : List Word32 := (Instr.decOpen :: f.map Instr.decData).map encode

theorem foldl_openAndFeed (v : Variant) (f : List Byte) (d : Dec) :
    (openAndFeed f).foldl (decWord v) d = feed v d.restart f := by
  have hstep : (fun d b => decWord v d (encode (.decData b))) = fun d b => decDataStep v b d :=
    funext₂ fun d b => decWord_encode_decData v d b
  rw [openAndFeed, List.map_cons, List.foldl_cons, decWord_encode_decOpen, List.foldl_map, List.foldl_map, hstep, feed]

theorem foldl_openAndFeed_end (v : Variant) (f : List Byte) (d : Dec) :
    ((Instr.decOpen :: f.map Instr.decData ++ [Instr.decEnd]).map encode).foldl (decWord v) d =
      decEndStep (feed v d.restart f) := by
  rw [List.map_append, List.foldl_append, ← foldl_openAndFeed]
  exact decWord_encode_decEnd v _

theorem Dec.SumInv.decEndStep {d : Dec} (h : d.SumInv) : (decEndStep d).SumInv := by
  obtain ⟨hpbuf, -, -, hlen, hovf, hsum, -⟩ := decEndStep_keeps d
  exact h.congr hpbuf hlen hovf hsum

/-- Frame bytes keep both invariants of D. -/
theorem Dec.Inv.feed {v : Variant} {d : Dec} (h : d.Inv v) (hsum : d.SumInv) (f : List Byte) :
    (feed v d f).Inv v ∧ (feed v d f).SumInv := by
  induction f generalizing d with
  | nil => exact ⟨h, hsum⟩
  | cons b f ih => exact ih (h.decDataStep b) (hsum.decDataStep h b)

/-- In DONE the payload's checksum is both the computed and the received one (R210, R219). -/
theorem Dec.Inv.checksums_of_done {v : Variant} {d : Dec} (h : d.Inv v) (hsum : d.SumInv) (hs : d.state = .done) :
    d.rchk = checksum d.payload ∧ d.sum = checksum d.payload := by
  obtain ⟨-, hovf, hrchk⟩ := h.done_valid hs
  exact ⟨hrchk.trans (hsum.2 hovf), hsum.2 hovf⟩

/-- A whole transaction over canonical PBUF contents ends with both invariants of D. -/
theorem transaction_inv (v : Variant) {d : Dec} (hwf : d.pbuf.wf = true) (f : List Byte) :
    (decEndStep (feed v d.restart f)).Inv v ∧ (decEndStep (feed v d.restart f)).SumInv := by
  have hinv : d.restart.Inv v := (Dec.inv_resetOver v hwf).with_cill d.cill
  have hsum : d.restart.SumInv := (Dec.sumInv_resetOver d.pbuf).congr rfl rfl rfl rfl
  obtain ⟨hinv', hsum'⟩ := hinv.feed hsum f
  exact ⟨hinv'.decEndStep, hsum'.decEndStep⟩

/-- In DONE the host sees the payload through the gate (R84, R219). -/
theorem Dec.view_of_payload {d : Dec} (hs : d.state = .done) {i : Nat} {b : Byte} (h : d.payload[i]? = some b) :
    d.view i = b := by
  obtain ⟨hi, hb⟩ := List.getElem?_eq_some_iff.mp h
  rw [Dec.view_of_done d i hs (by simpa using hi), ← hb]
  simp [Dec.payload]

/-- Settles O47: D follows Decode from DEC_OPEN on, illegal words touch D.CILL alone, and the invariants give the
checksums. -/
theorem decodeTransactionMatchesReference : Obligations.DecodeTransactionMatchesReference := by
  refine ⟨fun s f ws hwf hws => ?_, fun s f ws j hj (hws : legalWords .dec ws = openAndFeed (f.take j)) => ?_,
    fun v f g k hk => ⟨decodeEnd_lt hk, congrArg Prod.fst (decodeScan_append hk g)⟩⟩
  · obtain ⟨c, hc⟩ := acceptWords_dec_legalWords ws s
    rw [hws, foldl_openAndFeed_end] at hc
    obtain ⟨-, hcnt, hshows⟩ := s.d.restart_follows s.build.variant f
    obtain ⟨-, -, -, -, -, -, -, hcntEnd, -⟩ := decEndStep_keeps (feed s.build.variant s.d.restart f)
    rw [← hcntEnd] at hcnt
    refine ⟨_, hc, rfl, fun pay (hpay : (decodeScan s.build.variant f).1 = _) => ?_,
      fun kind pos chk (herr : (decodeScan s.build.variant f).1 = _) => ?_,
      fun k (hk : (decodeScan s.build.variant f).2 = _) => ?_, fun (hk : (decodeScan s.build.variant f).2 = _) => ?_⟩
    · rw [hpay] at hshows
      obtain ⟨hdone, hlen, hpayload⟩ := hshows
      obtain ⟨hinv, hsuminv⟩ := transaction_inv s.build.variant hwf f
      obtain ⟨hrchk, hsum⟩ := hinv.checksums_of_done hsuminv hdone
      rw [hpayload hwf] at hrchk hsum
      exact ⟨hdone, hlen, hpayload hwf, fun i b hb => Dec.view_of_payload hdone ((hpayload hwf).symm ▸ hb), hrchk, hsum⟩
    · rw [herr] at hshows
      exact hshows
    · rw [hk] at hcnt
      exact hcnt
    · rw [hk] at hcnt
      exact hcnt
  · obtain ⟨c, hc⟩ := acceptWords_dec_legalWords ws s
    rw [hws, foldl_openAndFeed] at hc
    refine ⟨_, hc, ?_⟩
    rw [← decodeEnd_take_isSome_iff _ f hj]
    exact Bool.eq_iff_iff.mp (s.d.restart_follows s.build.variant (f.take j)).terminal

/-! ### The effect of each command (R201 to R216) -/

/-- Settles O12: `restart` writes every register but D.CILL and PBUF, and a decoder outside DONE shows no payload
byte. -/
theorem decOpenStartsCleanTransaction : Obligations.DecOpenStartsCleanTransaction := by
  refine ⟨by decide, fun s => ⟨s.setD s.d.restart, rfl, rfl, rfl, ?_, ?_, ?_, fun i => ?_⟩⟩
  · rw [csrRead_decStatus]
    simp only [decStatus, State.setD_d, Dec.restart_len, Dec.restart_ovf, Dec.restart_hv, Dec.restart_cill,
      Dec.restart_err, Dec.restart_state]
    cases s.d.cill <;> rfl
  · rw [csrRead_decChk]
    simp only [decChk, State.setD_d, Dec.restart_hold, Dec.restart_sum, Dec.restart_rchk]
    rfl
  · rw [csrRead_decPos]
    simp only [decPos, State.setD_d, Dec.restart_epos, Dec.restart_cnt]
    rfl
  · exact Dec.view_of_not_done _ i nofun

/-- Settles O13: START and every other byte in EXPECT_START, where the invariant has nothing held or counted. -/
theorem decDataInExpectStart : Obligations.DecDataInExpectStart := fun b s hs => by
  refine ⟨fun hinv => ?_, ?_, fun hb => ?_⟩
  · obtain ⟨hhv, -, hcnt, -⟩ := hinv.dec.start_clean hs
    exact ⟨hhv, hcnt⟩
  · rintro rfl
    rw [exec_decData, decDataStep_start _ _ hs]
    rfl
  · rw [exec_decData, decDataStep_missingStart _ _ _ hs hb]
    rfl

/-- Settles O14: START, ESCAPE and a literal byte in SCAN_BODY. -/
theorem decDataInScanBody : Obligations.DecDataInScanBody := fun b s hs => by
  refine ⟨?_, ?_, fun h1 h2 h3 => ?_⟩
  · rintro rfl
    rw [exec_decData, decDataStep_illegalStart _ _ hs]
    rfl
  · rintro rfl
    rw [exec_decData, decDataStep_escape _ _ hs]
    rfl
  · rw [exec_decData, decDataStep_literal _ _ _ hs ((reserved_false_iff _ b).mpr ⟨h1, h3, h2⟩)]

/-- Settles O15: an illegal second byte and an element in ESCAPE_PENDING. -/
theorem decDataInEscapePending : Obligations.DecDataInEscapePending := fun b s hs => by
  refine ⟨fun hb => ?_, fun h1 h2 => ?_⟩
  · rw [exec_decData, decDataStep_illegalEscaped _ _ _ hs hb]
    rfl
  · rw [exec_decData, decDataStep_pair _ _ _ hs h1 h2, masked]

theorem masked_termByte (v : Variant) : masked v (termByte v) = match v with | .A => 0x45 | .B => 0x7D := by
  cases v <;> rfl

theorem masked_zero (v : Variant) : masked v 0x00 = 0x20 := by cases v <;> rfl

/-- Settles O16: the pair is accepted whatever its second byte; 0x20 decodes as itself and from the pair of
ESCAPE and 0x00. -/
theorem escapedTermAndUnmaskedBytesAreData : Obligations.EscapedTermAndUnmaskedBytesAreData := by
  refine ⟨fun s y hs h1 h2 => ⟨_, exec_decData y s, ?_⟩, fun v =>
    ⟨[startByte v, 0x20, 0x20, termByte v], [startByte v, escapeByte v, 0x00, 0x20, termByte v], [0x20], ?_⟩⟩
  · rw [decDataStep_pair _ y _ hs h1 h2]
    refine ⟨rfl, rfl, s.d.countByte.accept_err (masked s.build.variant y), rfl, ?_, ?_⟩
    · rintro rfl
      exact masked_termByte _
    · rintro rfl
      exact masked_zero _
  · cases v <;> decide

/-- Settles O17: the three cases of Accept, and what its one write to PBUF leaves. -/
theorem acceptPushesTheDisplacedElement : Obligations.AcceptPushesTheDisplacedElement := fun d x hwf => by
  refine ⟨d.accept_first x, fun hv hl => ?_, fun hv hl => ?_⟩
  · rw [d.accept_overflows x hv (Nat.not_lt.mpr hl), ← hv]
  · rw [d.accept_stores x hv hl]
    exact ⟨d.pbuf.write d.len.toNat d.hold, by rw [← hv], len_add_one_toNat hl, Memory.write_wf hwf _ hl,
      Memory.read_write_same hwf _ _, fun a ha => Memory.read_write_of_ne _ _ ha.symm⟩

/-- Settles O18: the three cases of CheckChecksum; two bytes are equal exactly when their values are. -/
theorem termChecksLengthThenChecksum : Obligations.TermChecksLengthThenChecksum := fun s hs => by
  rw [exec_decData, decDataStep_term _ _ hs]
  rcases s.d.countByte.checkChecksum_cases s.d.cnt with ⟨ho, e⟩ | ⟨ho, hsum, e⟩ | ⟨ho, hsum, e⟩ <;>
    rw [Dec.countByte_ovf] at ho <;> rw [e, ho]
  · exact ⟨fun _ => rfl, nofun, nofun⟩
  · exact ⟨nofun, fun _ _ => rfl, fun _ hne => absurd (congrArg BitVec.toNat hsum) hne⟩
  · exact ⟨nofun, fun _ heq => absurd (BitVec.eq_of_toNat_eq heq) hsum, fun _ _ => rfl⟩

/-- Settles O19: DEC_END in each state. -/
theorem decEndReportsWhatIsMissing : Obligations.DecEndReportsWhatIsMissing := fun s => by
  refine ⟨by decide, fun hinv hs => ?_, fun hs => ?_, fun hs => ?_, fun hs => ?_⟩
  · obtain ⟨-, -, hcnt, -⟩ := hinv.dec.start_clean hs
    exact hcnt
  · rw [exec_decEnd, decEndStep_missingStart _ hs]
    rfl
  · rw [exec_decEnd, decEndStep_unterminated _ hs]
    rfl
  · rw [exec_decEnd, decEndStep_terminal _ ((Dec.terminal_iff _).mpr hs)]
    rfl

/-- Settles O20: a terminal decoder keeps its state, and putting it back changes nothing. -/
theorem bytesAfterTheEndAreIgnored : Obligations.BytesAfterTheEndAreIgnored := fun b s hs => by
  rw [exec_decData, decDataStep_terminal _ _ _ ((Dec.terminal_iff _).mpr hs)]
  rfl

/-- TERM right after START compares 0x00 with START (R222). -/
theorem checkChecksum_opened (v : Variant) (d : Dec) (pos : BitVec 16) :
    (d.opened v).countByte.checkChecksum pos =
      ({ (d.opened v).countByte with rchk := startByte v } : Dec).raise .checksumMismatch pos := by
  rcases (d.opened v).countByte.checkChecksum_cases pos with ⟨ho, -⟩ | ⟨-, hsum, -⟩ | ⟨-, -, e⟩
  · cases ho
  · exact absurd hsum.symm (startByte_ne_zero v)
  · exact e

/-- Settles O24: the two frame bytes after DEC_OPEN, one by one. -/
theorem emptyBodyIsAChecksumMismatch : Obligations.EmptyBodyIsAChecksumMismatch := fun s => by
  refine ⟨_, acceptWords_dec (openAndFeed [startByte s.build.variant, termByte s.build.variant]) s, ?_⟩
  rw [State.setD_d, foldl_openAndFeed, feed_cons, decDataStep_opened, feed_cons, feed_nil, decDataStep_term _ _ rfl,
    checkChecksum_opened]
  exact ⟨rfl, rfl, rfl, rfl, rfl⟩

/-! ### The entry into ERROR (R218, R307) -/

/-- A frame byte enters ERROR by raising an error at its own index; TERM alone has captured the received checksum
before. -/
theorem decDataStep_of_entry {v : Variant} {b : Byte} {d : Dec} (hs : d.state ≠ .error)
    (ht : (decDataStep v b d).state = .error) :
    ∃ kind, kind ≠ .noError ∧ decDataStep v b d =
      ({ d.countByte with rchk := if b = termByte v ∧ d.state = .scanBody then d.hold else d.rchk } : Dec).raise
        kind d.cnt := by
  rcases decDataStep_cases v b d with ⟨-, -, e⟩ | ⟨h, -, e⟩ | ⟨h, hb, e⟩ | ⟨-, hb, e⟩ | ⟨-, -, e⟩ | ⟨h, -, e⟩ |
    ⟨h, -, e⟩ | ⟨-, -, -, e⟩ | ⟨-, e⟩
  · rw [e] at ht; cases ht
  · exact ⟨.missingStartByte, nofun, by rw [e, if_neg (by simp [h])]; rfl⟩
  · rcases d.countByte.checkChecksum_cases d.cnt with ⟨-, e'⟩ | ⟨-, -, e'⟩ | ⟨-, -, e'⟩
    · exact ⟨.packetTooLarge, nofun, by rw [e, e', if_pos ⟨hb, h⟩]; rfl⟩
    · rw [e, e'] at ht; cases ht
    · exact ⟨.checksumMismatch, nofun, by rw [e, e', if_pos ⟨hb, h⟩]; rfl⟩
  · exact ⟨.illegalStartByte, nofun, by rw [e, if_neg (by simp [hb, startByte_ne_termByte])]; rfl⟩
  · rw [e] at ht; cases ht
  · rw [e, Dec.accept_state, Dec.countByte_state, h] at ht; cases ht
  · exact ⟨.illegalEscapedByte, nofun, by rw [e, if_neg (by simp [h])]; rfl⟩
  · rw [e] at ht; cases ht
  · exact absurd (e ▸ ht) hs

/-- DEC_END enters ERROR by raising an error at D.CNT (R213 to R215). -/
theorem decEndStep_of_entry {d : Dec} (hs : d.state ≠ .error) (ht : (decEndStep d).state = .error) :
    ∃ kind, kind ≠ .noError ∧ decEndStep d = d.raise kind d.cnt := by
  rcases decEndStep_cases d with ⟨-, e⟩ | ⟨-, e⟩ | ⟨-, e⟩
  · exact ⟨.missingStartByte, nofun, e⟩
  · exact ⟨.unterminatedPacket, nofun, e⟩
  · exact absurd (e ▸ ht) hs

/-- Settles O23: only DEC_DATA and DEC_END enter ERROR, and what they raise writes the record and the state alone. -/
theorem entryIntoErrorIsPrecise : Obligations.EntryIntoErrorIsPrecise := fun i s t h hs ht => by
  have hview : ∀ a, t.d.view a = 0x00 := fun a => Dec.view_of_not_done _ a (by rw [ht]; nofun)
  cases i with
  | encOpen | encData | encAbort => cases h; exact absurd ht hs
  | decOpen => cases h; cases ht
  | decData b =>
    cases h
    obtain ⟨kind, hkind, e⟩ := decDataStep_of_entry hs ht
    rw [State.setD_d, e] at hview ⊢
    exact ⟨hkind, rfl, rfl, (if_neg nofun).symm, by simp, rfl, rfl, rfl, hview⟩
  | decEnd =>
    cases h
    obtain ⟨kind, hkind, e⟩ := decEndStep_of_entry hs ht
    rw [State.setD_d, e] at hview ⊢
    exact ⟨hkind, rfl, rfl, (if_pos rfl).symm, (if_neg nofun).symm, rfl, rfl, rfl, hview⟩

/-! ### The port (R200) -/

/-- Settles O29: outside reset the port is ready, so it transfers the word. -/
theorem decoderPortNeverWaits : Obligations.DecoderPortNeverWaits := fun s w ws ms hm hw hr => by
  have hready : decCmdReady s = true := by rw [decCmdReady, hr, Bool.not_false]
  have hstep := step_of_transfer (p := .dec) hm hw hready
  exact ⟨hready, acceptedNext_eq_some.mpr ⟨ms, ws, hm, hw, hready⟩, hstep, _, hstep.trans (acceptWord_dec w _), rfl⟩

end Sys2Proof.Machine
end

-- Proofs: an output transfer (spec/42_host_interface.md)
section
/-! PROOFS. What an `EncPop` move does with EOQ empty and non-empty, beside the transfer itself
(`step_of_transferred_byte`). -/

namespace Sys2Proof.Machine

/-! ### An output transfer (R272) -/

/-- Outside reset `enc_out_valid` says that EOQ holds a byte. -/
theorem encOutValid_of_released {s : State} (hr : s.host.rst = false) : encOutValid s = !s.e.eoq.isEmpty := by
  rw [encOutValid, hr, Bool.not_false, Bool.true_and]

theorem encPop_of_empty {s : State} (hq : s.e.eoq = []) : encPop s = s := by
  rw [encPop, hq]

/-- With EOQ empty an `EncPop` outside reset only uses up the move. -/
theorem step_of_pop_empty {s : State} {ms : List HostMove} (hm : s.host.moves = .encPop :: ms)
    (hr : s.host.rst = false) (hq : s.e.eoq = []) : step s = .next (setMoves ms s) := by
  rw [step_of_move hm, hostStep, encPop_of_empty (s := setMoves ms s) hq]
  exact congrArg Host.Outcome.next (clockEdge_of_released (setMoves ms s) hr)

/-- Settles O30: a byte at the head of EOQ is valid and transferred; an empty EOQ leaves the pop without effect. -/
theorem outputTransferDeliversTheHead : Obligations.OutputTransferDeliversTheHead := fun s ms hm hr => by
  refine ⟨fun b bs hq => ⟨?_, ?_, step_of_transferred_byte hm hr hq⟩, fun hq => ⟨?_, step_of_pop_empty hm hr hq⟩⟩
  · rw [encOutValid_of_released hr, hq, List.isEmpty_cons, Bool.not_false]
  · rw [encOutData, hq, List.head?_cons]
  · rw [encOutValid_of_released hr, hq, List.isEmpty_nil, Bool.not_true]

end Sys2Proof.Machine
end

-- Proofs: errors (spec/60_exceptions.md)
section
/-! PROOFS. The error model: what raises each decode error and what it records, when E.ERR is set and cleared, and that a
finished decode waits for DEC_OPEN or reset. -/

namespace Sys2Proof.Machine

/-! ### Each decode error and its cause (R301) -/

/-- R301's cause of each decode error: a command `i` on a decoder `d`. -/
def DecErr.CausedBy (v : Variant) (d : Dec) (i : Instr) : DecErr → Prop
  | .noError            => False
  | .missingStartByte   => d.state = .expectStart ∧ (i = .decEnd ∨ ∃ b, b ≠ startByte v ∧ i = .decData b)
  | .illegalStartByte   => d.state = .scanBody ∧ i = .decData (startByte v)
  | .illegalEscapedByte =>
    d.state = .escapePending ∧ (i = .decData (startByte v) ∨ i = .decData (escapeByte v))
  | .unterminatedPacket => (d.state = .scanBody ∨ d.state = .escapePending) ∧ i = .decEnd
  | .packetTooLarge     => d.state = .scanBody ∧ i = .decData (termByte v) ∧ d.ovf = true
  | .checksumMismatch   =>
    d.state = .scanBody ∧ i = .decData (termByte v) ∧ d.ovf = false ∧ d.sum ≠ d.hold

/-- The effect of each command on D. -/
theorem dec_of_exec {i : Instr} {s t : State} (h : exec i s = .next t) :
    (i.port = .enc ∧ t.d = s.d) ∨ (i = .decOpen ∧ t.d = s.d.restart) ∨
    (∃ b, i = .decData b ∧ t.d = decDataStep s.build.variant b s.d) ∨ (i = .decEnd ∧ t.d = decEndStep s.d) := by
  cases i with
  | encOpen | encData | encAbort => cases h; exact .inl ⟨rfl, rfl⟩
  | decOpen => cases h; exact .inr (.inl ⟨rfl, rfl⟩)
  | decData b => cases h; exact .inr (.inr (.inl ⟨b, rfl, rfl⟩))
  | decEnd => cases h; exact .inr (.inr (.inr ⟨rfl, rfl⟩))

/-- Every command keeps the decoder's invariant. -/
theorem Dec.Inv.exec {i : Instr} {s t : State} (hinv : s.d.Inv s.build.variant) (h : exec i s = .next t) :
    t.d.Inv s.build.variant := by
  rcases dec_of_exec h with ⟨-, e⟩ | ⟨-, e⟩ | ⟨b, -, e⟩ | ⟨-, e⟩ <;> rw [e]
  · exact hinv
  · exact hinv.restart
  · exact hinv.decDataStep b
  · exact hinv.decEndStep

/-- A frame byte leaves D.ERR or records an error it causes. -/
theorem decDataStep_err (v : Variant) (b : Byte) (d : Dec) :
    (decDataStep v b d).err = d.err ∨ (decDataStep v b d).err.CausedBy v d (.decData b) := by
  rcases decDataStep_cases v b d with ⟨-, -, e⟩ | ⟨hs, hb, e⟩ | ⟨hs, rfl, e⟩ | ⟨hs, rfl, e⟩ | ⟨-, -, e⟩ | ⟨-, -, e⟩ |
    ⟨hs, hb, e⟩ | ⟨-, -, -, e⟩ | ⟨-, e⟩ <;> rw [e]
  · exact .inl rfl
  · exact .inr ⟨hs, .inr ⟨b, hb, rfl⟩⟩
  · rcases d.countByte.checkChecksum_cases d.cnt with ⟨ho, e'⟩ | ⟨-, -, e'⟩ | ⟨ho, hsum, e'⟩ <;> rw [e']
    · exact .inr ⟨hs, rfl, ho⟩
    · exact .inl rfl
    · exact .inr ⟨hs, rfl, ho, hsum⟩
  · exact .inr ⟨hs, rfl⟩
  · exact .inl rfl
  · exact .inl (d.countByte.accept_err b)
  · exact .inr ⟨hs, hb.imp (congrArg Instr.decData) (congrArg Instr.decData)⟩
  · exact .inl (d.countByte.accept_err (masked v b))
  · exact .inl rfl

/-- DEC_END leaves D.ERR or records an error it causes. -/
theorem decEndStep_err (v : Variant) (d : Dec) :
    (decEndStep d).err = d.err ∨ (decEndStep d).err.CausedBy v d .decEnd := by
  rcases decEndStep_cases d with ⟨hs, e⟩ | ⟨hs, e⟩ | ⟨-, e⟩ <;> rw [e]
  · exact .inr ⟨hs, .inl rfl⟩
  · exact .inr ⟨hs, rfl⟩
  · exact .inl rfl

/-- From a state that holds no error, a recorded error has its cause. -/
theorem causedBy_of_exec {i : Instr} {s t : State} (hs : s.d.err = .noError) (h : exec i s = .next t)
    (ht : t.d.err ≠ .noError) : t.d.err.CausedBy s.build.variant s.d i := by
  rcases dec_of_exec h with ⟨-, e⟩ | ⟨-, e⟩ | ⟨b, rfl, e⟩ | ⟨rfl, e⟩ <;> rw [e] at ht ⊢
  · exact absurd hs ht
  · exact absurd s.d.restart_err ht
  · exact (decDataStep_err _ b s.d).resolve_left fun hkept => ht (hkept.trans hs)
  · exact (decEndStep_err _ s.d).resolve_left fun hkept => ht (hkept.trans hs)

/-- TERM with D.OVF set raises PacketTooLarge, and otherwise a wrong checksum raises ChecksumMismatch (R210). -/
theorem Dec.checkChecksum_err (d : Dec) (pos : BitVec 16) :
    (d.ovf = true → (d.checkChecksum pos).err = .packetTooLarge) ∧
    (d.ovf = false → d.sum ≠ d.hold → (d.checkChecksum pos).err = .checksumMismatch) := by
  rcases d.checkChecksum_cases pos with ⟨ho, e⟩ | ⟨ho, hsum, e⟩ | ⟨ho, -, e⟩ <;> rw [e, ho]
  · exact ⟨fun _ => rfl, nofun⟩
  · exact ⟨nofun, fun _ hne => absurd hsum hne⟩
  · exact ⟨nofun, fun _ _ => rfl⟩

/-- A cause records its error. -/
theorem err_of_causedBy {i : Instr} {s t : State} {k : DecErr} (h : exec i s = .next t)
    (hk : k.CausedBy s.build.variant s.d i) : t.d.err = k := by
  cases k with
  | noError => exact hk.elim
  | missingStartByte =>
    obtain ⟨hs, rfl | ⟨b, hb, rfl⟩⟩ := hk <;> cases h
    · rw [State.setD_d, decEndStep_missingStart _ hs, Dec.raise_err]
    · rw [State.setD_d, decDataStep_missingStart _ b _ hs hb, Dec.raise_err]
  | illegalStartByte =>
    obtain ⟨hs, rfl⟩ := hk
    cases h
    rw [State.setD_d, decDataStep_illegalStart _ _ hs, Dec.raise_err]
  | illegalEscapedByte =>
    obtain ⟨hs, hi⟩ := hk
    obtain ⟨b, hb, rfl⟩ : ∃ b, (b = startByte s.build.variant ∨ b = escapeByte s.build.variant) ∧ i = .decData b :=
      hi.elim (fun hi => ⟨_, .inl rfl, hi⟩) (fun hi => ⟨_, .inr rfl, hi⟩)
    cases h
    rw [State.setD_d, decDataStep_illegalEscaped _ b _ hs hb, Dec.raise_err]
  | unterminatedPacket =>
    obtain ⟨hs, rfl⟩ := hk
    cases h
    rw [State.setD_d, decEndStep_unterminated _ hs, Dec.raise_err]
  | packetTooLarge =>
    obtain ⟨hs, rfl, ho⟩ := hk
    cases h
    rw [State.setD_d, decDataStep_term _ _ hs]
    exact (s.d.countByte.checkChecksum_err _).1 ho
  | checksumMismatch =>
    obtain ⟨hs, rfl, ho, hsum⟩ := hk
    cases h
    rw [State.setD_d, decDataStep_term _ _ hs]
    exact (s.d.countByte.checkChecksum_err _).2 ho hsum

/-- From a state that holds no error, a command records an error exactly when it causes it. -/
theorem err_iff_causedBy {i : Instr} {s t : State} (hs : s.d.err = .noError) (h : exec i s = .next t) {k : DecErr}
    (hk : k ≠ .noError) : t.d.err = k ↔ k.CausedBy s.build.variant s.d i :=
  ⟨fun e => e ▸ causedBy_of_exec hs h (e ▸ hk), err_of_causedBy h⟩

/-- What the record of an error holds: it is written on the entry into ERROR (R218, R307). -/
theorem record_of_exec {i : Instr} {s t : State} (hinv : s.Inv) (hs : s.d.err = .noError) (h : exec i s = .next t)
    (ht : t.d.err ≠ .noError) :
    t.d.epos = s.d.cnt ∧ t.d.len = s.d.len ∧ t.d.ovf = s.d.ovf ∧ t.d.sum = s.d.sum ∧
    t.d.rchk = if i = .decData (termByte s.build.variant) ∧ s.d.state = .scanBody then s.d.hold else s.d.rchk := by
  have hbefore : s.d.state ≠ .error := fun hc => hinv.dec.err_iff.mpr hc hs
  have hafter : t.d.state = .error := (hinv.dec.exec h).err_iff.mp ht
  obtain ⟨-, hepos, hd, -, hrchk, -⟩ := entryIntoErrorIsPrecise i s t h hbefore hafter
  refine ⟨hepos, ?_, ?_, ?_, hrchk⟩ <;> rw [hd]

/-- Settles O22: each error by its cause; the entry into ERROR fixes the record, and the invariant the position 0 and the
full PBUF. -/
theorem eachDecodeErrorHasExactlyItsCause : Obligations.EachDecodeErrorHasExactlyItsCause := fun i s t hinv hs h => by
  have hiff : ∀ k : DecErr, k ≠ .noError → (t.d.err = k ↔ k.CausedBy s.build.variant s.d i) :=
    fun _ => err_iff_causedBy hs h
  have hrecord := record_of_exec hinv hs h
  refine ⟨hiff _ nofun, hiff _ nofun, hiff _ nofun, hiff _ nofun, hiff _ nofun, hiff _ nofun, fun ht => (hrecord ht).1,
    fun hk => ?_, fun hk => ?_, fun hk => ?_, rfl⟩
  · obtain ⟨hstart, -⟩ := (hiff .missingStartByte nofun).mp hk
    obtain ⟨-, -, hcnt, -⟩ := hinv.dec.start_clean hstart
    obtain ⟨hepos, -⟩ := hrecord (hk ▸ nofun)
    rw [hepos, hcnt]
  · obtain ⟨-, -, ho⟩ := (hiff .packetTooLarge nofun).mp hk
    obtain ⟨-, hlen, hovf, -⟩ := hrecord (hk ▸ nofun)
    rw [hlen, hovf]
    exact ⟨hinv.dec.ovf_full ho, ho⟩
  · obtain ⟨hscan, hi, -⟩ := (hiff .checksumMismatch nofun).mp hk
    obtain ⟨-, -, -, hsum, hrchk⟩ := hrecord (hk ▸ nofun)
    exact ⟨hrchk.trans (if_pos ⟨hi, hscan⟩), hsum⟩

/-! ### InvalidInput (R34, R302) -/

/-- An ENC_OPEN in IDLE sets or clears E.ERR by its length. -/
theorem encOpenStep_err_of_idle {e : Enc} (h : e.state = .idle) (v : Variant) (len : BitVec 16) :
    (encOpenStep v len e).err = true ↔ 256 < len.toNat := by
  rcases encOpenStep_cases v len e with ⟨hs, -⟩ | ⟨-, hl, he⟩ | ⟨-, hl, he⟩ | ⟨-, -, hl, he⟩
  · simp [h] at hs
  · simp [he, hl]
  · simp [he, hl]
  · simpa [he] using hl

/-- Every command but an ENC_OPEN in IDLE keeps E.ERR. -/
theorem enc_err_of_exec {i : Instr} {s t : State} (h : exec i s = .next t)
    (hi : ∀ len, i = .encOpen len → s.e.state = .body) : t.e.err = s.e.err := by
  cases i with
  | encOpen len =>
    cases h
    rw [State.setE_e, encOpenStep_body _ len _ (hi len rfl), Enc.sequenceError_err]
  | encData b =>
    cases h
    obtain ⟨-, -, herr, -⟩ := encDataStep_frame s.build.variant b s.e
    exact herr
  | encAbort =>
    cases h
    obtain ⟨-, herr, -⟩ := encAbortStep_keeps s.e
    exact herr
  | decOpen | decData | decEnd => cases h; rfl

/-- Settles O11: the flag by the length of an ENC_OPEN in IDLE, its bit in ENC_STATUS, and every other command. -/
theorem invalidInputFlagFollowsLatestOpen : Obligations.InvalidInputFlagFollowsLatestOpen := fun i s t h => by
  refine ⟨?_, ?_, enc_err_of_exec h⟩
  · rintro len rfl hs
    cases h
    refine ⟨encOpenStep_err_of_idle hs _ len, fun hl => ?_⟩
    rw [encOpenStep_tooLong _ _ _ hs hl]
    rfl
  · obtain ⟨-, herr, -⟩ := encStatus_flags t
    exact herr

/-! ### A finished decode (R308, R309) -/

/-- No word but DEC_OPEN changes a finished decode, except D.CILL. -/
theorem decWord_of_terminal {d : Dec} (h : d.terminal = true) (v : Variant) {w : Word32} (hw : w ≠ encode .decOpen) :
    decWord v d w = { d with cill := (decWord v d w).cill } := by
  rcases decWord_cases v d w with ⟨-, e⟩ | ⟨hopen, -⟩ | ⟨b, -, e⟩ | ⟨-, e⟩
  · rw [e]; rfl
  · exact absurd hopen hw
  · rw [e, decDataStep_terminal v b d h]
  · rw [e, decEndStep_terminal d h]

/-- Settles O37: outside reset D took a word other than DEC_OPEN, or none. -/
theorem onlyOpenOrResetLeavesATerminalState : Obligations.OnlyOpenOrResetLeavesATerminalState :=
  fun s t hs h hr hopen => by
    rcases dec_of_step h hr with ⟨-, hd⟩ | ⟨w, hw, hd⟩ <;> rw [hd]
    exact decWord_of_terminal ((Dec.terminal_iff _).mpr hs) _ fun hc => hopen (hc ▸ hw)

end Sys2Proof.Machine
end

-- Proofs: reset (spec/70_reset_and_hazards.md)
section
/-! PROOFS. What a clock edge with `rst` = 1 leaves and what every CSR then shows, that nothing passes a port while `rst` is
1, and the first step after reset. -/

namespace Sys2Proof.Machine

/-! ### What the reset values show (R340) -/

/-- Outside DONE every word of the PBUF window reads 0 (R84). -/
theorem pbufWord_of_not_done {s : State} (h : s.d.state ≠ .done) (k : Nat) : pbufWord s k = 0x00000000#32 := by
  simp only [pbufWord, Dec.view_of_not_done _ _ h]
  rfl

/-- Right after reset every CSR word but CFG0 and CFG1 reads 0. -/
theorem csrRead_resetOf (b : Build) (m : Memory) {addr : BitVec 10} (h0 : addr ≠ 0) (h1 : addr ≠ 1) :
    csrRead addr (State.resetOf b m) = 0x00000000#32 := by
  by_cases h7 : 7 ≤ addr.toNat
  · rw [csrRead_past_registers h7, pbufWord_of_not_done (s := State.resetOf b m) nofun, ite_self]
  · obtain rfl | rfl | rfl | rfl | rfl : addr = 2 ∨ addr = 3 ∨ addr = 4 ∨ addr = 5 ∨ addr = 6 := by bv_omega
    · exact encStatus_resetOf b m
    · exact encOq_resetOf b m
    · exact decStatus_resetOf b m
    · exact decChk_resetOf b m
    · exact decPos_resetOf b m

/-- The CSRs show the core alone: with both engines at their reset values they read as right after reset, whatever the
host has presented. -/
theorem csrRead_of_reset_engines {t : State} {m : Memory} (he : t.e = Enc.reset) (hd : t.d = Dec.resetOver m)
    {addr : BitVec 10} (h0 : addr ≠ 0) (h1 : addr ≠ 1) : csrRead addr t = 0x00000000#32 := by
  obtain ⟨b, e, d, host⟩ := t
  subst he hd
  exact csrRead_resetOf b m h0 h1

/-! ### A clock edge with `rst` = 1 (R340) -/

/-- The step at which the host raises `rst` is a reset edge. -/
theorem step_of_raised_rst {s : State} {ms : List HostMove} (hm : s.host.moves = .rst true :: ms) :
    step s = .next (driveRst true (setMoves ms s)).resetRegisters := by
  rw [step_of_move hm, hostStep, clockEdge_of_reset _ (driveRst_rst true _)]

/-- Settles O32: the engines of a step that ends in reset, and the values `resetRegisters` writes. -/
theorem resetGivesEveryRegisterItsValue : Obligations.ResetGivesEveryRegisterItsValue := by
  refine ⟨fun s t h hr => ?_, fun s ms hm => ⟨_, step_of_raised_rst hm, rfl, rfl, rfl, rfl, fun addr h0 h1 => ?_⟩⟩
  · obtain ⟨hb, ⟨-, he, hd, hout, -⟩ | ⟨hr', -⟩ | ⟨hr', -⟩⟩ := step_engines h
    · exact ⟨he, hd, hb, hout⟩
    all_goals simp [hr] at hr'
  · exact csrRead_of_reset_engines (m := s.d.pbuf) rfl rfl h0 h1

/-! ### While `rst` is 1 (R341) -/

theorem acceptedNext_of_reset {s : State} (hr : s.host.rst = true) (p : Port) : acceptedNext p s = none := by
  rw [Option.eq_none_iff_forall_ne_some]
  intro w hw
  obtain ⟨-, -, -, -, hready⟩ := acceptedNext_eq_some.mp hw
  have hreleased := rst_of_cmdReady hready
  simp [hr] at hreleased

/-- An `EncPop` during reset takes nothing, since `enc_out_valid` is 0. -/
theorem encPop_of_reset {s : State} (hr : s.host.rst = true) : encPop s = s := by
  rcases encPop_cases s with h | ⟨-, -, -, hr', -⟩
  · exact h
  · simp [hr] at hr'

/-- A step from a state in reset delivers no byte. -/
theorem out_of_step_in_reset {s t : State} (hr : s.host.rst = true) (h : step s = .next t) :
    t.host.out = s.host.out := by
  obtain ⟨-, ⟨-, -, -, hout, -⟩ | ⟨-, hout, -⟩ | ⟨-, -, -, -, ⟨ms, hm⟩, -⟩⟩ := step_engines h
  · exact hout
  · exact hout
  · rw [step_of_move hm, hostStep, encPop_of_reset (s := setMoves ms s) hr] at h
    cases h
    rw [clockEdge_host, setMoves_out]

/-- Settles O33: no port is ready and no output valid, so the step of any host move leaves the words and OUT. -/
theorem nothingIsAcceptedDuringReset : Obligations.NothingIsAcceptedDuringReset := fun s hr => by
  have hnone := acceptedNext_of_reset hr
  obtain ⟨t, h⟩ := step_answers_next s
  refine ⟨?_, ?_, ?_, hnone, t, h, out_of_step_in_reset hr h, fun p => ?_, fun hr' => ?_⟩
  · rw [encCmdReady, hr, Bool.not_true, Bool.false_and]
  · rw [decCmdReady, hr, Bool.not_true]
  · rw [encOutValid, hr, Bool.not_true, Bool.false_and]
  · simpa [hnone p] using acceptedNext_append_portWords p h
  · obtain ⟨he, hd⟩ := engines_of_step_reset h hr'
    exact ⟨he, hd, fun _ => csrRead_of_reset_engines he hd⟩

/-! ### After reset (R342) -/

/-- With no move of the host a step is a clock edge with nothing valid on any port. -/
theorem step_of_no_move {s : State} (hm : s.host.moves = []) : step s = .next s.clockEdge := by
  rw [step, runNextMove, hm]

/-- From the decoder's reset values START alone begins a frame, with no DEC_OPEN before it. -/
theorem step_of_start_after_reset {s : State} {m : Memory} {ws : List Word32} {ms : List HostMove}
    (hd : s.d = Dec.resetOver m) (hr : s.host.rst = false) (hm : s.host.moves = .decCmd :: ms)
    (hw : s.host.decWords = encode (.decData (startByte s.build.variant)) :: ws) :
    ∃ t, step s = .next t ∧ t.d.state = .scanBody ∧ t.d.err = .noError ∧ t.d.cnt = 1 := by
  have hready : decCmdReady s = true := by rw [decCmdReady, hr, Bool.not_false]
  have hstart := decDataStep_start s.build.variant (Dec.resetOver m) rfl
  refine ⟨_, stepRunsTheDecodedCommand .dec _ s ws ms rfl hm hw hready, ?_⟩
  rw [State.setD_d, setPortWords_build, setPortWords_d, setMoves_build, setMoves_d, hd, hstart]
  exact ⟨rfl, rfl, rfl⟩

/-- From the encoder's reset values ENC_OPEN finds `enc_cmd` ready and opens a frame of its length. -/
theorem step_of_encOpen_after_reset {s : State} {len : BitVec 16} {ws : List Word32} {ms : List HostMove}
    (he : s.e = Enc.reset) (hr : s.host.rst = false) (hm : s.host.moves = .encCmd :: ms)
    (hw : s.host.encWords = encode (.encOpen len) :: ws) (h1 : 1 ≤ len.toNat) (h256 : len.toNat ≤ 256) :
    ∃ t, step s = .next t ∧ t.e.state = .body ∧ t.e.rem.toNat = len.toNat ∧ t.e.eoq = [startByte s.build.variant] := by
  have hready : cmdReady .enc s = true := (cmdReady_enc_iff hr).mpr (he ▸ Nat.zero_le _)
  have hopen := encOpenStep_opens s.build.variant len Enc.reset rfl h1 h256
  refine ⟨_, stepRunsTheDecodedCommand .enc _ s ws ms rfl hm hw hready, ?_⟩
  rw [State.setE_e, setPortWords_build, setPortWords_e, setMoves_build, setMoves_e, he, hopen]
  exact ⟨rfl, Nat.mod_eq_of_lt (by omega), rfl⟩

/-- Settles O34: without a move nothing runs; the first command of each engine is run from its reset values. -/
theorem afterResetNothingRunsOnItsOwn : Obligations.AfterResetNothingRunsOnItsOwn := by
  refine ⟨fun s hr hm => ?_, fun b m ws ms => ⟨?_, fun len h1 h256 => ?_⟩⟩
  · rw [step_of_no_move hm, clockEdge_of_released s hr]
  · exact step_of_start_after_reset rfl rfl rfl rfl
  · exact step_of_encOpen_after_reset rfl rfl rfl rfl h1 h256

end Sys2Proof.Machine
end
